-- ==== Sys2Proof/Word.lean ====
section
/-! DEFINITION. The two word types of the engine: packet bytes (00_scope R11) and the 32-bit words of the
request and result ports (30_encoding R113, R117), and the plain sum of bytes. -/

namespace Sys2Proof

/-- A packet byte, unsigned (00_scope R11). -/
abbrev Byte := BitVec 8

/-- A 32-bit word of the request or result port (30_encoding R113, R117). -/
abbrev Word := BitVec 32

/-- The sum of unsigned byte values, over mathematical integers (00_scope R13). -/
def byteSum : List Byte → Nat
  | [] => 0
  | b :: bs => b.toNat + byteSum bs

end Sys2Proof
end

