-- ==== Sys2Proof/Config.lean ====
section
/-! DEFINITION. What is fixed before a run: the constants of 00_scope R9, the configuration of 00_scope R10
with the conditions of 70_reset R383, and the free values (draws and OPEN parameters), which have no body. -/

namespace Sys2Proof

/-! ### Constants (00_scope R9) -/

abbrev HEADER : Byte := 0xCA
abbrev STATUS_WRITE : Byte := 0x00
abbrev STATUS_READ : Byte := 0x01
abbrev RESP_LEN : Nat := 7
abbrev PALETTE_SIZE : Nat := 15
abbrev MODE_MAX : Int := 219
abbrev SPEED_MAX : Int := 255
abbrev BRIGHTNESS_MAX : Nat := 100
abbrev LEDCOUNT_MAX : Int := 2048

/-! ### The palette (10_state R34, 42_quantizer R220) -/

/-- One palette entry: a colour code and an RGB triple, one byte each (10_state R34). -/
structure PaletteEntry where
  code : Byte
  r : Byte
  g : Byte
  b : Byte
  deriving DecidableEq, Repr, Inhabited

/-- The names of the 15 entries (42_quantizer R220). -/
inductive PaletteName where
  | red | green | blue | yellow | magenta | cyan | lightGray | brightCyan | brightGreen | brightPurple
  | brightBlue | brightYellow | brightOrange | brightRed | black
  deriving DecidableEq, Repr

/-- The fixed order of the entries, which is the tie-break order (42_quantizer R220). -/
def PaletteName.index : PaletteName → Fin 15
  | .red => 0 | .green => 1 | .blue => 2 | .yellow => 3 | .magenta => 4 | .cyan => 5 | .lightGray => 6
  | .brightCyan => 7 | .brightGreen => 8 | .brightPurple => 9 | .brightBlue => 10 | .brightYellow => 11
  | .brightOrange => 12 | .brightRed => 13 | .black => 14

/-- The whole table (10_state R34). -/
abbrev Palette := Vector PaletteEntry 15

/-- Squared distance of an entry's RGB from (0,0,0), for condition K3. -/
def PaletteEntry.normSq (e : PaletteEntry) : Nat :=
  e.r.toNat * e.r.toNat + e.g.toNat * e.g.toNat + e.b.toNat * e.b.toNat

/-- Conditions K1 to K6 (42_quantizer R221). -/
def Palette.ok (p : Palette) : Bool :=
  decide (p[0] = ⟨0x00, 0x80, 0x00, 0x00⟩) &&
  decide (p[14].code = 0x0F) &&
  decide (∀ i : Fin 14, p[14].normSq < p[i.val].normSq) &&
  decide (∀ i : Fin 15, i ≠ 0 → ¬(p[i].r = 0x7F ∧ p[i].g = 0x00 ∧ p[i].b = 0x00)) &&
  decide (∀ i j : Fin 15, i ≠ j → p[i].code ≠ p[j].code) &&
  decide (∀ i : Fin 15, p[i].code.toNat ≤ 219)

/-! ### The configuration (00_scope R10, 10_state R48, 70_reset R382) -/

/-- The configuration: the OPEN parameters, and the fixed ones with the values of 00_scope R9 and R10. -/
structure Config where
  palette : Palette
  powerOnParams : List Byte
  powerOffParams : List Byte
  maxChunk : Nat
  maxParams : Nat := 250
  exactWait : Bool := true
  timeoutMs : Nat := 500
  pollMs : Nat := 20
  paceMs : Nat := 100
  defaultBaud : Word := 115200
  deriving DecidableEq, Repr

/-- The conditions a configuration meets (70_reset R383 (1); `MAX_PARAMS` = 250 by 40_framer R142). -/
def Config.ok (c : Config) : Bool :=
  c.palette.ok && decide (c.powerOnParams.length ≤ 250) && decide (c.powerOffParams.length ≤ 250) &&
  decide (1 ≤ c.maxChunk) && decide (c.maxParams = 250)

/-! ### Free values -/

/-- The OPEN palette (decision D8). -/
opaque Config.freePalette : Palette
/-- The OPEN parameters of power on (decision D6). -/
opaque Config.freePowerOnParams : List Byte
/-- The OPEN parameters of power off (decision D6). -/
opaque Config.freePowerOffParams : List Byte
/-- The OPEN chunk size, less one (decision D35). -/
opaque Config.freeChunk : Nat
/-- Whether the n-th draw, if it answers `TxOpen`, is a handle (60_exceptions R361). -/
opaque Config.freeOpen : Nat → Bool
/-- What the n-th draw, if it answers `TxWrite`, answers (60_exceptions R362). -/
opaque Config.freeWrite : Nat → Bool
/-- How many bytes the n-th draw, if it answers `TxRead`, offers to return (60_exceptions R363). -/
opaque Config.freeRead : Nat → Nat
/-- Which of several enabled agents moves at the n-th draw (60_exceptions R348). -/
opaque Config.freeTurn : Nat → Nat
/-- For how many free choices the agent favoured next may be passed over (70_reset R389), by the draw that settles it. -/
opaque Config.freeGrace : Nat → Nat

/-- A palette that meets K1 to K6: the spec's own test table (95_test_vectors, `TEST_PALETTE`), "a test choice, not
the device's". It stands for the hardware's palette only where `Config.freePalette` breaks K1 to K6 (log entry 1). -/
def testPalette : Palette := #v[
  ⟨0x00, 0x80, 0x00, 0x00⟩, ⟨0x01, 0x00, 0x80, 0x00⟩, ⟨0x02, 0x00, 0x00, 0x80⟩, ⟨0x03, 0x80, 0x80, 0x00⟩,
  ⟨0x04, 0x80, 0x00, 0x80⟩, ⟨0x05, 0x00, 0x80, 0x80⟩, ⟨0x06, 0xC0, 0xC0, 0xC0⟩, ⟨0x07, 0x00, 0xFF, 0xFF⟩,
  ⟨0x08, 0x00, 0xFF, 0x00⟩, ⟨0x09, 0xFF, 0x00, 0xFF⟩, ⟨0x0A, 0x00, 0x00, 0xFF⟩, ⟨0x0B, 0xFF, 0xFF, 0x00⟩,
  ⟨0x0C, 0xFF, 0x80, 0x00⟩, ⟨0x0D, 0xFF, 0x00, 0x00⟩, ⟨0x0F, 0x00, 0x00, 0x00⟩]

/-- The hardware instance: the OPEN parameters free within their conditions, every other field at its fixed value
(00_scope R9, R10). A statement about it holds for every palette meeting K1 to K6 (log entry 1). -/
def Config.hardware : Config where
  palette := if Config.freePalette.ok then Config.freePalette else testPalette
  powerOnParams := Config.freePowerOnParams.take 250
  powerOffParams := Config.freePowerOffParams.take 250
  maxChunk := Config.freeChunk + 1

end Sys2Proof
end

