-- ==== Sys2Proof/Syntax.lean ====
section
/-! DEFINITION. The instructions: one constructor per row of spec/opcode_table.json, 24 requests (format REQ,
30_encoding R114 to R116) and 13 wire packets (format PKT, 30_encoding R100 to R112, R121). -/

namespace Sys2Proof

/-- Where an instruction's bytes travel: the request port (30_encoding R113), the engine's outbound stream or its
inbound stream (20_memory R70 (c), (d)). -/
inductive Port where
  | request
  | outbound
  | inbound
  deriving DecidableEq, Repr

/-- One instruction. Operands are named as 30_encoding R116 and the table's `source_fields` name them. -/
inductive Instr where
  -- the engine's own units (30_encoding R114)
  | cksum (p : Byte) (data : List Byte)
  | encf (cmd status : Byte) (params : List Byte)
  | encw (cmd : Byte) (params : List Byte)
  | encr (cmd : Byte)
  | decr (data : List Byte)
  | collect
  | qrgb (r g b : Byte)
  | qhex (str : List Byte)
  | wrcmd (cmd : Byte) (params : List Byte)
  | rdcmd (cmd : Byte)
  -- the command layer (30_encoding R115)
  | connect (baud : Word) (path : List Byte)
  | disconnect
  | turnon
  | turnoff
  | setmode (v : Word)
  | setbright (v : Word)
  | setcolor (hex lum : List Byte)
  | setspeed (v : Word)
  | setauto (on : Bool)
  | setpause (on : Bool)
  | setdir (forward : Bool)
  | setleds (v : Word)
  | getfw
  | rdstat
  -- wire packets (30_encoding R121); `len` is byte 1, `sum` the last byte, both as they stand on the wire
  | pktPower (len : Byte) (params : List Byte) (sum : Byte)
  | pktAuto (on : Bool) (sum : Byte)
  | pktPause (on : Bool) (sum : Byte)
  | pktMode (m sum : Byte)
  | pktDirection (reverse : Bool) (sum : Byte)
  | pktSpeed (v sum : Byte)
  | pktRgborder (len status : Byte) (params : List Byte) (sum : Byte)
  | pktBrightness (v sum : Byte)
  | pktLedcount (lo hi sum : Byte)
  | pktFwread (sum : Byte)
  | pktReadreq (cmd sum : Byte)
  | pktWrite (len cmd : Byte) (params : List Byte) (sum : Byte)
  | pktResponse (status cmd p0 p1 sum : Byte)
  deriving DecidableEq, Repr

/-- Which way an instruction travels: the table's REQ rows on the request port, PKT.RESPONSE inbound ("inbound; T and
C not checked"), every other PKT row outbound. -/
def Instr.port : Instr → Port
  | .cksum .. | .encf .. | .encw .. | .encr .. | .decr .. | .collect | .qrgb .. | .qhex .. | .wrcmd .. | .rdcmd ..
  | .connect .. | .disconnect | .turnon | .turnoff | .setmode .. | .setbright .. | .setcolor .. | .setspeed ..
  | .setauto .. | .setpause .. | .setdir .. | .setleds .. | .getfw | .rdstat => .request
  | .pktPower .. | .pktAuto .. | .pktPause .. | .pktMode .. | .pktDirection .. | .pktSpeed .. | .pktRgborder ..
  | .pktBrightness .. | .pktLedcount .. | .pktFwread .. | .pktReadreq .. | .pktWrite .. => .outbound
  | .pktResponse .. => .inbound

end Sys2Proof
end

