-- ==== Sys2Proof/WellFormed.lean ====
section
/-! DEFINITION. Which instructions the encodings of 30_encoding can carry: byte counts that fit the N and C fields of
a request (R113, R116), and, for a packet, the row's own pattern, the length byte and the checksum (R100, R101). -/

namespace Sys2Proof

/-- The checksum byte a packet with these fields carries (30_encoding R100, R101). -/
def packetSum (len status cmd : Byte) (params : List Byte) : Byte :=
  BitVec.ofNat 8 (byteSum ([HEADER, len, status, cmd] ++ params))

/-- The invariant of a packet: the length byte counts its bytes, the last byte is the sum of all before it
(30_encoding R101). -/
def packetFieldsOk (len status cmd : Byte) (params : List Byte) (sum : Byte) : Bool :=
  decide (params.length ≤ 250) && decide (len.toNat = 5 + params.length) &&
  decide (sum = packetSum len status cmd params)

/-- A byte that a one-bit pattern `0000000B` admits (the table's PKT.AUTO, PKT.PAUSE, PKT.DIRECTION). -/
def isFlagByte (b : Byte) : Bool := b == 0x00 || b == 0x01

/-- A write packet whose command has a row of its own is that row's; the generic PKT.WRITE row is for the rest. -/
def genericWrite (len cmd : Byte) (params : List Byte) : Bool :=
  cmd != 0x01 && cmd != 0x07 &&
  !(len == 0x06 && match params with
    | [v] => (isFlagByte v && (cmd == 0x02 || cmd == 0x03 || cmd == 0x05)) || cmd == 0x04 || cmd == 0x06 || cmd == 0x08
    | _ => false) &&
  !(len == 0x07 && cmd == 0x09 && params.length == 2)

/-- Well-formedness: what the encoding of the instruction's row can carry. -/
def Instr.wf : Instr → Bool
  | .cksum _ data => decide (data.length ≤ 255)
  | .encf _ _ params => decide (params.length ≤ 255)
  | .encw _ params => decide (params.length ≤ 255)
  | .encr _ => true
  | .decr data => decide (data.length ≤ 255)
  | .collect => true
  | .qrgb _ _ _ => true
  | .qhex str => decide (str.length ≤ 255)
  | .wrcmd _ params => decide (params.length ≤ 255)
  | .rdcmd _ => true
  | .connect _ path => decide (path.length ≤ 255)
  | .disconnect => true
  | .turnon => true
  | .turnoff => true
  | .setmode _ => true
  | .setbright _ => true
  | .setcolor hex lum => decide (hex.length ≤ 255) && decide (lum.length ≤ 255)
  | .setspeed _ => true
  | .setauto _ => true
  | .setpause _ => true
  | .setdir _ => true
  | .setleds _ => true
  | .getfw => true
  | .rdstat => true
  | .pktPower len params sum => packetFieldsOk len STATUS_WRITE 0x01 params sum
  | .pktAuto on sum => packetFieldsOk 0x06 STATUS_WRITE 0x02 [if on then 0x01 else 0x00] sum
  | .pktPause on sum => packetFieldsOk 0x06 STATUS_WRITE 0x03 [if on then 0x01 else 0x00] sum
  | .pktMode m sum => packetFieldsOk 0x06 STATUS_WRITE 0x04 [m] sum && decide (m.toNat ≤ 219)
  | .pktDirection rev sum => packetFieldsOk 0x06 STATUS_WRITE 0x05 [if rev then 0x01 else 0x00] sum
  | .pktSpeed v sum => packetFieldsOk 0x06 STATUS_WRITE 0x06 [v] sum
  | .pktRgborder len status params sum => packetFieldsOk len status 0x07 params sum
  | .pktBrightness v sum => packetFieldsOk 0x06 STATUS_WRITE 0x08 [v] sum && decide (v.toNat ≤ 100)
  | .pktLedcount lo hi sum => packetFieldsOk 0x07 STATUS_WRITE 0x09 [lo, hi] sum && decide (lo.toNat + 256 * hi.toNat ≤ 2048)
  | .pktFwread sum => packetFieldsOk 0x05 STATUS_READ 0x0A [] sum
  | .pktReadreq cmd sum => packetFieldsOk 0x05 STATUS_READ cmd [] sum && cmd != 0x0A && cmd != 0x07
  | .pktWrite len cmd params sum => packetFieldsOk len STATUS_WRITE cmd params sum && genericWrite len cmd params
  | .pktResponse status cmd p0 p1 sum => packetFieldsOk 0x07 status cmd [p0, p1] sum

end Sys2Proof
end

