-- ==== Sys2Proof/Decode.lean ====
section
/-! DEFINITION. The decoder of both encodings of 30_encoding, total on any bytes and rejecting by name, and the encoder
written from the same tables: requests by R113 to R116 and R118, packets by R100 to R110 and R121. -/

namespace Sys2Proof

/-! ### Byte order of the port (30_encoding R113, R116; 20_memory R73) -/

/-- Four bytes, least significant first, as a word. -/
def wordOfBytes (b0 b1 b2 b3 : Byte) : Word :=
  BitVec.ofNat 32 (b0.toNat + 256 * b1.toNat + 65536 * b2.toNat + 16777216 * b3.toNat)

/-- A word as four bytes, least significant first. -/
def bytesOfWord (w : Word) : List Byte :=
  [BitVec.ofNat 8 w.toNat, BitVec.ofNat 8 (w.toNat / 256), BitVec.ofNat 8 (w.toNat / 65536),
    BitVec.ofNat 8 (w.toNat / 16777216)]

/-- A boolean as a byte, 1 for true (30_encoding R110, R116). -/
def byteOfBool (b : Bool) : Byte := if b then 0x01 else 0x00

/-- A byte of which only bit 0 may be set, as a boolean (30_encoding R116, "bits 7:1 must be 0"). -/
def flagValue (b : Byte) : Option Bool :=
  if b == 0x00 then some false else if b == 0x01 then some true else none

/-! ### Why bytes are no instruction -/

inductive Reject where
  /-- An illegal request (30_encoding R118), with the OP it carries: it is answered ILLEGAL_REQUEST. -/
  | illegal (op : Byte)
  /-- A request whose header or data stream is not as long as 30_encoding R113 and R116 make it. -/
  | dataLength
  /-- Bytes of the link that match no packet row of the table. -/
  | notAPacket
  deriving DecidableEq, Repr

/-! ### Operation codes (30_encoding R114, R115) -/

abbrev OP_CKSUM : Byte := 0x01
abbrev OP_ENCF : Byte := 0x02
abbrev OP_ENCW : Byte := 0x03
abbrev OP_ENCR : Byte := 0x04
abbrev OP_DECR : Byte := 0x05
abbrev OP_COLLECT : Byte := 0x06
abbrev OP_QRGB : Byte := 0x07
abbrev OP_QHEX : Byte := 0x08
abbrev OP_WRCMD : Byte := 0x09
abbrev OP_RDCMD : Byte := 0x0A
abbrev OP_CONNECT : Byte := 0x10
abbrev OP_DISCONNECT : Byte := 0x11
abbrev OP_TURNON : Byte := 0x12
abbrev OP_TURNOFF : Byte := 0x13
abbrev OP_SETMODE : Byte := 0x14
abbrev OP_SETBRIGHT : Byte := 0x15
abbrev OP_SETCOLOR : Byte := 0x16
abbrev OP_SETSPEED : Byte := 0x17
abbrev OP_SETAUTO : Byte := 0x18
abbrev OP_SETPAUSE : Byte := 0x19
abbrev OP_SETDIR : Byte := 0x1A
abbrev OP_SETLEDS : Byte := 0x1B
abbrev OP_GETFW : Byte := 0x1C
abbrev OP_RDSTAT : Byte := 0x20

/-! ### Requests -/

/-- A request with exactly `n` data bytes (30_encoding R113: "The data stream has exactly the byte count rule R116
gives for the op"). -/
def withData (n : Nat) (data : List Byte) (i : Instr) : Except Reject Instr :=
  if data.length = n then .ok i else .error .dataLength

/-- A request whose C and N obey the "must" of 30_encoding R116; else it is illegal (R118). -/
def mustHold (op : Byte) (legal : Bool) (r : Except Reject Instr) : Except Reject Instr :=
  if legal then r else .error (.illegal op)

/-- The one operand word of SETMODE, SETBRIGHT, SETSPEED and SETLEDS (30_encoding R116). -/
def withInt32 (data : List Byte) (f : Word → Instr) : Except Reject Instr :=
  match data with
  | [b0, b1, b2, b3] => .ok (f (wordOfBytes b0 b1 b2 b3))
  | _ => .error .dataLength

/-- C is a boolean: bit 0 its value, bits 7:1 must be 0; N must be 0 (30_encoding R116). -/
def withFlag (op c n : Byte) (data : List Byte) (f : Bool → Instr) : Except Reject Instr :=
  match flagValue c with
  | some b => mustHold op (n == 0) (withData 0 data (f b))
  | none => .error (.illegal op)

/-- The operand layouts of 30_encoding R116. -/
def decodeOp (op c n : Byte) (data : List Byte) : Except Reject Instr :=
  if op == OP_CKSUM then withData n.toNat data (.cksum c data)
  else if op == OP_ENCF then
    match data with
    | st :: params => withData n.toNat params (.encf c st params)
    | [] => .error .dataLength
  else if op == OP_ENCW then withData n.toNat data (.encw c data)
  else if op == OP_ENCR then mustHold op (n == 0) (withData 0 data (.encr c))
  else if op == OP_DECR then mustHold op (c == 0) (withData n.toNat data (.decr data))
  else if op == OP_COLLECT then mustHold op (c == 0 && n == 0) (withData 0 data .collect)
  else if op == OP_QRGB then
    mustHold op (c == 0 && n == 3) (match data with | [r, g, b] => .ok (.qrgb r g b) | _ => .error .dataLength)
  else if op == OP_QHEX then mustHold op (c == 0) (withData n.toNat data (.qhex data))
  else if op == OP_WRCMD then withData n.toNat data (.wrcmd c data)
  else if op == OP_RDCMD then mustHold op (n == 0) (withData 0 data (.rdcmd c))
  else if op == OP_CONNECT then
    mustHold op (c == 0) (match data with
      | b0 :: b1 :: b2 :: b3 :: path => withData n.toNat path (.connect (wordOfBytes b0 b1 b2 b3) path)
      | _ => .error .dataLength)
  else if op == OP_DISCONNECT then mustHold op (c == 0 && n == 0) (withData 0 data .disconnect)
  else if op == OP_TURNON then mustHold op (c == 0 && n == 0) (withData 0 data .turnon)
  else if op == OP_TURNOFF then mustHold op (c == 0 && n == 0) (withData 0 data .turnoff)
  else if op == OP_SETMODE then mustHold op (c == 0 && n == 4) (withInt32 data .setmode)
  else if op == OP_SETBRIGHT then mustHold op (c == 0 && n == 4) (withInt32 data .setbright)
  else if op == OP_SETCOLOR then
    withData (c.toNat + n.toNat) data (.setcolor (data.take c.toNat) (data.drop c.toNat))
  else if op == OP_SETSPEED then mustHold op (c == 0 && n == 4) (withInt32 data .setspeed)
  else if op == OP_SETAUTO then withFlag op c n data .setauto
  else if op == OP_SETPAUSE then withFlag op c n data .setpause
  else if op == OP_SETDIR then withFlag op c n data .setdir
  else if op == OP_SETLEDS then mustHold op (c == 0 && n == 4) (withInt32 data .setleds)
  else if op == OP_GETFW then mustHold op (c == 0 && n == 0) (withData 0 data .getfw)
  else if op == OP_RDSTAT then mustHold op (c == 0 && n == 0) (withData 0 data .rdstat)
  else .error (.illegal op)

/-- A request: header bytes OP, C, N, RSV, then the data stream (30_encoding R113); RSV must be 0 (R118). -/
def decodeRequest : List Byte → Except Reject Instr
  | op :: c :: n :: rsv :: data => mustHold op (rsv == 0) (decodeOp op c n data)
  | _ => .error .dataLength

/-! ### Packets -/

/-- A packet whose one parameter is a one-bit pattern `0000000B` of its row (R110); any other byte there is the generic
row's. -/
def flagPacket (len cmd v sum : Byte) (f : Bool → Byte → Instr) : Instr :=
  match flagValue v with
  | some b => f b sum
  | none => .pktWrite len cmd [v] sum

/-- The write packets of the table by command and parameter count (30_encoding R110), the generic row for the rest. -/
def decodeWrite (len cmd : Byte) (params : List Byte) (sum : Byte) : Instr :=
  if cmd == 0x01 then .pktPower len params sum
  else match params with
    | [v] =>
      if len != 0x06 then .pktWrite len cmd params sum
      else if cmd == 0x02 then flagPacket len cmd v sum .pktAuto
      else if cmd == 0x03 then flagPacket len cmd v sum .pktPause
      else if cmd == 0x04 then .pktMode v sum
      else if cmd == 0x05 then flagPacket len cmd v sum .pktDirection
      else if cmd == 0x06 then .pktSpeed v sum
      else if cmd == 0x08 then .pktBrightness v sum
      else .pktWrite len cmd params sum
    | [lo, hi] => if len == 0x07 && cmd == 0x09 then .pktLedcount lo hi sum else .pktWrite len cmd params sum
    | _ => .pktWrite len cmd params sum

/-- The outbound rows of the table, a row that fixes the command byte before a generic one (log entry 9). -/
def decodeOutboundFields (len st cmd : Byte) (params : List Byte) (sum : Byte) : Except Reject Instr :=
  if cmd == 0x07 then .ok (.pktRgborder len st params sum)
  else if st == STATUS_WRITE then .ok (decodeWrite len cmd params sum)
  else if st == STATUS_READ && len == 0x05 && params.isEmpty then
    .ok (if cmd == 0x0A then .pktFwread sum else .pktReadreq cmd sum)
  else .error .notAPacket

/-- A packet the engine sends: header, length, status, command, parameters, checksum (30_encoding R100). -/
def decodeOutbound : List Byte → Except Reject Instr
  | h :: len :: st :: cmd :: rest =>
    match rest.getLast? with
    | some sum => if h == HEADER then decodeOutboundFields len st cmd rest.dropLast sum else .error .notAPacket
    | none => .error .notAPacket
  | _ => .error .notAPacket

/-- The response the device sends: seven bytes, header 0xCA, length 7 (30_encoding R104). -/
def decodeInbound : List Byte → Except Reject Instr
  | [h, len, st, cmd, p0, p1, sum] =>
    if h == HEADER && len == 0x07 then .ok (.pktResponse st cmd p0 p1 sum) else .error .notAPacket
  | _ => .error .notAPacket

/-- The decoder: bytes presented at a port, as an instruction or a rejection by name. -/
def decode (p : Port) (bytes : List Byte) : Except Reject Instr :=
  match p with
  | .request => decodeRequest bytes
  | .outbound => decodeOutbound bytes
  | .inbound => decodeInbound bytes

/-! ### The encoder -/

/-- A byte count as a field of the header (30_encoding R113). -/
def countByte (bytes : List Byte) : Byte := BitVec.ofNat 8 bytes.length

/-- A request's bytes: the header, least significant byte first, then the data (30_encoding R113). -/
def encodeRequest (op c n : Byte) (data : List Byte) : List Byte := [op, c, n, 0x00] ++ data

/-- A packet's bytes in offset order (20_memory R71, 30_encoding R100). -/
def encodePacket (len status cmd : Byte) (params : List Byte) (sum : Byte) : List Byte :=
  [HEADER, len, status, cmd] ++ params ++ [sum]

/-- The bytes of an instruction, from the layouts of 30_encoding R116 and the packet patterns of R102 to R104, R110. -/
def Instr.encode : Instr → List Byte
  | .cksum p data => encodeRequest OP_CKSUM p (countByte data) data
  | .encf cmd st params => encodeRequest OP_ENCF cmd (countByte params) (st :: params)
  | .encw cmd params => encodeRequest OP_ENCW cmd (countByte params) params
  | .encr cmd => encodeRequest OP_ENCR cmd 0 []
  | .decr data => encodeRequest OP_DECR 0 (countByte data) data
  | .collect => encodeRequest OP_COLLECT 0 0 []
  | .qrgb r g b => encodeRequest OP_QRGB 0 3 [r, g, b]
  | .qhex str => encodeRequest OP_QHEX 0 (countByte str) str
  | .wrcmd cmd params => encodeRequest OP_WRCMD cmd (countByte params) params
  | .rdcmd cmd => encodeRequest OP_RDCMD cmd 0 []
  | .connect baud path => encodeRequest OP_CONNECT 0 (countByte path) (bytesOfWord baud ++ path)
  | .disconnect => encodeRequest OP_DISCONNECT 0 0 []
  | .turnon => encodeRequest OP_TURNON 0 0 []
  | .turnoff => encodeRequest OP_TURNOFF 0 0 []
  | .setmode v => encodeRequest OP_SETMODE 0 4 (bytesOfWord v)
  | .setbright v => encodeRequest OP_SETBRIGHT 0 4 (bytesOfWord v)
  | .setcolor hex lum => encodeRequest OP_SETCOLOR (countByte hex) (countByte lum) (hex ++ lum)
  | .setspeed v => encodeRequest OP_SETSPEED 0 4 (bytesOfWord v)
  | .setauto on => encodeRequest OP_SETAUTO (byteOfBool on) 0 []
  | .setpause on => encodeRequest OP_SETPAUSE (byteOfBool on) 0 []
  | .setdir fwd => encodeRequest OP_SETDIR (byteOfBool fwd) 0 []
  | .setleds v => encodeRequest OP_SETLEDS 0 4 (bytesOfWord v)
  | .getfw => encodeRequest OP_GETFW 0 0 []
  | .rdstat => encodeRequest OP_RDSTAT 0 0 []
  | .pktPower len params sum => encodePacket len STATUS_WRITE 0x01 params sum
  | .pktAuto on sum => encodePacket 0x06 STATUS_WRITE 0x02 [byteOfBool on] sum
  | .pktPause on sum => encodePacket 0x06 STATUS_WRITE 0x03 [byteOfBool on] sum
  | .pktMode m sum => encodePacket 0x06 STATUS_WRITE 0x04 [m] sum
  | .pktDirection rev sum => encodePacket 0x06 STATUS_WRITE 0x05 [byteOfBool rev] sum
  | .pktSpeed v sum => encodePacket 0x06 STATUS_WRITE 0x06 [v] sum
  | .pktRgborder len st params sum => encodePacket len st 0x07 params sum
  | .pktBrightness v sum => encodePacket 0x06 STATUS_WRITE 0x08 [v] sum
  | .pktLedcount lo hi sum => encodePacket 0x07 STATUS_WRITE 0x09 [lo, hi] sum
  | .pktFwread sum => encodePacket 0x05 STATUS_READ 0x0A [] sum
  | .pktReadreq cmd sum => encodePacket 0x05 STATUS_READ cmd [] sum
  | .pktWrite len cmd params sum => encodePacket len STATUS_WRITE cmd params sum
  | .pktResponse st cmd p0 p1 sum => encodePacket 0x07 st cmd [p0, p1] sum

/-! ### An instruction given as a number, its bits counted as spec/opcode_table.json counts them -/

/-- How many data bytes follow a request's header (30_encoding R116). -/
def requestDataLength (op c n : Byte) : Nat :=
  if op == OP_ENCF then n.toNat + 1
  else if op == OP_CONNECT then 4 + n.toNat
  else if op == OP_SETCOLOR then c.toNat + n.toNat
  else n.toNat

/-- Which way a packet with these bytes travels, where nothing but the bytes tells: the inbound row fixes length 7, and
an outbound row of length 7 that fixes the command byte comes before it (log entry 9). -/
def packetPort (len st cmd : Byte) : Port :=
  if len == 0x07 && cmd != 0x07 && !(st == STATUS_WRITE && (cmd == 0x01 || cmd == 0x09)) then .inbound else .outbound

/-- Byte `k` of a number, byte 0 its least significant. -/
def byteAt (w k : Nat) : Byte := BitVec.ofNat 8 (w / 256 ^ k)

/-- The port and the bytes of the instruction whose bits are `w`. A request's first word is its header, least
significant byte first (30_encoding R113); a packet's is its first four bytes "in wire order (byte 0 in bits 31:24)"
(R121). Later bytes count on from bit 32. A request has RSV = 0 in bits 31:24 and a packet 0xCA, so the two differ. -/
def tableBytes (nbits w : Nat) : Port × List Byte :=
  let w := w % 2 ^ nbits
  let more := fun n => (List.range n).map fun k => byteAt w (4 + k)
  if byteAt w 3 == HEADER then
    (packetPort (byteAt w 2) (byteAt w 1) (byteAt w 0),
      [byteAt w 3, byteAt w 2, byteAt w 1, byteAt w 0] ++ more (max 5 (byteAt w 2).toNat - 4))
  else
    (.request, [byteAt w 0, byteAt w 1, byteAt w 2, byteAt w 3] ++
      more (requestDataLength (byteAt w 0) (byteAt w 1) (byteAt w 2)))

/-- The instruction the decoder reads from the instruction whose bits are `w` (none where it rejects). -/
def decodeTableWord (nbits w : Nat) : Option Instr :=
  match decode (tableBytes nbits w).1 (tableBytes nbits w).2 with
  | .ok i => some i
  | .error _ => none

end Sys2Proof
end

