-- ==== Sys2Proof/Machine/State.lean ====
section
/-! DEFINITION. The machine's state: every element of 10_state R31 to R52, the configuration the step reads, the
transport's plain data, the results delivered, and what happens next; with reset and the reasons a step can stop. -/

namespace Sys2Proof.Machine

/-- A byte sequence of the wire (30_encoding R100). -/
abbrev Packet := List Byte

/-- An opaque transport handle (10_state R35), numbered by the order `TxOpen` answered it (log entry 3). -/
abbrev Handle := Nat

/-- `CONN` (10_state R35). -/
inductive Conn where
  | disconnected
  | connected (h : Handle)
  deriving DecidableEq, Repr

/-- `COL_PHASE` (10_state R37). -/
inductive ColPhase where
  | idle
  | poll
  | wait
  deriving DecidableEq, Repr

/-- `COL_OWNER` (10_state R52). -/
inductive Owner where
  | none
  | collect
  | rdcmd
  | getfw
  deriving DecidableEq, Repr

/-- `SEQ_PHASE` (10_state R44). -/
inductive SeqPhase where
  | idle
  | waitOn
  | waitMode
  | waitBright
  deriving DecidableEq, Repr

/-- The fault codes that are ever set (60_exceptions R352); no fault is `none`. -/
inductive FaultCode where
  | concurrentRead
  | seqBusy
  | busyDisconnect
  deriving DecidableEq, Repr

/-- The result kinds (60_exceptions R340). -/
inductive ResultKind where
  | ok
  | preconditionViolation
  | ioError
  | timeout
  | invalidHeader
  | lengthMismatch
  | checksumMismatch
  | interrupted
  | notConnected
  | connectError
  | illegalRequest
  deriving DecidableEq, Repr

/-- One result delivered on the result port (30_encoding R117), with the time it was delivered. -/
structure Result where
  kind : ResultKind
  op : Byte
  payload : List Byte
  time : Nat
  deriving DecidableEq, Repr

/-- One call of the transport (60_exceptions R360) with its answer; `via` is the handle held in `CONN`. -/
inductive TxCall where
  | opened (path : List Byte) (baud : Word) (answer : Option Handle)
  | wrote (via : Option Handle) (p : Packet) (ok : Bool)
  | read (via : Option Handle) (chunk : List Byte)
  | released (h : Handle)
  deriving DecidableEq, Repr

/-- The transport as plain data (60_exceptions R360 to R364). `openAnswers`, `writeAnswers` and `readSizes` are the draws
the environment has already fixed, oldest first; past them a draw is a free value indexed by `draws` (log entry 2). -/
structure Transport where
  inbound : List Byte
  openAnswers : List Bool
  writeAnswers : List Bool
  readSizes : List Nat
  draws : Nat
  issued : Nat
  calls : List TxCall
  deriving DecidableEq, Repr

/-- The agents of the engine that step by themselves (10_state R30). -/
inductive Agent where
  | collector
  | sequencer
  | clock
  deriving DecidableEq, Repr

/-- Who moves where several agents can (60_exceptions R348): anyone for `grace` more such choices, then `favoured` if its
step is enabled. This is the weak fairness of 70_reset R389 (log entry 16). -/
structure Schedule where
  favoured : Agent
  grace : Nat
  deriving DecidableEq, Repr

/-- What happens next (log entry 7): an instruction's bytes at a port, the cancel input (60_exceptions R356), bytes that
arrive (30_encoding R120, DEVICE), reset (70_reset R380), the turn of one agent (60_exceptions R348), or the engine's own
agents running until `now = t` (30_encoding R120, TICK). -/
inductive Event where
  | instr (p : Port) (bytes : List Byte)
  | cancel
  | device (bytes : List Byte)
  | reset
  | turn (a : Agent)
  | tickTo (t : Nat)
  deriving DecidableEq, Repr

/-- The machine's state. -/
structure State where
  /-- The configuration, which no step writes (10_state R48, 70_reset R382). -/
  cfg : Config
  /-- `CONN` (10_state R35). -/
  conn : Conn
  /-- `RD_BUSY` (10_state R36). -/
  rdBusy : Bool
  /-- `COL_PHASE` (10_state R37). -/
  colPhase : ColPhase
  /-- `COL_COUNT` (10_state R38). -/
  colCount : Nat
  /-- `COL_BUF[0..6]`, an unwritten byte absent (10_state R39). -/
  colBuf : Vector (Option Byte) 7
  /-- `COL_DEADLINE` (10_state R41). -/
  colDeadline : Nat
  /-- `COL_WAKE` (10_state R42). -/
  colWake : Nat
  /-- `COL_OWNER` (10_state R52). -/
  colOwner : Owner
  /-- `now` (10_state R40). -/
  now : Nat
  /-- `CANCEL_PEND` (10_state R43). -/
  cancelPend : Bool
  /-- `SEQ_PHASE` (10_state R44). -/
  seqPhase : SeqPhase
  /-- `SEQ_WAKE` (10_state R45). -/
  seqWake : Nat
  /-- `SEQ_CODE` (10_state R45). -/
  seqCode : Byte
  /-- `SEQ_LUM` (10_state R45). -/
  seqLum : BitVec 7
  /-- `FAULT` (10_state R46). -/
  fault : Option FaultCode
  /-- `TX_LOG` (10_state R47). -/
  txLog : List (Packet × Bool)
  /-- The transport (60_exceptions R360), outside the engine. -/
  tx : Transport
  /-- The results delivered so far, oldest first (30_encoding R117). -/
  results : List Result
  /-- What happens next, oldest first. -/
  events : List Event
  /-- The model's own: how the next choice among several agents is made (70_reset R389, log entry 16). -/
  sched : Schedule
  deriving DecidableEq, Repr

/-- Why a step stops with a fault. -/
inductive Fault where
  /-- Raised by `step` where `FAULT` is set, nothing is left in `events`, and the clock is blocked by a due but disabled
  step: no agent can move again (60_exceptions R351, 70_reset R389). Safe: the machine stops. -/
  | stuck
  /-- Raised by the poll that completes a collection where a byte of `COL_BUF` was never written: "a model error, not a
  value" (10_state R39). No state that a run reaches raises it. Safe: the machine stops. -/
  | unwrittenByte
  deriving DecidableEq, Repr

/-- Why an instruction has no meaning. -/
inductive Refusal where
  /-- Raised by `exec` for an instruction of the table not yet modelled. Safe. -/
  | notModelled (mnemonic : String)
  /-- Raised by `step` for request bytes that are not as long as 30_encoding R113 makes them ("exactly the byte count
  rule R116 gives"); the spec says nothing of such a request. Safe. -/
  | requestDataLength
  /-- Raised by `step` for outbound bytes that match no packet row of the table; the engine sends no such bytes. Safe. -/
  | notAPacket
  deriving DecidableEq, Repr

/-- The seven bytes with nothing written (10_state R39). -/
def unwrittenBuf : Vector (Option Byte) 7 := Vector.replicate 7 none

/-- The transport at power-on: nothing has arrived, no draw is fixed, no call was made (log entries 2 to 5). -/
def Transport.initial : Transport where
  inbound := []
  openAnswers := []
  writeAnswers := []
  readSizes := []
  draws := 0
  issued := 0
  calls := []

/-- The schedule at power-on: the collector is favoured first, after a free number of choices (log entry 16). -/
def Schedule.initial : Schedule where
  favoured := .collector
  grace := Config.freeGrace 0

/-- The machine right after reset (10_state R51, 70_reset R380). -/
def State.reset : State where
  cfg := Config.hardware
  conn := .disconnected
  rdBusy := false
  colPhase := .idle
  colCount := 0
  colBuf := unwrittenBuf
  colDeadline := 0
  colWake := 0
  colOwner := .none
  now := 0
  cancelPend := false
  seqPhase := .idle
  seqWake := 0
  seqCode := 0
  seqLum := 0
  fault := none
  txLog := []
  tx := Transport.initial
  results := []
  events := []
  sched := Schedule.initial

end Sys2Proof.Machine
end

