-- ==== Sys2Proof/Machine/Ops.lean ====
section
/-! DEFINITION. The operations every meaning is built from: delivering a result (30_encoding R117), raising the sticky
fault and the reset that clears it (60_exceptions R350, 70_reset R380), the four transport calls with their draws
(60_exceptions R360 to R364), framing and checksum (40_framer R140, R142), sending (43_dispatcher R249), starting a
collection (41_collector R180) and entering a pacing wait (44_controller R297). -/

namespace Sys2Proof.Machine

/-- What a step answers. -/
abbrev Answer := Host.Outcome State Fault Refusal

/-! ### Results and faults -/

/-- Deliver one result on the result port (30_encoding R117). -/
def State.deliver (s : State) (op : Byte) (kind : ResultKind) (payload : List Byte) : State :=
  { s with results := s.results ++ [⟨kind, op, payload, s.now⟩] }

/-- `raise Fault(F)`: set `FAULT` unless it is already nonzero; no result (60_exceptions R350). -/
def State.raise (s : State) (f : FaultCode) : State :=
  match s.fault with
  | none => { s with fault := some f }
  | some _ => s

/-- While `FAULT ≠ 0` a request, a cancel or an agent changes nothing (60_exceptions R351, R353): `t` is what `s`
becomes otherwise. -/
def State.unlessFaulted (s t : State) : State :=
  match s.fault with
  | none => t
  | some _ => s

/-- Reset: every element of the engine to its value of 10_state R51, in-flight operations abandoned without a result,
no transport call (70_reset R380). The configuration stands (R382); so do the transport, which is outside the engine,
and the model's records of it, of the results and of what happens next (log entries 4 to 7, 16). -/
def resetEngine (s : State) : State :=
  { State.reset with cfg := s.cfg, tx := s.tx, results := s.results, events := s.events, sched := s.sched }

/-! ### The transport calls -/

/-- The handle in `CONN`, which every transport call uses (10_state R35). -/
def State.handle? (s : State) : Option Handle :=
  match s.conn with
  | .disconnected => none
  | .connected h => some h

/-- The draw that answers the next `TxOpen`: true for a handle, false for `SecurityError` (60_exceptions R361). -/
def State.openDraw (s : State) : Bool :=
  match s.tx.openAnswers with
  | a :: _ => a
  | [] => Config.freeOpen s.tx.draws

/-- The draw that answers the next `TxWrite` (60_exceptions R362). -/
def State.writeDraw (s : State) : Bool :=
  match s.tx.writeAnswers with
  | a :: _ => a
  | [] => Config.freeWrite s.tx.draws

/-- The draw for the next `TxRead`: how many bytes the transport is ready to return (60_exceptions R363). -/
def State.readDraw (s : State) : Nat :=
  match s.tx.readSizes with
  | n :: _ => n
  | [] => Config.freeRead s.tx.draws

/-- The bytes the next `TxRead` returns: the next bytes of the inbound stream in arrival order, at most `MAX_CHUNK`
(60_exceptions R363, 20_memory R77). -/
def State.nextChunk (s : State) : List Byte :=
  s.tx.inbound.take (min s.readDraw s.cfg.maxChunk)

/-- `TxOpen(path, baud)`: a fresh handle or `SecurityError` (60_exceptions R361). -/
def txOpen (path : List Byte) (baud : Word) (s : State) : Option Handle × State :=
  let a := if s.openDraw then some s.tx.issued else none
  (a, { s with tx := { s.tx with
    openAnswers := s.tx.openAnswers.tail
    draws := s.tx.draws + 1
    issued := if s.openDraw then s.tx.issued + 1 else s.tx.issued
    calls := s.tx.calls ++ [.opened path baud a] } })

/-- `TxWrite(p)`: the packet is accepted or rejected whole (20_memory R76, 60_exceptions R362). -/
def txWrite (p : Packet) (s : State) : Bool × State :=
  (s.writeDraw, { s with tx := { s.tx with
    writeAnswers := s.tx.writeAnswers.tail
    draws := s.tx.draws + 1
    calls := s.tx.calls ++ [.wrote s.handle? p s.writeDraw] } })

/-- `TxRead()`: the bytes returned are consumed and never returned again (20_memory R77, 60_exceptions R363). -/
def txRead (s : State) : List Byte × State :=
  (s.nextChunk, { s with tx := { s.tx with
    inbound := s.tx.inbound.drop s.nextChunk.length
    readSizes := s.tx.readSizes.tail
    draws := s.tx.draws + 1
    calls := s.tx.calls ++ [.read s.handle? s.nextChunk] } })

/-- `TxRelease(h)`: it returns nothing and cannot fail (60_exceptions R364). -/
def txRelease (h : Handle) (s : State) : State :=
  { s with tx := { s.tx with calls := s.tx.calls ++ [.released h] } }

/-- Bytes arrive in the inbound stream (20_memory R88; 30_encoding R120, DEVICE). DESIGN CHOICE, unsafe: the stream holds
any number of bytes and drops none; the spec leaves its size and its overflow open (91 N8, log entry 13). -/
def arrive (bytes : List Byte) (s : State) : State :=
  { s with tx := { s.tx with inbound := s.tx.inbound ++ bytes } }

/-! ### Checksum and framing -/

/-- The sum of the first `p` bytes, truncated to the low 8 bits (40_framer R140). -/
def checksum (b : List Byte) (p : Nat) : Byte := BitVec.ofNat 8 (byteSum (b.take p))

/-- A packet from a status, a command and parameters (40_framer R142). -/
def frame (st cmd : Byte) (params : List Byte) : Packet :=
  let n := params.length
  let p := [HEADER, BitVec.ofNat 8 (5 + n), st, cmd] ++ params
  p ++ [checksum p (4 + n)]

/-- The invariant of a packet in either direction: header, length byte, checksum (30_encoding R100, R101). -/
def packetOk (p : Packet) : Bool :=
  decide (5 ≤ p.length) && decide (p[0]? = some HEADER) && decide (p[1]?.map BitVec.toNat = some p.length) &&
  decide (p[p.length - 1]? = some (checksum p (p.length - 1)))

/-! ### Sending -/

/-- How an operation ends: the result kind and its payload (00_scope R14). -/
structure Reply where
  kind : ResultKind
  payload : List Byte := []
  deriving DecidableEq, Repr

/-- An operation's last act: its result (60_exceptions R340). -/
def answer (op : Byte) (r : Reply × State) : State := r.2.deliver op r.1.kind r.1.payload

/-- `send(p)`: hand one packet to the transport and record it (43_dispatcher R249, R251). -/
def send (p : Packet) (s : State) : Reply × State :=
  let w := txWrite p s
  let s' := { w.2 with txLog := w.2.txLog ++ [(p, w.1)] }
  if w.1 then (⟨.ok, []⟩, s') else (⟨.ioError, p⟩, s')

/-- `cmd_write(cmd, params)`: WRCMD's body for a parameter list known to fit (44_controller R280). -/
def cmdWrite (cmd : Byte) (params : List Byte) (s : State) : Reply × State :=
  match s.conn with
  | .disconnected => (⟨.notConnected, []⟩, s)
  | .connected _ => send (frame STATUS_WRITE cmd params) s

/-! ### Command codes (30_encoding R106) -/

abbrev CMD_POWER : Byte := 0x01
abbrev CMD_AUTO : Byte := 0x02
abbrev CMD_PAUSE : Byte := 0x03
abbrev CMD_MODE : Byte := 0x04
abbrev CMD_DIRECTION : Byte := 0x05
abbrev CMD_SPEED : Byte := 0x06
abbrev CMD_RGBORDER : Byte := 0x07
abbrev CMD_BRIGHTNESS : Byte := 0x08
abbrev CMD_LEDCOUNT : Byte := 0x09
abbrev CMD_FIRMWARE : Byte := 0x0A

/-! ### Collections and waits -/

/-- `collect_start(owner)` (41_collector R180). -/
def collectStart (owner : Owner) (s : State) : State :=
  { s with
    colOwner := owner
    colCount := 0
    colBuf := unwrittenBuf
    colDeadline := s.now + s.cfg.timeoutMs
    colPhase := .poll }

/-- `seq_wait(ph)`: a pending cancellation is taken here, else the pacing wait begins (44_controller R297). -/
def seqWait (ph : SeqPhase) (s : State) : State :=
  if s.cancelPend then
    ({ s with cancelPend := false, seqPhase := .idle }).deliver OP_SETCOLOR .interrupted []
  else { s with seqPhase := ph, seqWake := s.now + s.cfg.paceMs }

end Sys2Proof.Machine
end

