-- ==== Sys2Proof/Machine/Operands.lean ====
section
/-! DEFINITION. The operand forms: ranged integers as parameter bytes (30_encoding R110 to R112, 44_controller R280),
hex strings (42_quantizer R222, R223), luminance strings (44_controller R295), the default baud (44_controller R281). -/

namespace Sys2Proof.Machine

/-- An int32 operand lies in `0 .. hi`; "a negative value is out of every range" (44_controller R280). -/
def inRange (v : Word) (hi : Int) : Bool := decide (0 ≤ v.toInt) && decide (v.toInt ≤ hi)

/-- A ranged operand as one parameter byte, its unsigned value (30_encoding R110, R112). -/
def oneByte (v : Word) : List Byte := [BitVec.ofNat 8 v.toNat]

/-- The LED count as two bytes, least significant first: `[n mod 256, n div 256]` (30_encoding R111). -/
def ledBytes (v : Word) : List Byte := [BitVec.ofNat 8 (v.toNat % 256), BitVec.ofNat 8 (v.toNat / 256)]

/-- Baud 0 means `DEFAULT_BAUD` (44_controller R281). -/
def effectiveBaud (baud : Word) (s : State) : Word := if baud = 0 then s.cfg.defaultBaud else baud

/-- `is_hex` and `hv`: the value of a hex digit in either case, none for any other byte (42_quantizer R223). -/
def hexDigit (c : Byte) : Option Nat :=
  let n := c.toNat
  if 0x30 ≤ n ∧ n ≤ 0x39 then some (n - 0x30)
  else if 0x41 ≤ n ∧ n ≤ 0x46 then some (n - 0x41 + 10)
  else if 0x61 ≤ n ∧ n ≤ 0x66 then some (n - 0x61 + 10)
  else none

/-- Two hex digits as one byte, `16*hv(hi) + hv(lo)` (42_quantizer R222). -/
def hexPair (hi lo : Byte) : Option Byte :=
  match hexDigit hi, hexDigit lo with
  | some h, some l => some (BitVec.ofNat 8 (16 * h + l))
  | _, _ => none

/-- `parse_hex`: exactly six hex digits, red, green, blue (42_quantizer R222); none is a precondition violation. -/
def parseHex : List Byte → Option (Byte × Byte × Byte)
  | [r1, r0, g1, g0, b1, b0] =>
    match hexPair r1 r0, hexPair g1 g0, hexPair b1 b0 with
    | some r, some g, some b => some (r, g, b)
    | _, _, _ => none
  | _ => none

/-- A luminance operand (44_controller R295). -/
inductive Luminance where
  | off
  | level (v : Nat)
  deriving DecidableEq, Repr

/-- An ASCII decimal digit (44_controller R295). -/
def isDecimal (c : Byte) : Bool := decide (0x30 ≤ c.toNat) && decide (c.toNat ≤ 0x39)

/-- The decimal value of a digit string, read from the left (44_controller R295). -/
def decimalValue (str : List Byte) : Nat := str.foldl (fun acc c => 10 * acc + (c.toNat - 0x30)) 0

/-- The three ASCII bytes of "off" (44_controller R295). -/
abbrev OFF : List Byte := [0x6F, 0x66, 0x66]

/-- The literal "off", or `parse_lum`: one or more decimal digits of value at most 100 (44_controller R294, R295); none is
a precondition violation. -/
def parseLuminance (str : List Byte) : Option Luminance :=
  if str = OFF then some .off
  else if str.isEmpty || !str.all isDecimal then none
  else if decimalValue str ≤ BRIGHTNESS_MAX then some (.level (decimalValue str))
  else none

end Sys2Proof.Machine
end

