-- ==== Sys2Proof/Machine/Framer.lean ====
section
/-! DEFINITION. The framer's operations, pure functions of their operands (40_framer). -/

namespace Sys2Proof.Machine

/-- An operation that frames refuses more than `MAX_PARAMS` parameters before anything else (40_framer R142). -/
def framedReply (st cmd : Byte) (params : List Byte) (s : State) : Reply :=
  if s.cfg.maxParams < params.length then ⟨.preconditionViolation, []⟩ else ⟨.ok, frame st cmd params⟩

/-- Response validation: the three checks in the source's order, the first failing one reported (40_framer R146,
60_exceptions R346). -/
def validate (b : List Byte) : Reply :=
  if b.length ≠ RESP_LEN then ⟨.preconditionViolation, []⟩
  else if b[0]? ≠ some HEADER then ⟨.invalidHeader, []⟩
  else if b[1]?.map BitVec.toNat ≠ some b.length then ⟨.lengthMismatch, []⟩
  else if b[6]? ≠ some (checksum b 6) then ⟨.checksumMismatch, []⟩
  else ⟨.ok, b⟩

/-- CKSUM (40_framer R141). -/
def execCksum (p : Byte) (data : List Byte) (s : State) : Answer :=
  .next (s.unlessFaulted (answer OP_CKSUM
    (if data.length < p.toNat then ⟨.preconditionViolation, []⟩ else ⟨.ok, [checksum data p.toNat]⟩, s)))

/-- ENCF (40_framer R143). -/
def execEncf (cmd status : Byte) (params : List Byte) (s : State) : Answer :=
  .next (s.unlessFaulted (answer OP_ENCF (framedReply status cmd params s, s)))

/-- ENCW (40_framer R144). -/
def execEncw (cmd : Byte) (params : List Byte) (s : State) : Answer :=
  .next (s.unlessFaulted (answer OP_ENCW (framedReply STATUS_WRITE cmd params s, s)))

/-- ENCR (40_framer R145). -/
def execEncr (cmd : Byte) (s : State) : Answer :=
  .next (s.unlessFaulted (answer OP_ENCR (⟨.ok, frame STATUS_READ cmd []⟩, s)))

/-- DECR (40_framer R146). -/
def execDecr (data : List Byte) (s : State) : Answer :=
  .next (s.unlessFaulted (answer OP_DECR (validate data, s)))

end Sys2Proof.Machine
end

