-- ==== Sys2Proof/Machine/Dispatcher.lean ====
section
/-! DEFINITION. The dispatcher: WRCMD, RDCMD and the completion of a read transaction (43_dispatcher). -/

namespace Sys2Proof.Machine

/-- WRCMD (43_dispatcher R250). -/
def execWrcmd (cmd : Byte) (params : List Byte) (s : State) : Answer :=
  .next (s.unlessFaulted (answer OP_WRCMD
    (if s.cfg.maxParams < params.length then (⟨.preconditionViolation, []⟩, s) else cmdWrite cmd params s)))

/-- The body of RDCMD and GETFW: the read lock, the request write, and the start of the collection (43_dispatcher R252,
44_controller R293). A rejected request write ends it with `IO_ERROR` and no collection. -/
def readTransaction (op cmd : Byte) (owner : Owner) (s : State) : State :=
  if s.rdBusy then s.raise .concurrentRead
  else match s.conn with
    | .disconnected => s.deliver op .notConnected []
    | .connected _ =>
      let r := send (frame STATUS_READ cmd []) { s with rdBusy := true }
      if r.1.kind = .ok then collectStart owner r.2
      else answer op (r.1, { r.2 with rdBusy := false })

/-- RDCMD (43_dispatcher R252). -/
def execRdcmd (cmd : Byte) (s : State) : Answer :=
  .next (s.unlessFaulted (readTransaction OP_RDCMD cmd .rdcmd s))

/-- What a collection returns (41_collector R189). -/
inductive CollectEnd where
  | complete (b : List Byte)
  | timeout
  | interrupted
  deriving DecidableEq, Repr

/-- `read_complete(r)`: the read lock is released and the response, if any, validated (43_dispatcher R253). -/
def readComplete (op : Byte) (r : CollectEnd) (s : State) : State :=
  answer op (match r with
    | .complete b => validate b
    | .timeout => ⟨.timeout, []⟩
    | .interrupted => ⟨.interrupted, []⟩, { s with rdBusy := false, colOwner := .none })

end Sys2Proof.Machine
end

