-- ==== Sys2Proof/Machine/Collector.lean ====
section
/-! DEFINITION. The collector: COLLECT, the poll, the wait, the wake and the end of a collection (41_collector). -/

namespace Sys2Proof.Machine

/-- COLLECT's result: the raw outcome of the collection (41_collector R181, R188). -/
def rawComplete (r : CollectEnd) (s : State) : State :=
  answer OP_COLLECT (match r with
    | .complete b => ⟨.ok, b⟩
    | .timeout => ⟨.timeout, []⟩
    | .interrupted => ⟨.interrupted, []⟩, { s with rdBusy := false, colOwner := .none })

/-- `collect_finish(r)`: the end of a collection goes to the operation that owns it (41_collector R188). A collection
without an owner, which no run reaches, has nobody to answer (log entry 10). -/
def collectFinish (r : CollectEnd) (s : State) : State :=
  match s.colOwner with
  | .none => s
  | .collect => rawComplete r s
  | .rdcmd => readComplete OP_RDCMD r s
  | .getfw => readComplete OP_GETFW r s

/-- COLLECT (41_collector R181). -/
def execCollect (s : State) : Answer :=
  .next (s.unlessFaulted (
    if s.rdBusy then s.raise .concurrentRead
    else match s.conn with
      | .disconnected => s.deliver OP_COLLECT .notConnected []
      | .connected _ => collectStart .collect { s with rdBusy := true }))

/-- Store bytes at `COL_BUF[i]` onward (41_collector R183). -/
def storeBytes (buf : Vector (Option Byte) 7) (i : Nat) : List Byte → Vector (Option Byte) 7
  | [] => buf
  | b :: bs => storeBytes (buf.setIfInBounds i (some b)) (i + 1) bs

/-- The bytes of `COL_BUF[0..6]`, or none if one of them was never written (10_state R39). -/
def writtenBytes (buf : Vector (Option Byte) 7) : Option (List Byte) :=
  match buf[0], buf[1], buf[2], buf[3], buf[4], buf[5], buf[6] with
  | some b0, some b1, some b2, some b3, some b4, some b5, some b6 => some [b0, b1, b2, b3, b4, b5, b6]
  | _, _, _, _, _, _, _ => none

/-- `wait_enter_collector()`: a pending cancellation is taken here, else the wait begins (41_collector R186). -/
def collectorWait (s : State) : State :=
  if s.cancelPend then collectFinish .interrupted { s with cancelPend := false, colPhase := .idle }
  else { s with colWake := s.now + s.cfg.pollMs, colPhase := .wait }

/-- The reading half of `collect_poll()`: one `TxRead`, as many of its bytes as are still needed stored, the excess
discarded (41_collector R182, R183). -/
def accumulate (s : State) : State :=
  let rd := txRead s
  let kept := rd.1.take (7 - s.colCount)
  { rd.2 with colBuf := storeBytes s.colBuf s.colCount kept, colCount := s.colCount + kept.length }

/-- `collect_poll()` (41_collector R182): completion is tested before the deadline (R184, R185). -/
def collectPoll (s : State) : Answer :=
  let s1 := accumulate s
  if s1.colCount = 7 then
    match writtenBytes s1.colBuf with
    | some b => .next (collectFinish (.complete b) { s1 with colPhase := .idle })
    | none => .fault .unwrittenByte
  else if s1.now < s1.colDeadline then .next (collectorWait s1)
  else .next (collectFinish .timeout { s1 with colPhase := .idle })

/-- A poll or a wake is due at this `now` (41_collector R182, R187; 70_reset R389). -/
def collectorDue (s : State) : Bool :=
  match s.colPhase with
  | .idle => false
  | .poll => true
  | .wait => decide (s.colWake ≤ s.now)

/-- One step of the collector: the poll, or the wake that makes the next poll due (41_collector R182, R187). -/
def collectorStep (s : State) : Answer :=
  match s.colPhase with
  | .idle => .next s
  | .poll => collectPoll s
  | .wait => if s.colWake ≤ s.now then .next { s with colPhase := .poll } else .next s

end Sys2Proof.Machine
end

