-- ==== Sys2Proof/Machine/Quantizer.lean ====
section
/-! DEFINITION. The quantizer: squared distance, selection, QRGB and QHEX (42_quantizer). -/

namespace Sys2Proof.Machine

/-- The difference of two bytes over the integers, squared (42_quantizer R224). -/
def sqDiff (a b : Byte) : Int := ((a.toNat : Int) - b.toNat) * ((a.toNat : Int) - b.toNat)

/-- `d(i)`: squared Euclidean distance from a palette entry, exact (42_quantizer R224). -/
def distance (p : Palette) (r g b : Byte) (i : Fin 15) : Int :=
  sqDiff r p[i].r + sqDiff g p[i].g + sqDiff b p[i].b

/-- The indices 1 to 14, in palette order. -/
def laterEntries : List (Fin 15) := [1, 2, 3, 4, 5, 6, 7, 8, 9, 10, 11, 12, 13, 14]

/-- `closest`: first strict improvement only, a tie keeps the earlier entry (42_quantizer R225). -/
def closest (p : Palette) (r g b : Byte) : Fin 15 :=
  laterEntries.foldl (fun best i => if distance p r g b i < distance p r g b best then i else best) 0

/-- The payload of QRGB and QHEX: the entry's code and its index (42_quantizer R226, R228). -/
def colourReply (p : Palette) (rgb : Byte × Byte × Byte) : Reply :=
  let i := closest p rgb.1 rgb.2.1 rgb.2.2
  ⟨.ok, [p[i].code, BitVec.ofNat 8 i.val]⟩

/-- QRGB (42_quantizer R226). -/
def execQrgb (r g b : Byte) (s : State) : Answer :=
  .next (s.unlessFaulted (answer OP_QRGB (colourReply s.cfg.palette (r, g, b), s)))

/-- QHEX (42_quantizer R227). -/
def execQhex (str : List Byte) (s : State) : Answer :=
  .next (s.unlessFaulted (answer OP_QHEX (match parseHex str with
    | some rgb => colourReply s.cfg.palette rgb
    | none => ⟨.preconditionViolation, []⟩, s)))

end Sys2Proof.Machine
end

