-- ==== Sys2Proof/Machine/Controller.lean ====
section
/-! DEFINITION. The command layer: connection, single-command writes, GETFW, SETCOLOR and its sequencer
(44_controller). -/

namespace Sys2Proof.Machine

/-! ### Connection -/

/-- CONNECT (44_controller R281): while connected nothing is opened and path and baud are ignored. -/
def execConnect (baud : Word) (path : List Byte) (s : State) : Answer :=
  .next (s.unlessFaulted (
    match s.conn with
    | .connected _ => s.deliver OP_CONNECT .ok []
    | .disconnected =>
      let a := txOpen path (effectiveBaud baud s) s
      match a.1 with
      | none => a.2.deliver OP_CONNECT .connectError []
      | some h => ({ a.2 with conn := .connected h }).deliver OP_CONNECT .ok []))

/-- DISCONNECT (44_controller R283): best-effort power-off, its result discarded, then the release. -/
def execDisconnect (s : State) : Answer :=
  .next (s.unlessFaulted (
    if s.rdBusy || s.seqPhase != .idle then s.raise .busyDisconnect
    else match s.conn with
      | .disconnected => s.deliver OP_DISCONNECT .ok []
      | .connected h =>
        let r := send (frame STATUS_WRITE CMD_POWER s.cfg.powerOffParams) s
        ({ txRelease h r.2 with conn := .disconnected }).deliver OP_DISCONNECT .ok []))

/-! ### Single-command writes -/

/-- A write whose int32 operand is range-checked first; out of range, nothing is sent (44_controller R280). -/
def rangedWrite (op cmd : Byte) (hi : Int) (params : Word → List Byte) (v : Word) (s : State) : State :=
  if inRange v hi then answer op (cmdWrite cmd (params v) s) else s.deliver op .preconditionViolation []

/-- TURNON (44_controller R284). -/
def execTurnon (s : State) : Answer :=
  .next (s.unlessFaulted (answer OP_TURNON (cmdWrite CMD_POWER s.cfg.powerOnParams s)))

/-- TURNOFF (44_controller R285). -/
def execTurnoff (s : State) : Answer :=
  .next (s.unlessFaulted (answer OP_TURNOFF (cmdWrite CMD_POWER s.cfg.powerOffParams s)))

/-- SETMODE (44_controller R286). -/
def execSetmode (v : Word) (s : State) : Answer :=
  .next (s.unlessFaulted (rangedWrite OP_SETMODE CMD_MODE MODE_MAX oneByte v s))

/-- SETBRIGHT (44_controller R287). -/
def execSetbright (v : Word) (s : State) : Answer :=
  .next (s.unlessFaulted (rangedWrite OP_SETBRIGHT CMD_BRIGHTNESS BRIGHTNESS_MAX oneByte v s))

/-- SETSPEED (44_controller R288). -/
def execSetspeed (v : Word) (s : State) : Answer :=
  .next (s.unlessFaulted (rangedWrite OP_SETSPEED CMD_SPEED SPEED_MAX oneByte v s))

/-- SETLEDS (44_controller R292). -/
def execSetleds (v : Word) (s : State) : Answer :=
  .next (s.unlessFaulted (rangedWrite OP_SETLEDS CMD_LEDCOUNT LEDCOUNT_MAX ledBytes v s))

/-- SETAUTO: on is 0x01 (44_controller R289). -/
def execSetauto (on : Bool) (s : State) : Answer :=
  .next (s.unlessFaulted (answer OP_SETAUTO (cmdWrite CMD_AUTO [if on then 0x01 else 0x00] s)))

/-- SETPAUSE: on is 0x01 (44_controller R290). -/
def execSetpause (on : Bool) (s : State) : Answer :=
  .next (s.unlessFaulted (answer OP_SETPAUSE (cmdWrite CMD_PAUSE [if on then 0x01 else 0x00] s)))

/-- SETDIR: forward is 0x00, "inverted relative to the boolean" (44_controller R291). -/
def execSetdir (forward : Bool) (s : State) : Answer :=
  .next (s.unlessFaulted (answer OP_SETDIR (cmdWrite CMD_DIRECTION [if forward then 0x00 else 0x01] s)))

/-! ### Read -/

/-- GETFW: RDCMD's body with command 0x0A and owner GETFW (44_controller R293). -/
def execGetfw (s : State) : Answer :=
  .next (s.unlessFaulted (readTransaction OP_GETFW CMD_FIRMWARE .getfw s))

/-! ### setColor -/

/-- SETCOLOR after its checks, connected (44_controller R294): a black colour or "off" is one power-off write (R296);
else the power-on write, and, if it was accepted, the first pacing wait (R297, R299). -/
def colourSequence (rgb : Byte × Byte × Byte) (lum : Luminance) (s : State) : State :=
  let code := s.cfg.palette[closest s.cfg.palette rgb.1 rgb.2.1 rgb.2.2].code
  let off := answer OP_SETCOLOR (cmdWrite CMD_POWER s.cfg.powerOffParams s)
  match lum with
  | .off => off
  | .level v =>
    if code = s.cfg.palette[14].code then off
    else
      let r := cmdWrite CMD_POWER s.cfg.powerOnParams s
      if r.1.kind = .ok then seqWait .waitOn { r.2 with seqCode := code, seqLum := BitVec.ofNat 7 v }
      else answer OP_SETCOLOR r

/-- SETCOLOR (44_controller R294): the busy fault, then the operands, then the connection, then the sequence. -/
def execSetcolor (hex lum : List Byte) (s : State) : Answer :=
  .next (s.unlessFaulted (
    if s.seqPhase != .idle then s.raise .seqBusy
    else match parseHex hex, parseLuminance lum with
      | some rgb, some l =>
        match s.conn with
        | .disconnected => s.deliver OP_SETCOLOR .notConnected []
        | .connected _ => colourSequence rgb l s
      | _, _ => s.deliver OP_SETCOLOR .preconditionViolation []))

/-- A write of the sequence and the wait after it; a result other than OK ends the sequence (44_controller R297, R299). -/
def seqWrite (cmd : Byte) (params : List Byte) (next : SeqPhase) (s : State) : State :=
  let r := cmdWrite cmd params s
  if r.1.kind = .ok then seqWait next r.2 else answer OP_SETCOLOR (r.1, { r.2 with seqPhase := .idle })

/-- A sequencer step is due at this `now` (44_controller R297, 70_reset R389). -/
def sequencerDue (s : State) : Bool :=
  match s.seqPhase with
  | .idle => false
  | _ => decide (s.seqWake ≤ s.now)

/-- `seq_step()` (44_controller R297). -/
def sequencerStep (s : State) : State :=
  match s.seqPhase with
  | .idle => s
  | .waitOn => seqWrite CMD_MODE [s.seqCode] .waitMode s
  | .waitMode => seqWrite CMD_BRIGHTNESS [BitVec.ofNat 8 s.seqLum.toNat] .waitBright s
  | .waitBright => ({ s with seqPhase := .idle }).deliver OP_SETCOLOR .ok []

end Sys2Proof.Machine
end

