-- ==== Sys2Proof/Machine/Agents.lean ====
section
/-! DEFINITION. The agents that step by themselves (10_state R30), the clock's rule (70_reset R389), the cancel input
(60_exceptions R356), and the fair choice among agents with an enabled step (60_exceptions R348, 70_reset R389). -/

namespace Sys2Proof.Machine

/-- A tick is enabled when no step is due, or always where waits may overrun; the condition is the same after a fault
(70_reset R389). -/
def tickEnabled (s : State) : Bool := !(collectorDue s || sequencerDue s) || !s.cfg.exactWait

/-- The agent has an enabled step: the collector's and the sequencer's need `FAULT = 0` (41_collector R182, R187;
44_controller R297). -/
def enabled (a : Agent) (s : State) : Bool :=
  match a with
  | .collector => collectorDue s && s.fault.isNone
  | .sequencer => sequencerDue s && s.fault.isNone
  | .clock => tickEnabled s

/-- One step of one agent; an agent without an enabled step does nothing. -/
def agentStep (a : Agent) (s : State) : Answer :=
  if enabled a s then
    match a with
    | .collector => collectorStep s
    | .sequencer => .next (sequencerStep s)
    | .clock => .next { s with now := s.now + 1 }
  else .next s

/-- `cancel()` (60_exceptions R356): every wait in progress is aborted; a cancel that finds none is held. -/
def cancel (s : State) : State :=
  s.unlessFaulted (
    let s1 := if s.colPhase = .wait then collectFinish .interrupted { s with colPhase := .idle } else s
    let s2 := if s.seqPhase ≠ .idle then ({ s1 with seqPhase := .idle }).deliver OP_SETCOLOR .interrupted [] else s1
    if s.colPhase = .wait ∨ s.seqPhase ≠ .idle then s2 else { s2 with cancelPend := true })

/-- The engine's own agents with an enabled step. -/
def readyAgents (s : State) : List Agent := [.collector, .sequencer].filter (enabled · s)

/-- All agents with an enabled step. -/
def movableAgents (s : State) : List Agent := [.collector, .sequencer, .clock].filter (enabled · s)

/-- The order in which agents become the favoured one. -/
def Agent.after : Agent → Agent
  | .collector => .sequencer
  | .sequencer => .clock
  | .clock => .collector

/-- The schedule after one choice: the grace runs down; where it has run out the next agent is favoured, after a free
number of further choices. -/
def Schedule.next (q : Schedule) (d : Nat) : Schedule :=
  match q.grace with
  | g + 1 => { q with grace := g }
  | 0 => { favoured := q.favoured.after, grace := Config.freeGrace d }

/-- Which of several agents moves: a free value (60_exceptions R348), but the favoured one, if it is among them, where its
grace has run out (weak fairness, 70_reset R389). -/
def turnOf (agents : List Agent) (s : State) : Agent :=
  if s.sched.grace = 0 ∧ s.sched.favoured ∈ agents then s.sched.favoured
  else agents.getD (Config.freeTurn s.tx.draws % agents.length) .clock

/-- One of the agents moves. Where there is a choice, it uses up one draw and moves the schedule on; no agent whose step
stays enabled is passed over for ever (70_reset R389, log entry 16). -/
def oneOf (agents : List Agent) (s : State) : Answer :=
  match agents with
  | [a] => agentStep a s
  | _ => agentStep (turnOf agents s)
      { s with tx := { s.tx with draws := s.tx.draws + 1 }, sched := s.sched.next (s.tx.draws + 1) }

end Sys2Proof.Machine
end

