-- ==== Sys2Proof/Machine/Packets.lean ====
section
/-! DEFINITION. The packet rows of the table as instructions (log entry 8): an outbound form hands its packet to the
transport (43_dispatcher R249), under the connection (44_controller R280) and the packet invariant every packet of the
engine meets (30_encoding R101, 40_framer R148); the inbound form arrives in the inbound stream (20_memory R88). -/

namespace Sys2Proof.Machine

/-- A packet that the engine can emit: it meets the invariant of 30_encoding R101 and is a write packet (R102) or a read
request (R103). No other status byte is ever emitted (R105; 93 R-b), and no read has parameters. -/
def emitted (p : Packet) : Bool :=
  packetOk p && (p[2]? == some STATUS_WRITE || (p[2]? == some STATUS_READ && p.length == 5))

/-- Hand one outbound packet to the transport. Without a connection, or if the engine can emit no such packet, nothing is
sent: no `TxWrite` is made and `TX_LOG` does not grow. A packet is no request, so no result is delivered (log entry 8).
DESIGN CHOICE, unsafe: the read lock plays no part here. A read-request packet is sent while `RD_BUSY` is 1 without a fault,
and takes no lock while it is 0 (20_memory R82, R83 speak of operations only; log entry 18). -/
def transmit (p : Packet) (s : State) : Answer :=
  .next (s.unlessFaulted (match s.conn with
    | .disconnected => s
    | .connected _ => if emitted p then (send p s).2 else s))

/-- PKT.POWER (44_controller R284, R285). -/
def execPktPower (len : Byte) (params : List Byte) (sum : Byte) (s : State) : Answer :=
  transmit (encodePacket len STATUS_WRITE CMD_POWER params sum) s

/-- PKT.AUTO (44_controller R289). -/
def execPktAuto (on : Bool) (sum : Byte) (s : State) : Answer :=
  transmit (encodePacket 0x06 STATUS_WRITE CMD_AUTO [byteOfBool on] sum) s

/-- PKT.PAUSE (44_controller R290). -/
def execPktPause (on : Bool) (sum : Byte) (s : State) : Answer :=
  transmit (encodePacket 0x06 STATUS_WRITE CMD_PAUSE [byteOfBool on] sum) s

/-- PKT.MODE (44_controller R286, R297). -/
def execPktMode (m sum : Byte) (s : State) : Answer :=
  transmit (encodePacket 0x06 STATUS_WRITE CMD_MODE [m] sum) s

/-- PKT.DIRECTION (44_controller R291). -/
def execPktDirection (reverse : Bool) (sum : Byte) (s : State) : Answer :=
  transmit (encodePacket 0x06 STATUS_WRITE CMD_DIRECTION [byteOfBool reverse] sum) s

/-- PKT.SPEED (44_controller R288). -/
def execPktSpeed (v sum : Byte) (s : State) : Answer :=
  transmit (encodePacket 0x06 STATUS_WRITE CMD_SPEED [v] sum) s

/-- PKT.RGBORDER, as WRCMD and RDCMD send it: status WRITE with any parameters, or status READ with none (30_encoding R108,
R105). DESIGN CHOICE, safe: with any other status, or READ with parameters, the row changes nothing (log entry 14). -/
def execPktRgborder (len status : Byte) (params : List Byte) (sum : Byte) (s : State) : Answer :=
  transmit (encodePacket len status CMD_RGBORDER params sum) s

/-- PKT.BRIGHTNESS (44_controller R287). -/
def execPktBrightness (v sum : Byte) (s : State) : Answer :=
  transmit (encodePacket 0x06 STATUS_WRITE CMD_BRIGHTNESS [v] sum) s

/-- PKT.LEDCOUNT (44_controller R292). -/
def execPktLedcount (lo hi sum : Byte) (s : State) : Answer :=
  transmit (encodePacket 0x07 STATUS_WRITE CMD_LEDCOUNT [lo, hi] sum) s

/-- PKT.FWREAD (44_controller R293). -/
def execPktFwread (sum : Byte) (s : State) : Answer :=
  transmit (encodePacket 0x05 STATUS_READ CMD_FIRMWARE [] sum) s

/-- PKT.READREQ (40_framer R145, 30_encoding R103). -/
def execPktReadreq (cmd sum : Byte) (s : State) : Answer :=
  transmit (encodePacket 0x05 STATUS_READ cmd [] sum) s

/-- PKT.WRITE (40_framer R144, 30_encoding R102). -/
def execPktWrite (len cmd : Byte) (params : List Byte) (sum : Byte) (s : State) : Answer :=
  transmit (encodePacket len STATUS_WRITE cmd params sum) s

/-- PKT.RESPONSE: the seven bytes join the inbound stream as they are, valid or not; the engine checks them only when a
collection has taken them (30_encoding R104, 41_collector R196). A faulted engine does not stop the device. -/
def execPktResponse (status cmd p0 p1 sum : Byte) (s : State) : Answer :=
  .next (arrive (encodePacket 0x07 status cmd [p0, p1] sum) s)

end Sys2Proof.Machine
end

