-- ==== Sys2Proof/Machine/Flags.lean ====
section
/-! DEFINITION. The engine has no condition flags (10_state R49). What stands in their place: the STATUS word (R50), the
numbers of the phases (R37, R44), of the fault codes (60_exceptions R352) and of the result kinds (R340), and the bytes of
a result on the result port (30_encoding R117). -/

namespace Sys2Proof.Machine

/-- `COL_PHASE` in the STATUS word (10_state R37). -/
def ColPhase.toNat : ColPhase → Nat
  | .idle => 0
  | .poll => 1
  | .wait => 2

/-- `SEQ_PHASE` in the STATUS word (10_state R44). -/
def SeqPhase.toNat : SeqPhase → Nat
  | .idle => 0
  | .waitOn => 1
  | .waitMode => 2
  | .waitBright => 3

/-- `FAULT` as its 4-bit code (60_exceptions R352); 0 is none (10_state R46). -/
def faultNumber : Option FaultCode → Nat
  | none => 0
  | some .concurrentRead => 1
  | some .seqBusy => 2
  | some .busyDisconnect => 3

/-- The code of a result kind (60_exceptions R340). -/
def ResultKind.code : ResultKind → Byte
  | .ok => 0x00
  | .preconditionViolation => 0x01
  | .ioError => 0x02
  | .timeout => 0x03
  | .invalidHeader => 0x04
  | .lengthMismatch => 0x05
  | .checksumMismatch => 0x06
  | .interrupted => 0x07
  | .notConnected => 0x08
  | .connectError => 0x09
  | .illegalRequest => 0x0A

/-- The STATUS word (10_state R50): bit 0 CONNECTED, bit 1 RD_BUSY, 3:2 COL_PHASE, 6:4 COL_COUNT, 7 CANCEL_PEND,
10:8 SEQ_PHASE, 15:12 FAULT, the others 0. -/
def statusWord (s : State) : Word :=
  BitVec.ofNat 32 (s.handle?.isSome.toNat + 2 * s.rdBusy.toNat + 4 * s.colPhase.toNat + 16 * (s.colCount % 8) +
    128 * s.cancelPend.toNat + 256 * s.seqPhase.toNat + 4096 * faultNumber s.fault)

/-- A result on the result port: the 32-bit header (code, OP, payload length M, 0), least significant byte first, then
the payload (30_encoding R117). -/
def Result.bytes (r : Result) : List Byte :=
  [r.kind.code, r.op, countByte r.payload, 0x00] ++ r.payload

end Sys2Proof.Machine
end

