-- ==== Sys2Proof/Machine/Status.lean ====
section
/-! DEFINITION. RDSTAT (60_exceptions R369). -/

namespace Sys2Proof.Machine

/-- RDSTAT: the STATUS word as 4 bytes, least significant first; nothing is cleared (60_exceptions R369). -/
def execRdstat (s : State) : Answer :=
  .next (s.unlessFaulted (answer OP_RDSTAT (⟨.ok, bytesOfWord (statusWord s)⟩, s)))

end Sys2Proof.Machine
end

