-- ==== Sys2Proof/Machine/Dispatch.lean ====
section
/-! DEFINITION. Which meaning each instruction has. -/

namespace Sys2Proof.Machine

/-- An instruction's meaning. -/
def exec (i : Instr) (s : State) : Host.Outcome State Fault Refusal :=
  match i with
  | .cksum p data => Sys2Proof.Machine.execCksum p data s
  | .encf cmd status params => Sys2Proof.Machine.execEncf cmd status params s
  | .encw cmd params => Sys2Proof.Machine.execEncw cmd params s
  | .encr cmd => Sys2Proof.Machine.execEncr cmd s
  | .decr data => Sys2Proof.Machine.execDecr data s
  | .collect => Sys2Proof.Machine.execCollect s
  | .qrgb r g b => Sys2Proof.Machine.execQrgb r g b s
  | .qhex str => Sys2Proof.Machine.execQhex str s
  | .wrcmd cmd params => Sys2Proof.Machine.execWrcmd cmd params s
  | .rdcmd cmd => Sys2Proof.Machine.execRdcmd cmd s
  | .connect baud path => Sys2Proof.Machine.execConnect baud path s
  | .disconnect => Sys2Proof.Machine.execDisconnect s
  | .turnon => Sys2Proof.Machine.execTurnon s
  | .turnoff => Sys2Proof.Machine.execTurnoff s
  | .setmode v => Sys2Proof.Machine.execSetmode v s
  | .setbright v => Sys2Proof.Machine.execSetbright v s
  | .setcolor hex lum => Sys2Proof.Machine.execSetcolor hex lum s
  | .setspeed v => Sys2Proof.Machine.execSetspeed v s
  | .setauto on => Sys2Proof.Machine.execSetauto on s
  | .setpause on => Sys2Proof.Machine.execSetpause on s
  | .setdir forward => Sys2Proof.Machine.execSetdir forward s
  | .setleds v => Sys2Proof.Machine.execSetleds v s
  | .getfw => Sys2Proof.Machine.execGetfw s
  | .rdstat => Sys2Proof.Machine.execRdstat s
  | .pktPower len params sum => Sys2Proof.Machine.execPktPower len params sum s
  | .pktAuto on sum => Sys2Proof.Machine.execPktAuto on sum s
  | .pktPause on sum => Sys2Proof.Machine.execPktPause on sum s
  | .pktMode m sum => Sys2Proof.Machine.execPktMode m sum s
  | .pktDirection rev sum => Sys2Proof.Machine.execPktDirection rev sum s
  | .pktSpeed v sum => Sys2Proof.Machine.execPktSpeed v sum s
  | .pktRgborder len status params sum => Sys2Proof.Machine.execPktRgborder len status params sum s
  | .pktBrightness v sum => Sys2Proof.Machine.execPktBrightness v sum s
  | .pktLedcount lo hi sum => Sys2Proof.Machine.execPktLedcount lo hi sum s
  | .pktFwread sum => Sys2Proof.Machine.execPktFwread sum s
  | .pktReadreq cmd sum => Sys2Proof.Machine.execPktReadreq cmd sum s
  | .pktWrite len cmd params sum => Sys2Proof.Machine.execPktWrite len cmd params sum s
  | .pktResponse status cmd p0 p1 sum => Sys2Proof.Machine.execPktResponse status cmd p0 p1 sum s

end Sys2Proof.Machine
end

