-- ==== Sys2Proof/Machine/Events.lean ====
section
/-! DEFINITION. What one step does: the next event of `events`, or, where nothing is left there, one agent's move. An
instruction's bytes are decoded and run; an illegal request is answered (30_encoding R118). -/

namespace Sys2Proof.Machine

/-- Bytes that are no instruction. An illegal request changes nothing but delivers `ILLEGAL_REQUEST` with its OP
(30_encoding R118, R117). Inbound bytes that are no response still arrive (20_memory R88). Bytes outside the encodings
are refused by name; a faulted engine ignores them (60_exceptions R353). -/
def rejected (r : Reject) (p : Port) (bytes : List Byte) (s : State) : Answer :=
  match p with
  | .inbound => .next (arrive bytes s)
  | _ =>
    match r with
    | .illegal op => .next (s.unlessFaulted (s.deliver op .illegalRequest []))
    | .dataLength => if s.fault.isSome then .next s else .refused .requestDataLength
    | .notAPacket => if s.fault.isSome then .next s else .refused .notAPacket

/-- An instruction's bytes presented at a port. -/
def present (p : Port) (bytes : List Byte) (s : State) : Answer :=
  match decode p bytes with
  | .ok i => exec i s
  | .error r => rejected r p bytes s

/-- The agents that may move before `now = t` is reached, and at it only those whose step is due (30_encoding R120).
DESIGN CHOICE, unsafe: a TICK whose time is already past (t < now) takes no tick; the steps due at `now` are run, as they
are for t = now, and the directive ends (log entry 17). -/
def agentsUntil (t : Nat) (s : State) : List Agent := if t ≤ s.now then readyAgents s else movableAgents s

/-- One event, already taken off `events`. TICK stays until its time is reached and nothing more is due at it. DESIGN
CHOICE, unsafe: after a fault a due but disabled step can hold the clock before that time (60_exceptions R351, 70_reset
R389); the spec does not say how the directive ends then, and here it ends there, before its time (log entry 15). -/
def handle (e : Event) (s : State) : Answer :=
  match e with
  | .instr p bytes => present p bytes s
  | .cancel => .next (cancel s)
  | .device bytes => .next (arrive bytes s)
  | .reset => .next (resetEngine s)
  | .turn a => agentStep a s
  | .tickTo t =>
    match agentsUntil t s with
    | [] => .next s
    | agents => oneOf agents { s with events := .tickTo t :: s.events }

/-- One step. Where no event is left and no agent can move, the machine is stuck: that needs `FAULT ≠ 0`
(60_exceptions R351, 70_reset R389). -/
def stepOnce (s : State) : Answer :=
  match s.events with
  | e :: rest => handle e { s with events := rest }
  | [] =>
    match movableAgents s with
    | [] => .fault .stuck
    | agents => oneOf agents s

/-- The state in which the instruction whose bits are `w` is what happens next. -/
def placeWord (s : State) (nbits w : Nat) : State :=
  { s with events := .instr (tableBytes nbits w).1 (tableBytes nbits w).2 :: s.events }

end Sys2Proof.Machine
end

