-- ==== Sys2Proof/Safety.lean ====
section
/-! DEFINITION. What a safe state and a safe run are, and the words the claims use. -/

namespace Sys2Proof.Machine

/-! ### What a step leaves, in the claims' own terms -/

/-- The state with one more result delivered, at this `now` (30_encoding R117). -/
def State.withResult (s : State) (kind : ResultKind) (op : Byte) (payload : List Byte) : State :=
  { s with results := s.results ++ [{ kind := kind, op := op, payload := payload, time := s.now }] }

/-- The state after one packet was handed to the transport: `TX_LOG` and the call history grow by it, and one draw is
used up (43_dispatcher R249, 60_exceptions R362). -/
def State.afterWrite (s : State) (p : Packet) : State :=
  { s with
    txLog := s.txLog ++ [(p, s.writeDraw)]
    tx := { s.tx with
      writeAnswers := s.tx.writeAnswers.tail
      draws := s.tx.draws + 1
      calls := s.tx.calls ++ [.wrote s.handle? p s.writeDraw] } }

/-- A write of packet `p` as an operation's last act: `OK`, or `IO_ERROR` with the packet (43_dispatcher R249 to R251). -/
def State.writeEnds (s : State) (op : Byte) (p : Packet) : State :=
  if s.writeDraw then (s.afterWrite p).withResult .ok op [] else (s.afterWrite p).withResult .ioError op p

/-- The packet with these fields: header, length 5 + N, status, command, parameters, checksum (30_encoding R100, R101). -/
def specPacket (st cmd : Byte) (params : List Byte) : Packet :=
  [0xCA, BitVec.ofNat 8 (5 + params.length), st, cmd] ++ params ++
    [BitVec.ofNat 8 (0xCA + (5 + params.length) + st.toNat + cmd.toNat + (params.map BitVec.toNat).sum)]

/-- "for any well-formed packet, `length` equals the packet's actual byte count, and `checksum` equals the truncated sum
of bytes `[0, length-2]` inclusive" (30_encoding R101), with the header of R100. -/
def WellFormedPacket (p : Packet) : Prop :=
  p.head? = some 0xCA ∧ (p[1]?).map BitVec.toNat = some p.length ∧
    p.getLast? = some (BitVec.ofNat 8 (p.dropLast.map BitVec.toNat).sum)

/-- A write packet (status 0x00, 30_encoding R102) or a read request (status 0x01, five bytes, R103): the only packets the
engine emits (R105). -/
def WriteOrRead (p : Packet) : Prop := p[2]? = some 0x00 ∨ (p[2]? = some 0x01 ∧ p.length = 5)

/-- The verdict on a seven-byte response: the three checks in order (40_framer R146). -/
def verdict : List Byte → ResultKind
  | [b0, b1, b2, b3, b4, b5, b6] =>
    if b0 ≠ 0xCA then .invalidHeader
    else if b1 ≠ 7 then .lengthMismatch
    else if b6.toNat ≠ (b0.toNat + b1.toNat + b2.toNat + b3.toNat + b4.toNat + b5.toNat) % 256 then .checksumMismatch
    else .ok
  | _ => .preconditionViolation

/-- The bytes a verdict delivers: all seven with `OK`, none otherwise (60_exceptions R342). -/
def verdictPayload (b : List Byte) : List Byte := if verdict b = .ok then b else []

/-- The result of a collection that gathered `b`, by its owner: COLLECT's is raw (41_collector R181), a read
transaction's is validated (43_dispatcher R253). -/
def State.collected (s : State) (b : List Byte) : State :=
  match s.colOwner with
  | .none => s
  | .collect => s.withResult .ok 0x06 b
  | .rdcmd => s.withResult (verdict b) 0x0A (verdictPayload b)
  | .getfw => s.withResult (verdict b) 0x1C (verdictPayload b)

/-- The operation code of a collection's owner (10_state R52, 30_encoding R114, R115). -/
def Owner.op : Owner → Byte
  | .none => 0x00
  | .collect => 0x06
  | .rdcmd => 0x0A
  | .getfw => 0x1C

/-- The collector's and the lock's elements once a collection is over (41_collector R188). -/
def State.released (s : State) : State := { s with rdBusy := false, colOwner := .none, colPhase := .idle }

/-- The state after one `TxRead` (60_exceptions R363). -/
def State.afterRead (s : State) : State :=
  { s with tx := { s.tx with
      inbound := s.tx.inbound.drop s.nextChunk.length
      readSizes := s.tx.readSizes.tail
      draws := s.tx.draws + 1
      calls := s.tx.calls ++ [.read s.handle? s.nextChunk] } }

/-- The value of an ASCII hex digit (42_quantizer R223). -/
def HexValue (c : Byte) (v : Nat) : Prop :=
  (0x30 ≤ c.toNat ∧ c.toNat ≤ 0x39 ∧ v = c.toNat - 0x30) ∨ (0x41 ≤ c.toNat ∧ c.toNat ≤ 0x46 ∧ v = c.toNat - 55) ∨
    (0x61 ≤ c.toNat ∧ c.toNat ≤ 0x66 ∧ v = c.toNat - 87)

/-- A string of exactly six hex digits with the colour it names: red, green, blue, two digits each (42_quantizer R222). -/
def NamesColour (str : List Byte) (r g b : Byte) : Prop :=
  ∃ c1 c2 c3 c4 c5 c6 : Byte, ∃ v1 v2 v3 v4 v5 v6 : Nat, str = [c1, c2, c3, c4, c5, c6] ∧
    HexValue c1 v1 ∧ HexValue c2 v2 ∧ HexValue c3 v3 ∧ HexValue c4 v4 ∧ HexValue c5 v5 ∧ HexValue c6 v6 ∧
    r = BitVec.ofNat 8 (16 * v1 + v2) ∧ g = BitVec.ofNat 8 (16 * v3 + v4) ∧ b = BitVec.ofNat 8 (16 * v5 + v6)

/-- A 32-bit word as the four bytes of the port, least significant first (30_encoding R113, R116). -/
def leBytes (w : Word) : List Byte :=
  [w.extractLsb' 0 8, w.extractLsb' 8 8, w.extractLsb' 16 8, w.extractLsb' 24 8]

/-- The squared distance of a colour from a palette entry (42_quantizer R224). -/
def squaredDistance (p : Palette) (r g b : Byte) (i : Fin 15) : Int :=
  ((r.toNat : Int) - p[i].r.toNat) ^ 2 + ((g.toNat : Int) - p[i].g.toNat) ^ 2 + ((b.toNat : Int) - p[i].b.toNat) ^ 2

/-- `i` is the selected entry: minimal, and on a tie the earliest (42_quantizer R225). -/
def Nearest (p : Palette) (r g b : Byte) (i : Fin 15) : Prop :=
  (∀ j, squaredDistance p r g b i ≤ squaredDistance p r g b j) ∧
    ∀ j, j < i → squaredDistance p r g b i < squaredDistance p r g b j

/-- A luminance string with the brightness it names: one or more decimal digits of value at most 100
(44_controller R295). -/
def NamesBrightness (str : List Byte) (v : Nat) : Prop :=
  str ≠ [] ∧ (∀ c ∈ str, 0x30 ≤ c.toNat ∧ c.toNat ≤ 0x39) ∧
    v = Nat.ofDigits 10 (str.map fun c => c.toNat - 0x30).reverse ∧ v ≤ 100

/-- The operation codes of 30_encoding R114 and R115. -/
def operationCodes : List Byte :=
  [0x01, 0x02, 0x03, 0x04, 0x05, 0x06, 0x07, 0x08, 0x09, 0x0A, 0x20,
    0x10, 0x11, 0x12, 0x13, 0x14, 0x15, 0x16, 0x17, 0x18, 0x19, 0x1A, 0x1B, 0x1C]

/-- The header is illegal: RSV nonzero, an OP of neither list, or a "must" of the operand layouts broken
(30_encoding R118, R116). -/
def IllegalHeader (op c n rsv : Byte) : Prop :=
  rsv ≠ 0 ∨ op ∉ operationCodes ∨
  (op ∈ [(0x04 : Byte), 0x0A] ∧ n ≠ 0) ∨
  (op ∈ [(0x05 : Byte), 0x08, 0x10] ∧ c ≠ 0) ∨
  (op ∈ [(0x06 : Byte), 0x20, 0x11, 0x12, 0x13, 0x1C] ∧ (c ≠ 0 ∨ n ≠ 0)) ∨
  (op = 0x07 ∧ (c ≠ 0 ∨ n ≠ 3)) ∨
  (op ∈ [(0x14 : Byte), 0x15, 0x17, 0x1B] ∧ (c ≠ 0 ∨ n ≠ 4)) ∨
  (op ∈ [(0x18 : Byte), 0x19, 0x1A] ∧ (1 < c.toNat ∨ n ≠ 0))

/-- How many data bytes the operand layouts give a request (30_encoding R116). -/
def dataLength (op c n : Byte) : Nat :=
  if op = 0x02 then n.toNat + 1 else if op = 0x10 then 4 + n.toNat else if op = 0x16 then c.toNat + n.toNat else n.toNat

/-- The event a step takes, if any. -/
def State.nextEvent (s : State) : Option Event := s.events.head?

/-- `u` comes from `s` by `n` steps, each of which answers a next state. -/
inductive Reaches : Nat → State → State → Prop where
  | here (s : State) : Reaches 0 s s
  | there {n : Nat} {s t u : State} (h : step s = .next t) (r : Reaches n t u) : Reaches (n + 1) s u

/-! ### Invariants -/

/-- What holds of the engine's elements in every state a run reaches. -/
structure EngineInv (s : State) : Prop where
  /-- The configuration meets its conditions (70_reset R383). -/
  cfg_ok : s.cfg.ok = true
  /-- `COL_COUNT` is 0..7 (10_state R38). -/
  count_le : s.colCount ≤ 7
  /-- Exactly the bytes below `COL_COUNT` are written (10_state R39). -/
  written_iff : ∀ i : Fin 7, s.colBuf[i].isSome = true ↔ i.val < s.colCount
  /-- `RD_BUSY` is 1 exactly while a collection runs (10_state R36). -/
  busy_iff : s.rdBusy = true ↔ s.colPhase ≠ .idle
  /-- A collection in flight has an owner, and only one in flight has (10_state R52). -/
  owner_iff : s.rdBusy = true ↔ s.colOwner ≠ .none
  /-- A collection in flight still lacks a byte (41_collector R184). -/
  incomplete : s.colPhase ≠ .idle → s.colCount < 7
  /-- What is in flight has its connection (44_controller R283). -/
  connected : (s.rdBusy = true ∨ s.seqPhase ≠ .idle) → s.conn ≠ .disconnected
  /-- `SEQ_LUM` is 0..100 (10_state R45). -/
  lum_le : s.seqLum.toNat ≤ 100
  /-- The code setColor sends lies in setMode's range (44_controller R297). -/
  code_le : s.seqCode.toNat ≤ 219
  /-- No wait is in progress while a cancellation is pending (41_collector R190, R191). -/
  cancel_free : s.cancelPend = true → s.colPhase ≠ .wait ∧ s.seqPhase = .idle

/-- Every packet handed to the transport is well formed (30_encoding R101). -/
structure LogInv (s : State) : Prop where
  cfg_ok : s.cfg.ok = true
  framed : ∀ e ∈ s.txLog, WellFormedPacket e.1

/-- Every packet handed to the transport is a write packet or a read request (30_encoding R105, R108; 93 R-b). -/
structure KindInv (s : State) : Prop where
  sent : ∀ e ∈ s.txLog, WriteOrRead e.1

/-- The hardware instance's waits end on time (41_collector R192, 70_reset R389). -/
structure TimeInv (s : State) : Prop where
  exact_wait : s.cfg.exactWait = true
  timeout_ms : s.cfg.timeoutMs = 500
  poll_ms : s.cfg.pollMs = 20
  pace_ms : s.cfg.paceMs = 100
  /-- A poll is due at the start of its collection plus a multiple of 20 ms, never after the deadline. -/
  poll_time : s.colPhase = .poll → s.now ≤ s.colDeadline ∧ s.colDeadline ≤ s.now + 500 ∧ 20 ∣ s.colDeadline - s.now
  /-- A wait ends at such a time. -/
  wait_time : s.colPhase = .wait → s.now ≤ s.colWake ∧ s.colWake ≤ s.now + 20 ∧ s.colWake ≤ s.colDeadline ∧
    s.colDeadline ≤ s.colWake + 480 ∧ 20 ∣ s.colDeadline - s.colWake
  /-- A pacing wait ends at most 100 ms later. -/
  seq_time : s.seqPhase ≠ .idle → s.now ≤ s.seqWake ∧ s.seqWake ≤ s.now + 100

/-- The handle a transport call uses, if any. -/
def TxCall.via : TxCall → Option Handle
  | .opened _ _ _ => none
  | .wrote h _ _ => h
  | .read h _ => h
  | .released h => some h

/-- Handles are fresh, and none is used once it was released (60_exceptions R361, R364). -/
structure HandleInv (s : State) : Prop where
  fresh : ∀ h, s.conn = .connected h → h < s.tx.issued
  known : ∀ h, .released h ∈ s.tx.calls → h < s.tx.issued
  gone : ∀ h, .released h ∈ s.tx.calls → s.conn ≠ .connected h
  unused : ∀ before after h, s.tx.calls = before ++ .released h :: after → ∀ c ∈ after, c.via ≠ some h

end Sys2Proof.Machine
end

