-- ==== Sys2Proof/Certificates/Slice0/Obligations.lean ====
section
/-! DEFINITION. The statements for the provers, from the spec's numbered rules. Where a statement names `events`, a request,
an input or an agent's turn is the next event of State: the model's way of choosing a step (log entry 7). A packet row as an
instruction is the model's choice (log entry 8), as is which row takes which bytes (log entry 9). -/

open Sys2Proof Sys2Proof.Machine

/-! ### Encoding -/

/-- Words written out from the encodings of 30_encoding R113 to R116 and R121 (95_test_vectors K-1, K-9, F4, X-2). Which
port and row read a packet's bytes is the model's choice (log entry 9). -/
def Obligations.WrittenOutWordsDecode : Prop :=
  decode .request [0x14, 0x00, 0x04, 0x00, 0x04, 0x00, 0x00, 0x00] = .ok (.setmode 4) ∧
  decode .request [0x03, 0x09, 0x02, 0x00, 0x2C, 0x01] = .ok (.encw 0x09 [0x2C, 0x01]) ∧
  decode .request [0x10, 0x00, 0x01, 0x00, 0x80, 0x25, 0x00, 0x00, 0x2F] = .ok (.connect 9600 [0x2F]) ∧
  decode .request [0x18, 0x01, 0x00, 0x00] = .ok (.setauto true) ∧
  decode .request [0x20, 0x00, 0x00, 0x01] = .error (.illegal 0x20) ∧
  decode .outbound [0xCA, 0x07, 0x00, 0x09, 0x2C, 0x01, 0x07] = .ok (.pktLedcount 0x2C 0x01 0x07) ∧
  decode .outbound [0xCA, 0x05, 0x01, 0x0A, 0xDA] = .ok (.pktFwread 0xDA) ∧
  decode .inbound [0xCA, 0x07, 0x01, 0x0A, 0x01, 0x02, 0xDF] = .ok (.pktResponse 0x01 0x0A 0x01 0x02 0xDF)

/-- Decoding an encoded well-formed request gives it back, at every value of every operand. -/
def Obligations.RequestDecodeOfEncode : Prop :=
  ∀ i : Instr, i.wf = true → i.port = .request → decode .request i.encode = .ok i

/-- Decoding an encoded well-formed packet, on the way it travels, gives it back (rows: log entry 9). -/
def Obligations.PacketDecodeOfEncode : Prop :=
  ∀ i : Instr, i.wf = true → i.port ≠ .request → decode i.port i.encode = .ok i

/-- What decodes is the encoding of what it decodes to, on that port; a decoded request is well formed. -/
def Obligations.DecodedBytesAreTheEncoding : Prop :=
  ∀ (p : Port) (bytes : List Byte) (i : Instr), decode p bytes = .ok i →
    i.encode = bytes ∧ i.port = p ∧ (p = .request → i.wf = true)

/-- Every legal header with exactly its data decodes; 30_encoding R113, R116, R118. -/
def Obligations.LegalRequestsDecode : Prop :=
  ∀ (op c n : Byte) (data : List Byte), ¬ IllegalHeader op c n 0 → data.length = dataLength op c n →
    ∃ i, decode .request (op :: c :: n :: 0 :: data) = .ok i

/-- An illegal request changes no state, calls no transport function and delivers `ILLEGAL_REQUEST` with M = 0
(30_encoding R118). -/
def Obligations.IllegalRequestIsOnlyAnswered : Prop :=
  ∀ (s : State) (op c n rsv : Byte) (data : List Byte) (rest : List Event), s.fault = none →
    s.events = .instr .request (op :: c :: n :: rsv :: data) :: rest → IllegalHeader op c n rsv →
    step s = .next (({ s with events := rest }).withResult .illegalRequest op [])

/-- A step whose next event is an instruction's bytes takes the event off and runs the instruction they decode to. That
events are a list in State is the model's choice (log entry 7). -/
def Obligations.StepRunsTheDecodedInstruction : Prop :=
  ∀ (s : State) (p : Port) (bytes : List Byte) (i : Instr) (rest : List Event),
    s.events = .instr p bytes :: rest → decode p bytes = .ok i → step s = exec i { s with events := rest }

/-! ### Framer -/

/-- CKSUM (40_framer R140, R141). -/
def Obligations.CksumSumsThePrefix : Prop :=
  ∀ (s : State) (p : Byte) (data : List Byte),
    (Instr.cksum p data).encode = [0x01, p, BitVec.ofNat 8 data.length, 0x00] ++ data ∧
    (s.fault = none → exec (.cksum p data) s = .next (
      if data.length < p.toNat then s.withResult .preconditionViolation 0x01 []
      else s.withResult .ok 0x01 [BitVec.ofNat 8 ((data.take p.toNat).map BitVec.toNat).sum]))

/-- ENCF, ENCW and ENCR (40_framer R142 to R145). -/
def Obligations.FramingOperationsDeliverThePacket : Prop :=
  ∀ (s : State) (st cmd : Byte) (params : List Byte),
    (Instr.encf cmd st params).encode = [0x02, cmd, BitVec.ofNat 8 params.length, 0x00, st] ++ params ∧
    (Instr.encw cmd params).encode = [0x03, cmd, BitVec.ofNat 8 params.length, 0x00] ++ params ∧
    (Instr.encr cmd).encode = [0x04, cmd, 0x00, 0x00] ∧
    (s.fault = none →
      exec (.encf cmd st params) s = .next (
        if params.length ≤ s.cfg.maxParams then s.withResult .ok 0x02 (specPacket st cmd params)
        else s.withResult .preconditionViolation 0x02 []) ∧
      exec (.encw cmd params) s = .next (
        if params.length ≤ s.cfg.maxParams then s.withResult .ok 0x03 (specPacket 0x00 cmd params)
        else s.withResult .preconditionViolation 0x03 []) ∧
      exec (.encr cmd) s = .next (s.withResult .ok 0x04
        [0xCA, 0x05, 0x01, cmd, BitVec.ofNat 8 (0xD0 + cmd.toNat)]))

/-- A framed packet meets the invariant of 30_encoding R101. -/
def Obligations.FramedPacketsAreWellFormed : Prop :=
  ∀ (st cmd : Byte) (params : List Byte), params.length ≤ 250 →
    WellFormedPacket (frame st cmd params) ∧ (frame st cmd params).length = 5 + params.length ∧
      packetOk (frame st cmd params) = true

/-- DECR (40_framer R146). -/
def Obligations.DecrReportsTheFirstFailingCheck : Prop :=
  ∀ (s : State) (b : List Byte),
    (Instr.decr b).encode = [0x05, 0x00, BitVec.ofNat 8 b.length, 0x00] ++ b ∧
    (s.fault = none → exec (.decr b) s = .next (
      if b.length = 7 then s.withResult (verdict b) 0x05 (verdictPayload b)
      else s.withResult .preconditionViolation 0x05 []))

/-- Round trip and single corrupted bytes of a framed response, as DECR answers them. 40_framer R150, which the spec marks
as derived. -/
def Obligations.CorruptedByteGivesItsOwnError : Prop :=
  ∀ (s : State) (st cmd p0 p1 x : Byte) (i : Fin 7), s.fault = none →
    frame st cmd [p0, p1] = specPacket st cmd [p0, p1] ∧ (frame st cmd [p0, p1]).length = 7 ∧
    exec (.decr (frame st cmd [p0, p1])) s = .next (s.withResult .ok 0x05 (frame st cmd [p0, p1])) ∧
    ((frame st cmd [p0, p1])[i.val]? ≠ some x →
      exec (.decr ((frame st cmd [p0, p1]).set i.val x)) s = .next (s.withResult
        (if i = 0 then .invalidHeader else if i = 1 then .lengthMismatch else .checksumMismatch) 0x05 []))

/-! ### Collector -/

/-- COLLECT (41_collector R180, R181). -/
def Obligations.CollectStartsACollection : Prop :=
  ∀ s : State, Instr.collect.encode = [0x06, 0x00, 0x00, 0x00] ∧
    (s.fault = none → s.rdBusy = true → exec .collect s = .next { s with fault := some .concurrentRead }) ∧
    (s.fault = none → s.rdBusy = false → s.conn = .disconnected →
      exec .collect s = .next (s.withResult .notConnected 0x06 [])) ∧
    (∀ h, s.fault = none → s.rdBusy = false → s.conn = .connected h → exec .collect s = .next { s with
      rdBusy := true, colOwner := .collect, colCount := 0, colBuf := #v[none, none, none, none, none, none, none]
      colDeadline := s.now + s.cfg.timeoutMs, colPhase := .poll })

/-- TxRead: the chunk a poll reads is the next bytes of the inbound stream in arrival order, at most `MAX_CHUNK`, as many
of them as the draw allows; the poll consumes exactly them (20_memory R77, 60_exceptions R363). How a draw is fixed
beforehand is the model's choice (log entry 2), as are turns (log entry 7). -/
def Obligations.TxReadTakesTheNextBytes : Prop :=
  ∀ s : State,
    s.nextChunk <+: s.tx.inbound ∧ s.nextChunk.length ≤ s.cfg.maxChunk ∧
    (∀ (k : Nat) (more : List Nat), s.tx.readSizes = k :: more →
      s.nextChunk.length = min (min k s.cfg.maxChunk) s.tx.inbound.length) ∧
    (∀ rest : List Event, EngineInv s → s.events = .turn .collector :: rest → s.fault = none → s.colPhase = .poll →
      ∃ t, step s = .next t ∧ s.tx.inbound = s.nextChunk ++ t.tx.inbound ∧
        t.tx.calls = s.tx.calls ++ [.read s.handle? s.nextChunk])

/-- A poll that completes the buffer ends the collection with its seven bytes, whatever `now` is (41_collector R182 to
R184, R188; 43_dispatcher R253). The collector's turn is an event (log entry 7). -/
def Obligations.PollThatCompletesDelivers : Prop :=
  ∀ (s : State) (rest : List Event), s.events = .turn .collector :: rest → s.fault = none → s.colPhase = .poll →
    s.colOwner ≠ .none → (∀ i : Fin 7, s.colBuf[i].isSome = true ↔ i.val < s.colCount) →
    s.colCount ≤ 7 → 7 ≤ s.colCount + s.nextChunk.length →
    ∃ (b : List Byte) (buf : Vector (Option Byte) 7), b.length = 7 ∧
      (∀ i : Fin 7, b[i.val]? = if i.val < s.colCount then s.colBuf[i] else s.nextChunk[i.val - s.colCount]?) ∧
      (∀ i : Fin 7, buf[i] = b[i.val]?) ∧
      step s = .next { (({ s with events := rest }).afterRead.collected b).released with colCount := 7, colBuf := buf }

/-- A poll that leaves the buffer short before the deadline stores what it read and enters the wait: a pending
cancellation ends the collection there, else the next wake is set (41_collector R182, R183, R186; turns: log entry 7). -/
def Obligations.ShortPollWaits : Prop :=
  ∀ (s : State) (rest : List Event), s.events = .turn .collector :: rest → s.fault = none → s.colPhase = .poll →
    s.colOwner ≠ .none → s.colCount + s.nextChunk.length < 7 → s.now < s.colDeadline →
    ∃ buf : Vector (Option Byte) 7,
      (∀ i : Fin 7, buf[i] = if s.colCount ≤ i.val ∧ i.val < s.colCount + s.nextChunk.length
        then s.nextChunk[i.val - s.colCount]? else s.colBuf[i]) ∧
      (s.cancelPend = false → step s = .next { ({ s with events := rest }).afterRead with
        colBuf := buf, colCount := s.colCount + s.nextChunk.length, colPhase := .wait
        colWake := s.now + s.cfg.pollMs }) ∧
      (s.cancelPend = true → step s = .next {
        ((({ s with events := rest }).afterRead).withResult .interrupted s.colOwner.op []).released with
          colBuf := buf, colCount := s.colCount + s.nextChunk.length, cancelPend := false })

/-- A short poll at or after the deadline stores what it read and ends the collection with `TIMEOUT`; no byte is delivered
(41_collector R183, R185; turns: log entry 7). -/
def Obligations.ShortPollTimesOut : Prop :=
  ∀ (s : State) (rest : List Event), s.events = .turn .collector :: rest → s.fault = none → s.colPhase = .poll →
    s.colOwner ≠ .none → s.colCount + s.nextChunk.length < 7 → s.colDeadline ≤ s.now →
    ∃ buf : Vector (Option Byte) 7,
      (∀ i : Fin 7, buf[i] = if s.colCount ≤ i.val ∧ i.val < s.colCount + s.nextChunk.length
        then s.nextChunk[i.val - s.colCount]? else s.colBuf[i]) ∧
      step s = .next {
        ((({ s with events := rest }).afterRead).withResult .timeout s.colOwner.op []).released with
          colBuf := buf, colCount := s.colCount + s.nextChunk.length }

/-- The wake (41_collector R187): at or after `COL_WAKE` the next poll is due; before it, or in a phase without a step,
the collector's turn changes nothing (turns: log entry 7). -/
def Obligations.WakeMakesAPollDue : Prop :=
  ∀ (s : State) (rest : List Event), s.events = .turn .collector :: rest → s.fault = none →
    (s.colPhase = .wait → step s = .next (
      if s.colWake ≤ s.now then { s with events := rest, colPhase := .poll } else { s with events := rest })) ∧
    (s.colPhase = .idle → step s = .next { s with events := rest })

/-! ### Quantizer -/

/-- QRGB (42_quantizer R224 to R226). -/
def Obligations.QrgbSelectsTheNearestEntry : Prop :=
  ∀ (s : State) (r g b : Byte), (Instr.qrgb r g b).encode = [0x07, 0x00, 0x03, 0x00, r, g, b] ∧
    (s.fault = none → ∃ i : Fin 15, Nearest s.cfg.palette r g b i ∧
      exec (.qrgb r g b) s = .next (s.withResult .ok 0x07 [s.cfg.palette[i].code, BitVec.ofNat 8 i.val]))

/-- QHEX: six hex digits are quantized as the colour they name, any other string is refused (42_quantizer R222, R223,
R227). -/
def Obligations.QhexReadsSixDigits : Prop :=
  ∀ (s : State) (str : List Byte),
    (Instr.qhex str).encode = [0x08, 0x00, BitVec.ofNat 8 str.length, 0x00] ++ str ∧
    (∀ r g b : Byte, s.fault = none → NamesColour str r g b → ∃ i : Fin 15, Nearest s.cfg.palette r g b i ∧
      exec (.qhex str) s = .next (s.withResult .ok 0x08 [s.cfg.palette[i].code, BitVec.ofNat 8 i.val])) ∧
    (s.fault = none → (∀ r g b, ¬ NamesColour str r g b) →
      exec (.qhex str) s = .next (s.withResult .preconditionViolation 0x08 []))

/-- The source's three examples hold for every palette meeting K1 to K6 (42_quantizer R221). -/
def Obligations.SourceColoursHoldForEveryPalette : Prop :=
  ∀ s : State, s.fault = none → s.cfg.palette.ok = true →
    exec (.qhex [0x38, 0x30, 0x30, 0x30, 0x30, 0x30]) s = .next (s.withResult .ok 0x08 [0x00, 0x00]) ∧
    exec (.qhex [0x30, 0x30, 0x30, 0x30, 0x30, 0x30]) s = .next (s.withResult .ok 0x08 [0x0F, 0x0E]) ∧
    exec (.qhex [0x37, 0x46, 0x30, 0x30, 0x30, 0x30]) s = .next (s.withResult .ok 0x08 [0x00, 0x00])

/-! ### Dispatcher -/

/-- WRCMD (43_dispatcher R249 to R251). -/
def Obligations.WrcmdSendsOnePacket : Prop :=
  ∀ (s : State) (cmd : Byte) (params : List Byte),
    (Instr.wrcmd cmd params).encode = [0x09, cmd, BitVec.ofNat 8 params.length, 0x00] ++ params ∧
    (s.fault = none → s.cfg.maxParams < params.length →
      exec (.wrcmd cmd params) s = .next (s.withResult .preconditionViolation 0x09 [])) ∧
    (s.fault = none → params.length ≤ s.cfg.maxParams → s.conn = .disconnected →
      exec (.wrcmd cmd params) s = .next (s.withResult .notConnected 0x09 [])) ∧
    (∀ h, s.fault = none → params.length ≤ s.cfg.maxParams → s.conn = .connected h →
      exec (.wrcmd cmd params) s = .next (s.writeEnds 0x09 (specPacket 0x00 cmd params)))

/-- RDCMD and GETFW (43_dispatcher R252, 44_controller R293, 41_collector R180). -/
def Obligations.ReadRequestStartsACollection : Prop :=
  ∀ (s : State) (cmd : Byte),
    (Instr.rdcmd cmd).encode = [0x0A, cmd, 0x00, 0x00] ∧ Instr.getfw.encode = [0x1C, 0x00, 0x00, 0x00] ∧
    (s.fault = none → s.rdBusy = true →
      exec (.rdcmd cmd) s = .next { s with fault := some .concurrentRead } ∧
      exec .getfw s = .next { s with fault := some .concurrentRead }) ∧
    (s.fault = none → s.rdBusy = false → s.conn = .disconnected →
      exec (.rdcmd cmd) s = .next (s.withResult .notConnected 0x0A []) ∧
      exec .getfw s = .next (s.withResult .notConnected 0x1C [])) ∧
    (∀ h, s.fault = none → s.rdBusy = false → s.conn = .connected h → s.writeDraw = false →
      exec (.rdcmd cmd) s = .next (
        (s.afterWrite (specPacket 0x01 cmd [])).withResult .ioError 0x0A (specPacket 0x01 cmd [])) ∧
      exec .getfw s = .next (
        (s.afterWrite [0xCA, 0x05, 0x01, 0x0A, 0xDA]).withResult .ioError 0x1C [0xCA, 0x05, 0x01, 0x0A, 0xDA])) ∧
    (∀ h, s.fault = none → s.rdBusy = false → s.conn = .connected h → s.writeDraw = true →
      exec (.rdcmd cmd) s = .next { s.afterWrite (specPacket 0x01 cmd []) with
        rdBusy := true, colOwner := .rdcmd, colCount := 0, colBuf := #v[none, none, none, none, none, none, none]
        colDeadline := s.now + s.cfg.timeoutMs, colPhase := .poll } ∧
      exec .getfw s = .next { s.afterWrite [0xCA, 0x05, 0x01, 0x0A, 0xDA] with
        rdBusy := true, colOwner := .getfw, colCount := 0, colBuf := #v[none, none, none, none, none, none, none]
        colDeadline := s.now + s.cfg.timeoutMs, colPhase := .poll })

/-! ### Command layer -/

/-- CONNECT (44_controller R281). That the fresh handle is the number of handles answered before it is the model's
choice (log entry 3). -/
def Obligations.ConnectOpensOnce : Prop :=
  ∀ (s : State) (baud : Word) (path : List Byte),
    (Instr.connect baud path).encode = [0x10, 0x00, BitVec.ofNat 8 path.length, 0x00] ++ leBytes baud ++ path ∧
    (∀ h, s.fault = none → s.conn = .connected h →
      exec (.connect baud path) s = .next (s.withResult .ok 0x10 [])) ∧
    (s.fault = none → s.conn = .disconnected → s.openDraw = false →
      exec (.connect baud path) s = .next (({ s with tx := { s.tx with
        openAnswers := s.tx.openAnswers.tail, draws := s.tx.draws + 1
        calls := s.tx.calls ++ [TxCall.opened path (if baud = 0 then s.cfg.defaultBaud else baud) none] } }).withResult
          .connectError 0x10 [])) ∧
    (s.fault = none → s.conn = .disconnected → s.openDraw = true →
      exec (.connect baud path) s = .next (({ s with
        conn := .connected s.tx.issued
        tx := { s.tx with
          openAnswers := s.tx.openAnswers.tail, draws := s.tx.draws + 1, issued := s.tx.issued + 1
          calls := s.tx.calls ++
            [TxCall.opened path (if baud = 0 then s.cfg.defaultBaud else baud) (some s.tx.issued)] } }).withResult
              .ok 0x10 []))

/-- DISCONNECT (44_controller R283): the power-off write's answer does not matter. -/
def Obligations.DisconnectAlwaysReleases : Prop :=
  ∀ s : State, Instr.disconnect.encode = [0x11, 0x00, 0x00, 0x00] ∧
    (s.fault = none → (s.rdBusy = true ∨ s.seqPhase ≠ .idle) →
      exec .disconnect s = .next { s with fault := some .busyDisconnect }) ∧
    (s.fault = none → s.rdBusy = false → s.seqPhase = .idle → s.conn = .disconnected →
      exec .disconnect s = .next (s.withResult .ok 0x11 [])) ∧
    (∀ h, s.fault = none → s.rdBusy = false → s.seqPhase = .idle → s.conn = .connected h →
      exec .disconnect s = .next (({ s.afterWrite (specPacket 0x00 0x01 s.cfg.powerOffParams) with
        conn := .disconnected
        tx := { (s.afterWrite (specPacket 0x00 0x01 s.cfg.powerOffParams)).tx with
          calls := (s.afterWrite (specPacket 0x00 0x01 s.cfg.powerOffParams)).tx.calls ++ [TxCall.released h] } }).withResult
            .ok 0x11 []))

/-- TURNON, TURNOFF, SETAUTO, SETPAUSE and SETDIR (44_controller R284, R285, R289 to R291). -/
def Obligations.PlainWritesSendTheirPacket : Prop :=
  ∀ (s : State) (on : Bool),
    (Instr.turnon.encode = [0x12, 0x00, 0x00, 0x00] ∧ Instr.turnoff.encode = [0x13, 0x00, 0x00, 0x00] ∧
      (Instr.setauto on).encode = [0x18, if on then 0x01 else 0x00, 0x00, 0x00] ∧
      (Instr.setpause on).encode = [0x19, if on then 0x01 else 0x00, 0x00, 0x00] ∧
      (Instr.setdir on).encode = [0x1A, if on then 0x01 else 0x00, 0x00, 0x00]) ∧
    (s.fault = none → s.conn = .disconnected →
      exec .turnon s = .next (s.withResult .notConnected 0x12 []) ∧
      exec .turnoff s = .next (s.withResult .notConnected 0x13 []) ∧
      exec (.setauto on) s = .next (s.withResult .notConnected 0x18 []) ∧
      exec (.setpause on) s = .next (s.withResult .notConnected 0x19 []) ∧
      exec (.setdir on) s = .next (s.withResult .notConnected 0x1A [])) ∧
    (∀ h, s.fault = none → s.conn = .connected h →
      exec .turnon s = .next (s.writeEnds 0x12 (specPacket 0x00 0x01 s.cfg.powerOnParams)) ∧
      exec .turnoff s = .next (s.writeEnds 0x13 (specPacket 0x00 0x01 s.cfg.powerOffParams)) ∧
      exec (.setauto on) s = .next (s.writeEnds 0x18
        (if on then [0xCA, 0x06, 0x00, 0x02, 0x01, 0xD3] else [0xCA, 0x06, 0x00, 0x02, 0x00, 0xD2])) ∧
      exec (.setpause on) s = .next (s.writeEnds 0x19
        (if on then [0xCA, 0x06, 0x00, 0x03, 0x01, 0xD4] else [0xCA, 0x06, 0x00, 0x03, 0x00, 0xD3])) ∧
      exec (.setdir on) s = .next (s.writeEnds 0x1A
        (if on then [0xCA, 0x06, 0x00, 0x05, 0x00, 0xD5] else [0xCA, 0x06, 0x00, 0x05, 0x01, 0xD6])))

/-- SETMODE, SETBRIGHT, SETSPEED and SETLEDS (44_controller R286 to R288, R292; 30_encoding R111). The range check comes
before the connection (44_controller R280). -/
def Obligations.RangedWritesCheckThenSend : Prop :=
  ∀ (s : State) (v : Word),
    ((Instr.setmode v).encode = [0x14, 0x00, 0x04, 0x00] ++ leBytes v ∧
      (Instr.setbright v).encode = [0x15, 0x00, 0x04, 0x00] ++ leBytes v ∧
      (Instr.setspeed v).encode = [0x17, 0x00, 0x04, 0x00] ++ leBytes v ∧
      (Instr.setleds v).encode = [0x1B, 0x00, 0x04, 0x00] ++ leBytes v) ∧
    (s.fault = none →
      (¬ (0 ≤ v.toInt ∧ v.toInt ≤ 219) → exec (.setmode v) s = .next (s.withResult .preconditionViolation 0x14 [])) ∧
      (¬ (0 ≤ v.toInt ∧ v.toInt ≤ 100) → exec (.setbright v) s = .next (s.withResult .preconditionViolation 0x15 [])) ∧
      (¬ (0 ≤ v.toInt ∧ v.toInt ≤ 255) → exec (.setspeed v) s = .next (s.withResult .preconditionViolation 0x17 [])) ∧
      (¬ (0 ≤ v.toInt ∧ v.toInt ≤ 2048) → exec (.setleds v) s = .next (s.withResult .preconditionViolation 0x1B []))) ∧
    (s.fault = none → s.conn = .disconnected →
      ((0 ≤ v.toInt ∧ v.toInt ≤ 219) → exec (.setmode v) s = .next (s.withResult .notConnected 0x14 [])) ∧
      ((0 ≤ v.toInt ∧ v.toInt ≤ 100) → exec (.setbright v) s = .next (s.withResult .notConnected 0x15 [])) ∧
      ((0 ≤ v.toInt ∧ v.toInt ≤ 255) → exec (.setspeed v) s = .next (s.withResult .notConnected 0x17 [])) ∧
      ((0 ≤ v.toInt ∧ v.toInt ≤ 2048) → exec (.setleds v) s = .next (s.withResult .notConnected 0x1B []))) ∧
    (∀ h, s.fault = none → s.conn = .connected h →
      ((0 ≤ v.toInt ∧ v.toInt ≤ 219) →
        exec (.setmode v) s = .next (s.writeEnds 0x14 (specPacket 0x00 0x04 [BitVec.ofInt 8 v.toInt]))) ∧
      ((0 ≤ v.toInt ∧ v.toInt ≤ 100) →
        exec (.setbright v) s = .next (s.writeEnds 0x15 (specPacket 0x00 0x08 [BitVec.ofInt 8 v.toInt]))) ∧
      ((0 ≤ v.toInt ∧ v.toInt ≤ 255) →
        exec (.setspeed v) s = .next (s.writeEnds 0x17 (specPacket 0x00 0x06 [BitVec.ofInt 8 v.toInt]))) ∧
      ((0 ≤ v.toInt ∧ v.toInt ≤ 2048) →
        exec (.setleds v) s = .next (s.writeEnds 0x1B
          (specPacket 0x00 0x09 [BitVec.ofInt 8 (v.toInt % 256), BitVec.ofInt 8 (v.toInt / 256)]))))

/-- SETCOLOR's checks, in order, each with nothing sent: the busy fault, a string that is no colour, a luminance that is
neither "off" nor a brightness, no connection (44_controller R294, R295, R298). -/
def Obligations.SetcolorChecksBeforeSending : Prop :=
  ∀ (s : State) (hex lum : List Byte),
    (Instr.setcolor hex lum).encode = [0x16, BitVec.ofNat 8 hex.length, BitVec.ofNat 8 lum.length, 0x00] ++ hex ++ lum ∧
    (s.fault = none → s.seqPhase ≠ .idle → exec (.setcolor hex lum) s = .next { s with fault := some .seqBusy }) ∧
    (s.fault = none → s.seqPhase = .idle → (∀ r g b, ¬ NamesColour hex r g b) →
      exec (.setcolor hex lum) s = .next (s.withResult .preconditionViolation 0x16 [])) ∧
    (s.fault = none → s.seqPhase = .idle → lum ≠ [0x6F, 0x66, 0x66] → (∀ v, ¬ NamesBrightness lum v) →
      exec (.setcolor hex lum) s = .next (s.withResult .preconditionViolation 0x16 [])) ∧
    (∀ r g b : Byte, s.fault = none → s.seqPhase = .idle → s.conn = .disconnected → NamesColour hex r g b →
      (lum = [0x6F, 0x66, 0x66] ∨ ∃ v, NamesBrightness lum v) →
      exec (.setcolor hex lum) s = .next (s.withResult .notConnected 0x16 []))

/-- SETCOLOR's off path: a colour whose code is black's, or luminance "off", is one power-off write whose result is
delivered at once (44_controller R296). -/
def Obligations.SetcolorOffPathSendsOnlyPowerOff : Prop :=
  ∀ (s : State) (hex lum : List Byte) (r g b : Byte) (i : Fin 15) (h : Handle), s.fault = none → s.seqPhase = .idle →
    s.conn = .connected h → NamesColour hex r g b → Nearest s.cfg.palette r g b i →
    (lum = [0x6F, 0x66, 0x66] ∨ ((∃ v, NamesBrightness lum v) ∧ s.cfg.palette[i].code = s.cfg.palette[14].code)) →
    exec (.setcolor hex lum) s = .next (s.writeEnds 0x16 (specPacket 0x00 0x01 s.cfg.powerOffParams))

/-- SETCOLOR's on path: the power-on write, then the sequencer's steps, each write before its wait; a rejected write or a
cancellation pending at a wait's entry ends the sequence with its result. Before `SEQ_WAKE`, or in IDLE, the sequencer's
turn changes nothing (44_controller R294, R297, R299; turns: log entry 7). -/
def Obligations.SetcolorPacesItsWrites : Prop :=
  ∀ s : State,
    (∀ (hex lum : List Byte) (r g b : Byte) (i : Fin 15) (h : Handle) (v : Nat), s.fault = none →
      s.seqPhase = .idle → s.conn = .connected h → NamesColour hex r g b → Nearest s.cfg.palette r g b i →
      NamesBrightness lum v → s.cfg.palette[i].code ≠ s.cfg.palette[14].code →
      (s.writeDraw = false → exec (.setcolor hex lum) s = .next (
        (s.afterWrite (specPacket 0x00 0x01 s.cfg.powerOnParams)).withResult .ioError 0x16
          (specPacket 0x00 0x01 s.cfg.powerOnParams))) ∧
      (s.writeDraw = true → s.cancelPend = false → exec (.setcolor hex lum) s = .next {
        s.afterWrite (specPacket 0x00 0x01 s.cfg.powerOnParams) with
          seqCode := s.cfg.palette[i].code, seqLum := BitVec.ofNat 7 v, seqPhase := .waitOn
          seqWake := s.now + s.cfg.paceMs }) ∧
      (s.writeDraw = true → s.cancelPend = true → exec (.setcolor hex lum) s = .next (
        ({ s.afterWrite (specPacket 0x00 0x01 s.cfg.powerOnParams) with
          seqCode := s.cfg.palette[i].code, seqLum := BitVec.ofNat 7 v, cancelPend := false }).withResult
            .interrupted 0x16 []))) ∧
    (∀ (rest : List Event) (h : Handle), s.events = .turn .sequencer :: rest → s.fault = none →
      s.conn = .connected h → s.seqWake ≤ s.now →
      (s.seqPhase = .waitOn → step s = .next (
        if s.writeDraw = false then ({ ({ s with events := rest }).afterWrite (specPacket 0x00 0x04 [s.seqCode]) with
          seqPhase := .idle }).withResult .ioError 0x16 (specPacket 0x00 0x04 [s.seqCode])
        else if s.cancelPend then ({ ({ s with events := rest }).afterWrite (specPacket 0x00 0x04 [s.seqCode]) with
          seqPhase := .idle, cancelPend := false }).withResult .interrupted 0x16 []
        else { ({ s with events := rest }).afterWrite (specPacket 0x00 0x04 [s.seqCode]) with
          seqPhase := .waitMode, seqWake := s.now + s.cfg.paceMs })) ∧
      (s.seqPhase = .waitMode → step s = .next (
        if s.writeDraw = false then
          ({ ({ s with events := rest }).afterWrite (specPacket 0x00 0x08 [s.seqLum.setWidth 8]) with
            seqPhase := .idle }).withResult .ioError 0x16 (specPacket 0x00 0x08 [s.seqLum.setWidth 8])
        else if s.cancelPend then
          ({ ({ s with events := rest }).afterWrite (specPacket 0x00 0x08 [s.seqLum.setWidth 8]) with
            seqPhase := .idle, cancelPend := false }).withResult .interrupted 0x16 []
        else { ({ s with events := rest }).afterWrite (specPacket 0x00 0x08 [s.seqLum.setWidth 8]) with
          seqPhase := .waitBright, seqWake := s.now + s.cfg.paceMs }))) ∧
    (∀ rest : List Event, s.events = .turn .sequencer :: rest → s.fault = none → s.seqWake ≤ s.now →
      s.seqPhase = .waitBright → step s = .next (({ s with events := rest, seqPhase := .idle }).withResult .ok 0x16 [])) ∧
    (∀ rest : List Event, s.events = .turn .sequencer :: rest → s.fault = none → s.conn = .disconnected →
      s.seqWake ≤ s.now → s.seqPhase = .waitOn ∨ s.seqPhase = .waitMode →
      step s = .next (({ s with events := rest, seqPhase := .idle }).withResult .notConnected 0x16 [])) ∧
    (∀ rest : List Event, s.events = .turn .sequencer :: rest → s.fault = none →
      (s.seqPhase = .idle ∨ s.now < s.seqWake) → step s = .next { s with events := rest })

/-- A whole paced setColor left alone (44_controller R301, which the spec marks as derived): power-on, mode and
brightness in that order, and `OK` 300 ms after the request. The 303 steps are 300 ticks and the
sequencer's three steps. -/
def Obligations.SetcolorRunsItsWholeSequence : Prop :=
  ∀ (s : State) (hex lum : List Byte) (r g b : Byte) (i : Fin 15) (h : Handle) (v : Nat) (more : List Bool),
    s.fault = none → s.cfg.exactWait = true → s.cfg.paceMs = 100 → s.seqPhase = .idle → s.colPhase = .idle →
    s.cancelPend = false → s.conn = .connected h → s.events = [] → s.tx.writeAnswers = true :: true :: true :: more →
    NamesColour hex r g b → Nearest s.cfg.palette r g b i → NamesBrightness lum v →
    s.cfg.palette[i].code ≠ s.cfg.palette[14].code →
    ∃ t u : State, exec (.setcolor hex lum) s = .next t ∧ Reaches 303 t u ∧
      u.now = s.now + 300 ∧ u.seqPhase = .idle ∧
      u.txLog = s.txLog ++ [(specPacket 0x00 0x01 s.cfg.powerOnParams, true),
        (specPacket 0x00 0x04 [s.cfg.palette[i].code], true), (specPacket 0x00 0x08 [BitVec.ofNat 8 v], true)] ∧
      u.results = s.results ++ [{ kind := .ok, op := 0x16, payload := [], time := s.now + 300 }]

/-! ### Packets -/

/-- A well-formed packet row is a well-formed packet of the wire (30_encoding R100, R101). -/
def Obligations.PacketRowsAreWellFormedPackets : Prop :=
  ∀ i : Instr, i.port ≠ .request → i.wf = true → WellFormedPacket i.encode

/-- The outbound packet rows: a well-formed write packet or read request is handed to the transport (43_dispatcher R249); a
malformed packet, one of another status (30_encoding R105, R108), or one without a connection, changes nothing. Only
PKT.RGBORDER can carry another status. That an outbound packet is an instruction of its own, delivers no result and
is checked, and that the read lock plays no part, is the model's choice (log entries 8, 14, 18). -/
def Obligations.OutboundPacketsAreHandedOver : Prop :=
  ∀ (s : State) (i : Instr), i.port = .outbound → s.fault = none →
    (s.conn = .disconnected ∨ ¬ WellFormedPacket i.encode ∨ ¬ WriteOrRead i.encode → exec i s = .next s) ∧
    (∀ h, s.conn = .connected h → WellFormedPacket i.encode → WriteOrRead i.encode →
      exec i s = .next (s.afterWrite i.encode)) ∧
    ((∀ len st params sum, i ≠ .pktRgborder len st params sum) → WriteOrRead i.encode)

/-- An inbound response's bytes join the inbound stream, in order, and nothing else changes (20_memory R88,
60_exceptions R363). That a response is an instruction, and that the stream drops no byte, is the model's choice (log
entries 8, 13). -/
def Obligations.ResponseBytesArrive : Prop :=
  ∀ (s : State) (st cmd p0 p1 sum : Byte),
    exec (.pktResponse st cmd p0 p1 sum) s =
      .next { s with tx := { s.tx with inbound := s.tx.inbound ++ [0xCA, 0x07, st, cmd, p0, p1, sum] } }

/-! ### Status, faults, cancel, reset, clock -/

/-- RDSTAT delivers the STATUS word, field by field (10_state R50, 60_exceptions R369). -/
def Obligations.RdstatReadsEveryField : Prop :=
  ∀ s : State, Instr.rdstat.encode = [0x20, 0x00, 0x00, 0x00] ∧
    (s.fault = none → s.colCount ≤ 7 → ∃ w : Word,
      exec .rdstat s = .next (s.withResult .ok 0x20 (leBytes w)) ∧
      (w.getLsbD 0 = true ↔ s.conn ≠ .disconnected) ∧
      w.getLsbD 1 = s.rdBusy ∧
      (w.extractLsb' 2 2).toNat = (match s.colPhase with | .idle => 0 | .poll => 1 | .wait => 2) ∧
      (w.extractLsb' 4 3).toNat = s.colCount ∧
      w.getLsbD 7 = s.cancelPend ∧
      (w.extractLsb' 8 3).toNat =
        (match s.seqPhase with | .idle => 0 | .waitOn => 1 | .waitMode => 2 | .waitBright => 3) ∧
      w.extractLsb' 11 21 = 0)

/-- Raising a fault (60_exceptions R350, R352): `FAULT` is set and nothing else changes, no result included; where it is
set already nothing happens. The codes are 1, 2 and 3, and no other is ever set. -/
def Obligations.MisuseRaisesItsFault : Prop :=
  (faultNumber none = 0 ∧ faultNumber (some .concurrentRead) = 1 ∧ faultNumber (some .seqBusy) = 2 ∧
    faultNumber (some .busyDisconnect) = 3 ∧ ∀ f, faultNumber f ≤ 3) ∧
  ∀ (s : State) (cmd : Byte) (hex lum : List Byte),
    (s.fault = none → s.rdBusy = true →
      exec .collect s = .next { s with fault := some .concurrentRead } ∧
      exec (.rdcmd cmd) s = .next { s with fault := some .concurrentRead } ∧
      exec .getfw s = .next { s with fault := some .concurrentRead }) ∧
    (s.fault = none → s.seqPhase ≠ .idle → exec (.setcolor hex lum) s = .next { s with fault := some .seqBusy }) ∧
    (s.fault = none → (s.rdBusy = true ∨ s.seqPhase ≠ .idle) →
      exec .disconnect s = .next { s with fault := some .busyDisconnect }) ∧
    (s.fault ≠ none → exec .collect s = .next s ∧ exec (.rdcmd cmd) s = .next s ∧ exec .getfw s = .next s ∧
      exec (.setcolor hex lum) s = .next s ∧ exec .disconnect s = .next s)

/-- After a fault no step but reset changes the engine, delivers a result or calls the transport; only time, the script
and the device's bytes go on (60_exceptions R351, R353). -/
def Obligations.FaultedEngineStaysStuck : Prop :=
  ∀ (s t : State) (f : FaultCode), s.fault = some f → s.nextEvent ≠ some .reset → step s = .next t →
    t = { s with
      now := t.now, events := t.events, sched := t.sched
      tx := { s.tx with inbound := t.tx.inbound, draws := t.tx.draws } } ∧ s.now ≤ t.now

/-- The cancel input (60_exceptions R356), an event of the script (log entry 7). -/
def Obligations.CancelAbortsEveryWait : Prop :=
  ∀ (s : State) (rest : List Event), s.events = .cancel :: rest → s.fault = none →
    (s.colPhase = .wait → s.colOwner ≠ .none → s.seqPhase = .idle →
      step s = .next (({ s with events := rest }).withResult .interrupted s.colOwner.op []).released) ∧
    (s.colPhase = .wait → s.colOwner ≠ .none → s.seqPhase ≠ .idle →
      step s = .next ((({ s with events := rest, seqPhase := .idle }).withResult .interrupted s.colOwner.op
        []).withResult .interrupted 0x16 []).released) ∧
    (s.colPhase ≠ .wait → s.seqPhase ≠ .idle →
      step s = .next (({ s with events := rest, seqPhase := .idle }).withResult .interrupted 0x16 [])) ∧
    (s.colPhase ≠ .wait → s.seqPhase = .idle → step s = .next { s with events := rest, cancelPend := true })

/-- Reset (70_reset R380, R382): every element of the engine at its reset value, in any state; no result, no transport
call, the configuration unchanged. That the transport's and the results' records, the script and the schedule stand is
the model's choice (log entries 4 to 7, 16). -/
def Obligations.ResetSetsEveryElement : Prop :=
  ∀ (s : State) (rest : List Event), s.events = .reset :: rest →
    step s = .next {
      cfg := s.cfg, conn := .disconnected, rdBusy := false, colPhase := .idle, colCount := 0
      colBuf := #v[none, none, none, none, none, none, none], colDeadline := 0, colWake := 0, colOwner := .none
      now := 0, cancelPend := false, seqPhase := .idle, seqWake := 0, seqCode := 0, seqLum := 0, fault := none
      txLog := [], tx := s.tx, results := s.results, events := rest, sched := s.sched }

/-- The tick (70_reset R389): with `EXACT_WAIT` true it is enabled only when no step is due, else always. -/
def Obligations.TickWaitsForDueSteps : Prop :=
  ∀ (s : State) (rest : List Event), s.events = .turn .clock :: rest →
    ((s.cfg.exactWait = true ∧ (s.colPhase = .poll ∨ (s.colPhase = .wait ∧ s.colWake ≤ s.now) ∨
        (s.seqPhase ≠ .idle ∧ s.seqWake ≤ s.now))) → step s = .next { s with events := rest }) ∧
    (¬ (s.cfg.exactWait = true ∧ (s.colPhase = .poll ∨ (s.colPhase = .wait ∧ s.colWake ≤ s.now) ∨
        (s.seqPhase ≠ .idle ∧ s.seqWake ≤ s.now))) → step s = .next { s with events := rest, now := s.now + 1 })

/-! ### Whole-machine rules -/

/-- `now` changes only by the clock's tick, by one, with nothing else of the engine (10_state R40), and by reset. -/
def Obligations.TimeAdvancesOnlyByTheClock : Prop :=
  ∀ s t : State, step s = .next t → s.nextEvent ≠ some .reset → t.now ≠ s.now →
    t = { s with
      now := s.now + 1, events := t.events, sched := t.sched, tx := { s.tx with draws := t.tx.draws } }

/-- No step writes the configuration (10_state R34, 70_reset R382). -/
def Obligations.ConfigurationNeverChanges : Prop := ∀ s t : State, step s = .next t → t.cfg = s.cfg

/-- `CONN` is written only by CONNECT, DISCONNECT and reset (10_state R35). -/
def Obligations.OnlyConnectDisconnectResetWriteConn : Prop :=
  ∀ s t : State, step s = .next t → t.conn ≠ s.conn →
    s.nextEvent = some .reset ∨
    ∃ bytes i, s.nextEvent = some (.instr .request bytes) ∧ decode .request bytes = .ok i ∧
      (i = .disconnect ∨ ∃ baud path, i = .connect baud path)

/-- A precondition violation changes no state and calls no transport function (60_exceptions R341): whatever the
instruction, a step of it that delivers one does nothing else. -/
def Obligations.PreconditionViolationSendsNothing : Prop :=
  ∀ (i : Instr) (s t : State) (x : Result), exec i s = .next t → x ∈ t.results.drop s.results.length →
    i.port = .request → x.kind = .preconditionViolation →
    t = s.withResult .preconditionViolation x.op []

/-- An `IO_ERROR` result carries the whole packet whose `TxWrite` answered false (43_dispatcher R251). -/
def Obligations.IoErrorCarriesTheRejectedPacket : Prop :=
  ∀ (s t : State) (x : Result), step s = .next t → x ∈ t.results.drop s.results.length → x.kind = .ioError →
    t.txLog = s.txLog ++ [(x.payload, false)]

/-- One step hands at most one packet to the transport, and `TX_LOG` never loses one but by reset (43_dispatcher R249,
R254, 44_controller R297; packet rows: log entry 8). -/
def Obligations.AtMostOnePacketPerStep : Prop :=
  ∀ s t : State, step s = .next t → s.nextEvent ≠ some .reset →
    t.txLog = s.txLog ∨ ∃ p ok, t.txLog = s.txLog ++ [(p, ok)]

/-- Every request ends with exactly one result, at once, unless it faults or goes on as a collection or a setColor
(60_exceptions R340). -/
def Obligations.EveryRequestIsAnsweredOnce : Prop :=
  ∀ (i : Instr) (s : State), i.port = .request → s.fault = none →
    ∃ t, exec i s = .next t ∧
      ((∃ x, t.results = s.results ++ [x] ∧ x.time = s.now ∧ some x.op = i.encode.head?) ∨
        (t.results = s.results ∧ t.fault ≠ none) ∨
        (t.results = s.results ∧ s.rdBusy = false ∧ t.rdBusy = true ∧ t.colPhase = .poll) ∨
        (t.results = s.results ∧ s.seqPhase = .idle ∧ t.seqPhase = .waitOn))

/-- An unfaulted engine always has a step, and no state within the invariant reads an unwritten byte (70_reset R389,
10_state R39). -/
def Obligations.UnfaultedEngineIsNeverStuck : Prop :=
  ∀ s : State, EngineInv s → s.fault = none → s.events = [] → ∃ t, step s = .next t

/-- Weak fairness (70_reset R389): with no event left, a due poll, a due wake and a due step of the sequencer are each
taken after some number of steps, whatever the clock and the other agent do, for either value of `EXACT_WAIT`. How the
model makes its choices fair is its own (log entry 16). -/
def Obligations.DueStepsAreTakenInTheEnd : Prop :=
  ∀ s : State, EngineInv s → s.fault = none → s.events = [] →
    (s.colPhase = .poll → ∃ n t, Reaches n s t ∧ t.colPhase ≠ .poll) ∧
    (s.colPhase = .wait → s.colWake ≤ s.now → ∃ n t, Reaches n s t ∧ t.colPhase = .poll) ∧
    (s.seqPhase ≠ .idle → s.seqWake ≤ s.now → ∃ n t, Reaches n s t ∧ t.seqPhase ≠ s.seqPhase)

/-- Weak fairness of the clock (70_reset R389): with no event left and waits of at least 1 ms, `now` advances by one after
some number of steps, for either value of `EXACT_WAIT` (log entry 16). -/
def Obligations.TimePassesInTheEnd : Prop :=
  ∀ s : State, EngineInv s → s.fault = none → s.events = [] → 1 ≤ s.cfg.pollMs → 1 ≤ s.cfg.paceMs →
    ∃ n t, Reaches n s t ∧ t.now = s.now + 1

/-- No step within the invariant reads an unwritten byte of `COL_BUF` (10_state R39). -/
def Obligations.NoUnwrittenByteIsRead : Prop := ∀ s : State, EngineInv s → step s ≠ .fault .unwrittenByte

/-! ### Invariants -/

/-- The engine's invariant is kept by every step. -/
def Obligations.EveryStepKeepsEngineInv : Prop := ∀ s t : State, EngineInv s → step s = .next t → EngineInv t

/-- Every packet in `TX_LOG` stays well formed (30_encoding R101). -/
def Obligations.EveryStepKeepsLogFramed : Prop := ∀ s t : State, LogInv s → step s = .next t → LogInv t

/-- Every packet in `TX_LOG` stays a write packet or a read request: no other status is ever emitted, and rgb-order leaves
the engine only as WRCMD or RDCMD send it (30_encoding R105, R108; 93 R-b). -/
def Obligations.EveryStepSendsWritesOrReads : Prop := ∀ s t : State, KindInv s → step s = .next t → KindInv t

/-- With `EXACT_WAIT` true every poll is at its scheduled time and no collection outlives its deadline (41_collector
R192, which the spec marks as derived). -/
def Obligations.EveryStepKeepsTheSchedule : Prop := ∀ s t : State, TimeInv s → step s = .next t → TimeInv t

/-- Handles are fresh, and after its release none is used again (60_exceptions R361, R364). The call history is the
model's record (log entry 5). -/
def Obligations.NoHandleIsUsedAfterRelease : Prop := ∀ s t : State, HandleInv s → step s = .next t → HandleInv t

/-- The reset state meets every invariant (10_state R51). -/
def Obligations.ResetMeetsEveryInvariant : Prop :=
  EngineInv State.reset ∧ LogInv State.reset ∧ KindInv State.reset ∧ TimeInv State.reset ∧ HandleInv State.reset

/-- A collection left alone ends: with no more events and no setColor in flight, some number of steps later the read
lock is free, exactly one more result is delivered, and `now` has not passed the deadline (41_collector R192, which the
spec marks as derived). -/
def Obligations.CollectionEndsByItsDeadline : Prop :=
  ∀ s : State, EngineInv s → TimeInv s → s.fault = none → s.events = [] → s.seqPhase = .idle → s.rdBusy = true →
    ∃ (n : Nat) (t : State) (x : Result), Reaches n s t ∧ t.rdBusy = false ∧ t.colPhase = .idle ∧
      t.now ≤ s.colDeadline ∧ t.results = s.results ++ [x] ∧ x.op = s.colOwner.op ∧ x.time ≤ s.colDeadline
end

