-- ==== Sys2Proof/Laws/State.lean ====
section
/-! SUPPORT. What each named update of State does to each field, by rfl: later proofs do not unfold the updates. -/

namespace Sys2Proof.Machine

variable (s : State)

@[simp] theorem State.deliver_cfg (op : Byte) (k : ResultKind) (x : List Byte) : (s.deliver op k x).cfg = s.cfg := rfl
@[simp] theorem State.deliver_conn (op : Byte) (k : ResultKind) (x : List Byte) : (s.deliver op k x).conn = s.conn := rfl
@[simp] theorem State.deliver_rdBusy (op : Byte) (k : ResultKind) (x : List Byte) : (s.deliver op k x).rdBusy = s.rdBusy := rfl
@[simp] theorem State.deliver_colPhase (op : Byte) (k : ResultKind) (x : List Byte) : (s.deliver op k x).colPhase = s.colPhase := rfl
@[simp] theorem State.deliver_colCount (op : Byte) (k : ResultKind) (x : List Byte) : (s.deliver op k x).colCount = s.colCount := rfl
@[simp] theorem State.deliver_colBuf (op : Byte) (k : ResultKind) (x : List Byte) : (s.deliver op k x).colBuf = s.colBuf := rfl
@[simp] theorem State.deliver_colDeadline (op : Byte) (k : ResultKind) (x : List Byte) : (s.deliver op k x).colDeadline = s.colDeadline := rfl
@[simp] theorem State.deliver_colWake (op : Byte) (k : ResultKind) (x : List Byte) : (s.deliver op k x).colWake = s.colWake := rfl
@[simp] theorem State.deliver_colOwner (op : Byte) (k : ResultKind) (x : List Byte) : (s.deliver op k x).colOwner = s.colOwner := rfl
@[simp] theorem State.deliver_now (op : Byte) (k : ResultKind) (x : List Byte) : (s.deliver op k x).now = s.now := rfl
@[simp] theorem State.deliver_cancelPend (op : Byte) (k : ResultKind) (x : List Byte) : (s.deliver op k x).cancelPend = s.cancelPend := rfl
@[simp] theorem State.deliver_seqPhase (op : Byte) (k : ResultKind) (x : List Byte) : (s.deliver op k x).seqPhase = s.seqPhase := rfl
@[simp] theorem State.deliver_seqWake (op : Byte) (k : ResultKind) (x : List Byte) : (s.deliver op k x).seqWake = s.seqWake := rfl
@[simp] theorem State.deliver_seqCode (op : Byte) (k : ResultKind) (x : List Byte) : (s.deliver op k x).seqCode = s.seqCode := rfl
@[simp] theorem State.deliver_seqLum (op : Byte) (k : ResultKind) (x : List Byte) : (s.deliver op k x).seqLum = s.seqLum := rfl
@[simp] theorem State.deliver_fault (op : Byte) (k : ResultKind) (x : List Byte) : (s.deliver op k x).fault = s.fault := rfl
@[simp] theorem State.deliver_txLog (op : Byte) (k : ResultKind) (x : List Byte) : (s.deliver op k x).txLog = s.txLog := rfl
@[simp] theorem State.deliver_tx (op : Byte) (k : ResultKind) (x : List Byte) : (s.deliver op k x).tx = s.tx := rfl
@[simp] theorem State.deliver_results (op : Byte) (k : ResultKind) (x : List Byte) : (s.deliver op k x).results = s.results ++ [⟨k, op, x, s.now⟩] := rfl
@[simp] theorem State.deliver_events (op : Byte) (k : ResultKind) (x : List Byte) : (s.deliver op k x).events = s.events := rfl
@[simp] theorem State.deliver_sched (op : Byte) (k : ResultKind) (x : List Byte) : (s.deliver op k x).sched = s.sched := rfl

@[simp] theorem State.withResult_cfg (k : ResultKind) (op : Byte) (x : List Byte) : (s.withResult k op x).cfg = s.cfg := rfl
@[simp] theorem State.withResult_conn (k : ResultKind) (op : Byte) (x : List Byte) : (s.withResult k op x).conn = s.conn := rfl
@[simp] theorem State.withResult_rdBusy (k : ResultKind) (op : Byte) (x : List Byte) : (s.withResult k op x).rdBusy = s.rdBusy := rfl
@[simp] theorem State.withResult_colPhase (k : ResultKind) (op : Byte) (x : List Byte) : (s.withResult k op x).colPhase = s.colPhase := rfl
@[simp] theorem State.withResult_colCount (k : ResultKind) (op : Byte) (x : List Byte) : (s.withResult k op x).colCount = s.colCount := rfl
@[simp] theorem State.withResult_colBuf (k : ResultKind) (op : Byte) (x : List Byte) : (s.withResult k op x).colBuf = s.colBuf := rfl
@[simp] theorem State.withResult_colDeadline (k : ResultKind) (op : Byte) (x : List Byte) : (s.withResult k op x).colDeadline = s.colDeadline := rfl
@[simp] theorem State.withResult_colWake (k : ResultKind) (op : Byte) (x : List Byte) : (s.withResult k op x).colWake = s.colWake := rfl
@[simp] theorem State.withResult_colOwner (k : ResultKind) (op : Byte) (x : List Byte) : (s.withResult k op x).colOwner = s.colOwner := rfl
@[simp] theorem State.withResult_now (k : ResultKind) (op : Byte) (x : List Byte) : (s.withResult k op x).now = s.now := rfl
@[simp] theorem State.withResult_cancelPend (k : ResultKind) (op : Byte) (x : List Byte) : (s.withResult k op x).cancelPend = s.cancelPend := rfl
@[simp] theorem State.withResult_seqPhase (k : ResultKind) (op : Byte) (x : List Byte) : (s.withResult k op x).seqPhase = s.seqPhase := rfl
@[simp] theorem State.withResult_seqWake (k : ResultKind) (op : Byte) (x : List Byte) : (s.withResult k op x).seqWake = s.seqWake := rfl
@[simp] theorem State.withResult_seqCode (k : ResultKind) (op : Byte) (x : List Byte) : (s.withResult k op x).seqCode = s.seqCode := rfl
@[simp] theorem State.withResult_seqLum (k : ResultKind) (op : Byte) (x : List Byte) : (s.withResult k op x).seqLum = s.seqLum := rfl
@[simp] theorem State.withResult_fault (k : ResultKind) (op : Byte) (x : List Byte) : (s.withResult k op x).fault = s.fault := rfl
@[simp] theorem State.withResult_txLog (k : ResultKind) (op : Byte) (x : List Byte) : (s.withResult k op x).txLog = s.txLog := rfl
@[simp] theorem State.withResult_tx (k : ResultKind) (op : Byte) (x : List Byte) : (s.withResult k op x).tx = s.tx := rfl
@[simp] theorem State.withResult_results (k : ResultKind) (op : Byte) (x : List Byte) : (s.withResult k op x).results = s.results ++ [⟨k, op, x, s.now⟩] := rfl
@[simp] theorem State.withResult_events (k : ResultKind) (op : Byte) (x : List Byte) : (s.withResult k op x).events = s.events := rfl
@[simp] theorem State.withResult_sched (k : ResultKind) (op : Byte) (x : List Byte) : (s.withResult k op x).sched = s.sched := rfl

@[simp] theorem State.afterWrite_cfg (p : Packet) : (s.afterWrite p).cfg = s.cfg := rfl
@[simp] theorem State.afterWrite_conn (p : Packet) : (s.afterWrite p).conn = s.conn := rfl
@[simp] theorem State.afterWrite_rdBusy (p : Packet) : (s.afterWrite p).rdBusy = s.rdBusy := rfl
@[simp] theorem State.afterWrite_colPhase (p : Packet) : (s.afterWrite p).colPhase = s.colPhase := rfl
@[simp] theorem State.afterWrite_colCount (p : Packet) : (s.afterWrite p).colCount = s.colCount := rfl
@[simp] theorem State.afterWrite_colBuf (p : Packet) : (s.afterWrite p).colBuf = s.colBuf := rfl
@[simp] theorem State.afterWrite_colDeadline (p : Packet) : (s.afterWrite p).colDeadline = s.colDeadline := rfl
@[simp] theorem State.afterWrite_colWake (p : Packet) : (s.afterWrite p).colWake = s.colWake := rfl
@[simp] theorem State.afterWrite_colOwner (p : Packet) : (s.afterWrite p).colOwner = s.colOwner := rfl
@[simp] theorem State.afterWrite_now (p : Packet) : (s.afterWrite p).now = s.now := rfl
@[simp] theorem State.afterWrite_cancelPend (p : Packet) : (s.afterWrite p).cancelPend = s.cancelPend := rfl
@[simp] theorem State.afterWrite_seqPhase (p : Packet) : (s.afterWrite p).seqPhase = s.seqPhase := rfl
@[simp] theorem State.afterWrite_seqWake (p : Packet) : (s.afterWrite p).seqWake = s.seqWake := rfl
@[simp] theorem State.afterWrite_seqCode (p : Packet) : (s.afterWrite p).seqCode = s.seqCode := rfl
@[simp] theorem State.afterWrite_seqLum (p : Packet) : (s.afterWrite p).seqLum = s.seqLum := rfl
@[simp] theorem State.afterWrite_fault (p : Packet) : (s.afterWrite p).fault = s.fault := rfl
@[simp] theorem State.afterWrite_txLog (p : Packet) : (s.afterWrite p).txLog = s.txLog ++ [(p, s.writeDraw)] := rfl
@[simp] theorem State.afterWrite_results (p : Packet) : (s.afterWrite p).results = s.results := rfl
@[simp] theorem State.afterWrite_events (p : Packet) : (s.afterWrite p).events = s.events := rfl
@[simp] theorem State.afterWrite_sched (p : Packet) : (s.afterWrite p).sched = s.sched := rfl

@[simp] theorem State.afterRead_cfg : s.afterRead.cfg = s.cfg := rfl
@[simp] theorem State.afterRead_conn : s.afterRead.conn = s.conn := rfl
@[simp] theorem State.afterRead_rdBusy : s.afterRead.rdBusy = s.rdBusy := rfl
@[simp] theorem State.afterRead_colPhase : s.afterRead.colPhase = s.colPhase := rfl
@[simp] theorem State.afterRead_colCount : s.afterRead.colCount = s.colCount := rfl
@[simp] theorem State.afterRead_colBuf : s.afterRead.colBuf = s.colBuf := rfl
@[simp] theorem State.afterRead_colDeadline : s.afterRead.colDeadline = s.colDeadline := rfl
@[simp] theorem State.afterRead_colWake : s.afterRead.colWake = s.colWake := rfl
@[simp] theorem State.afterRead_colOwner : s.afterRead.colOwner = s.colOwner := rfl
@[simp] theorem State.afterRead_now : s.afterRead.now = s.now := rfl
@[simp] theorem State.afterRead_cancelPend : s.afterRead.cancelPend = s.cancelPend := rfl
@[simp] theorem State.afterRead_seqPhase : s.afterRead.seqPhase = s.seqPhase := rfl
@[simp] theorem State.afterRead_seqWake : s.afterRead.seqWake = s.seqWake := rfl
@[simp] theorem State.afterRead_seqCode : s.afterRead.seqCode = s.seqCode := rfl
@[simp] theorem State.afterRead_seqLum : s.afterRead.seqLum = s.seqLum := rfl
@[simp] theorem State.afterRead_fault : s.afterRead.fault = s.fault := rfl
@[simp] theorem State.afterRead_txLog : s.afterRead.txLog = s.txLog := rfl
@[simp] theorem State.afterRead_results : s.afterRead.results = s.results := rfl
@[simp] theorem State.afterRead_events : s.afterRead.events = s.events := rfl
@[simp] theorem State.afterRead_sched : s.afterRead.sched = s.sched := rfl

@[simp] theorem State.released_cfg : s.released.cfg = s.cfg := rfl
@[simp] theorem State.released_conn : s.released.conn = s.conn := rfl
@[simp] theorem State.released_rdBusy : s.released.rdBusy = false := rfl
@[simp] theorem State.released_colPhase : s.released.colPhase = .idle := rfl
@[simp] theorem State.released_colCount : s.released.colCount = s.colCount := rfl
@[simp] theorem State.released_colBuf : s.released.colBuf = s.colBuf := rfl
@[simp] theorem State.released_colDeadline : s.released.colDeadline = s.colDeadline := rfl
@[simp] theorem State.released_colWake : s.released.colWake = s.colWake := rfl
@[simp] theorem State.released_colOwner : s.released.colOwner = .none := rfl
@[simp] theorem State.released_now : s.released.now = s.now := rfl
@[simp] theorem State.released_cancelPend : s.released.cancelPend = s.cancelPend := rfl
@[simp] theorem State.released_seqPhase : s.released.seqPhase = s.seqPhase := rfl
@[simp] theorem State.released_seqWake : s.released.seqWake = s.seqWake := rfl
@[simp] theorem State.released_seqCode : s.released.seqCode = s.seqCode := rfl
@[simp] theorem State.released_seqLum : s.released.seqLum = s.seqLum := rfl
@[simp] theorem State.released_fault : s.released.fault = s.fault := rfl
@[simp] theorem State.released_txLog : s.released.txLog = s.txLog := rfl
@[simp] theorem State.released_tx : s.released.tx = s.tx := rfl
@[simp] theorem State.released_results : s.released.results = s.results := rfl
@[simp] theorem State.released_events : s.released.events = s.events := rfl
@[simp] theorem State.released_sched : s.released.sched = s.sched := rfl

@[simp] theorem collectStart_cfg (o : Owner) : (collectStart o s).cfg = s.cfg := rfl
@[simp] theorem collectStart_conn (o : Owner) : (collectStart o s).conn = s.conn := rfl
@[simp] theorem collectStart_rdBusy (o : Owner) : (collectStart o s).rdBusy = s.rdBusy := rfl
@[simp] theorem collectStart_colPhase (o : Owner) : (collectStart o s).colPhase = .poll := rfl
@[simp] theorem collectStart_colCount (o : Owner) : (collectStart o s).colCount = 0 := rfl
@[simp] theorem collectStart_colBuf (o : Owner) : (collectStart o s).colBuf = unwrittenBuf := rfl
@[simp] theorem collectStart_colDeadline (o : Owner) : (collectStart o s).colDeadline = s.now + s.cfg.timeoutMs := rfl
@[simp] theorem collectStart_colWake (o : Owner) : (collectStart o s).colWake = s.colWake := rfl
@[simp] theorem collectStart_colOwner (o : Owner) : (collectStart o s).colOwner = o := rfl
@[simp] theorem collectStart_now (o : Owner) : (collectStart o s).now = s.now := rfl
@[simp] theorem collectStart_cancelPend (o : Owner) : (collectStart o s).cancelPend = s.cancelPend := rfl
@[simp] theorem collectStart_seqPhase (o : Owner) : (collectStart o s).seqPhase = s.seqPhase := rfl
@[simp] theorem collectStart_seqWake (o : Owner) : (collectStart o s).seqWake = s.seqWake := rfl
@[simp] theorem collectStart_seqCode (o : Owner) : (collectStart o s).seqCode = s.seqCode := rfl
@[simp] theorem collectStart_seqLum (o : Owner) : (collectStart o s).seqLum = s.seqLum := rfl
@[simp] theorem collectStart_fault (o : Owner) : (collectStart o s).fault = s.fault := rfl
@[simp] theorem collectStart_txLog (o : Owner) : (collectStart o s).txLog = s.txLog := rfl
@[simp] theorem collectStart_tx (o : Owner) : (collectStart o s).tx = s.tx := rfl
@[simp] theorem collectStart_results (o : Owner) : (collectStart o s).results = s.results := rfl
@[simp] theorem collectStart_events (o : Owner) : (collectStart o s).events = s.events := rfl
@[simp] theorem collectStart_sched (o : Owner) : (collectStart o s).sched = s.sched := rfl

@[simp] theorem arrive_cfg (x : List Byte) : (arrive x s).cfg = s.cfg := rfl
@[simp] theorem arrive_conn (x : List Byte) : (arrive x s).conn = s.conn := rfl
@[simp] theorem arrive_rdBusy (x : List Byte) : (arrive x s).rdBusy = s.rdBusy := rfl
@[simp] theorem arrive_colPhase (x : List Byte) : (arrive x s).colPhase = s.colPhase := rfl
@[simp] theorem arrive_colCount (x : List Byte) : (arrive x s).colCount = s.colCount := rfl
@[simp] theorem arrive_colBuf (x : List Byte) : (arrive x s).colBuf = s.colBuf := rfl
@[simp] theorem arrive_colDeadline (x : List Byte) : (arrive x s).colDeadline = s.colDeadline := rfl
@[simp] theorem arrive_colWake (x : List Byte) : (arrive x s).colWake = s.colWake := rfl
@[simp] theorem arrive_colOwner (x : List Byte) : (arrive x s).colOwner = s.colOwner := rfl
@[simp] theorem arrive_now (x : List Byte) : (arrive x s).now = s.now := rfl
@[simp] theorem arrive_cancelPend (x : List Byte) : (arrive x s).cancelPend = s.cancelPend := rfl
@[simp] theorem arrive_seqPhase (x : List Byte) : (arrive x s).seqPhase = s.seqPhase := rfl
@[simp] theorem arrive_seqWake (x : List Byte) : (arrive x s).seqWake = s.seqWake := rfl
@[simp] theorem arrive_seqCode (x : List Byte) : (arrive x s).seqCode = s.seqCode := rfl
@[simp] theorem arrive_seqLum (x : List Byte) : (arrive x s).seqLum = s.seqLum := rfl
@[simp] theorem arrive_fault (x : List Byte) : (arrive x s).fault = s.fault := rfl
@[simp] theorem arrive_txLog (x : List Byte) : (arrive x s).txLog = s.txLog := rfl
@[simp] theorem arrive_tx (x : List Byte) : (arrive x s).tx = { s.tx with inbound := s.tx.inbound ++ x } := rfl
@[simp] theorem arrive_results (x : List Byte) : (arrive x s).results = s.results := rfl
@[simp] theorem arrive_events (x : List Byte) : (arrive x s).events = s.events := rfl
@[simp] theorem arrive_sched (x : List Byte) : (arrive x s).sched = s.sched := rfl

@[simp] theorem txRelease_cfg (h : Handle) : (txRelease h s).cfg = s.cfg := rfl
@[simp] theorem txRelease_conn (h : Handle) : (txRelease h s).conn = s.conn := rfl
@[simp] theorem txRelease_rdBusy (h : Handle) : (txRelease h s).rdBusy = s.rdBusy := rfl
@[simp] theorem txRelease_colPhase (h : Handle) : (txRelease h s).colPhase = s.colPhase := rfl
@[simp] theorem txRelease_colCount (h : Handle) : (txRelease h s).colCount = s.colCount := rfl
@[simp] theorem txRelease_colBuf (h : Handle) : (txRelease h s).colBuf = s.colBuf := rfl
@[simp] theorem txRelease_colDeadline (h : Handle) : (txRelease h s).colDeadline = s.colDeadline := rfl
@[simp] theorem txRelease_colWake (h : Handle) : (txRelease h s).colWake = s.colWake := rfl
@[simp] theorem txRelease_colOwner (h : Handle) : (txRelease h s).colOwner = s.colOwner := rfl
@[simp] theorem txRelease_now (h : Handle) : (txRelease h s).now = s.now := rfl
@[simp] theorem txRelease_cancelPend (h : Handle) : (txRelease h s).cancelPend = s.cancelPend := rfl
@[simp] theorem txRelease_seqPhase (h : Handle) : (txRelease h s).seqPhase = s.seqPhase := rfl
@[simp] theorem txRelease_seqWake (h : Handle) : (txRelease h s).seqWake = s.seqWake := rfl
@[simp] theorem txRelease_seqCode (h : Handle) : (txRelease h s).seqCode = s.seqCode := rfl
@[simp] theorem txRelease_seqLum (h : Handle) : (txRelease h s).seqLum = s.seqLum := rfl
@[simp] theorem txRelease_fault (h : Handle) : (txRelease h s).fault = s.fault := rfl
@[simp] theorem txRelease_txLog (h : Handle) : (txRelease h s).txLog = s.txLog := rfl
@[simp] theorem txRelease_tx (h : Handle) : (txRelease h s).tx = { s.tx with calls := s.tx.calls ++ [.released h] } := rfl
@[simp] theorem txRelease_results (h : Handle) : (txRelease h s).results = s.results := rfl
@[simp] theorem txRelease_events (h : Handle) : (txRelease h s).events = s.events := rfl
@[simp] theorem txRelease_sched (h : Handle) : (txRelease h s).sched = s.sched := rfl

@[simp] theorem State.afterWrite_calls (p : Packet) :
    (s.afterWrite p).tx.calls = s.tx.calls ++ [.wrote s.handle? p s.writeDraw] := rfl
@[simp] theorem State.afterWrite_issued (p : Packet) : (s.afterWrite p).tx.issued = s.tx.issued := rfl
@[simp] theorem State.afterWrite_inbound (p : Packet) : (s.afterWrite p).tx.inbound = s.tx.inbound := rfl
@[simp] theorem State.afterWrite_writeAnswers (p : Packet) :
    (s.afterWrite p).tx.writeAnswers = s.tx.writeAnswers.tail := rfl
@[simp] theorem State.afterRead_calls : s.afterRead.tx.calls = s.tx.calls ++ [.read s.handle? s.nextChunk] := rfl
@[simp] theorem State.afterRead_issued : s.afterRead.tx.issued = s.tx.issued := rfl

theorem State.deliver_eq (op : Byte) (k : ResultKind) (x : List Byte) : s.deliver op k x = s.withResult k op x := rfl

end Sys2Proof.Machine
end

