-- ==== Sys2Proof/Laws/Ops.lean ====
section
/-! SUPPORT. What each shared operation does, once: later proofs cite these and do not unfold the operations. -/

namespace Sys2Proof.Machine

/-! ### The guard of a faulted engine -/

theorem State.unlessFaulted_of_none {s : State} (h : s.fault = none) (t : State) : s.unlessFaulted t = t := by
  simp [State.unlessFaulted, h]

theorem State.unlessFaulted_of_some {s : State} {f : FaultCode} (h : s.fault = some f) (t : State) :
    s.unlessFaulted t = s := by
  simp [State.unlessFaulted, h]

theorem State.raise_of_none {s : State} (h : s.fault = none) (f : FaultCode) :
    s.raise f = { s with fault := some f } := by
  simp [State.raise, h]

/-! ### Sums, checksums, packets -/

theorem byteSum_eq (b : List Byte) : byteSum b = (b.map BitVec.toNat).sum := by
  induction b with
  | nil => rfl
  | cons x xs ih => simp [byteSum, ih]

theorem byteSum_append (a b : List Byte) : byteSum (a ++ b) = byteSum a + byteSum b := by
  simp [byteSum_eq]

/-- The framer's packet is the packet with its fields (40_framer R142, 30_encoding R101). -/
theorem frame_eq_specPacket (st cmd : Byte) (params : List Byte) :
    frame st cmd params = specPacket st cmd params := by
  have htake : ([HEADER, BitVec.ofNat 8 (5 + params.length), st, cmd] ++ params).take (4 + params.length) =
      [HEADER, BitVec.ofNat 8 (5 + params.length), st, cmd] ++ params := by
    apply List.take_of_length_le
    simp
    omega
  simp only [frame, specPacket, checksum, htake]
  congr 2
  apply BitVec.eq_of_toNat_eq
  have hCA : (0xCA : Byte).toNat = 202 := rfl
  simp only [List.cons_append, List.nil_append, byteSum_eq, HEADER, List.map_cons, List.sum_cons,
    BitVec.toNat_ofNat, hCA]
  omega

/-! ### Sending -/

/-- What `send` does: one packet handed over and recorded, `OK` or `IO_ERROR` with the packet (43_dispatcher R249). -/
theorem send_eq (p : Packet) (s : State) :
    send p s = (if s.writeDraw then ⟨.ok, []⟩ else ⟨.ioError, p⟩, s.afterWrite p) := by
  cases h : s.writeDraw <;> simp [send, txWrite, State.afterWrite, h]

theorem cmdWrite_disconnected {s : State} (h : s.conn = .disconnected) (cmd : Byte) (params : List Byte) :
    cmdWrite cmd params s = (⟨.notConnected, []⟩, s) := by
  simp [cmdWrite, h]

theorem cmdWrite_connected {s : State} {c : Handle} (h : s.conn = .connected c) (cmd : Byte) (params : List Byte) :
    cmdWrite cmd params s =
      (if s.writeDraw then ⟨.ok, []⟩ else ⟨.ioError, frame STATUS_WRITE cmd params⟩,
        s.afterWrite (frame STATUS_WRITE cmd params)) := by
  simp [cmdWrite, h, send_eq]

/-- A command write as an operation's last act, connected. -/
theorem answer_cmdWrite_connected {s : State} {c : Handle} (h : s.conn = .connected c) (op cmd : Byte)
    (params : List Byte) :
    answer op (cmdWrite cmd params s) = s.writeEnds op (frame STATUS_WRITE cmd params) := by
  rw [cmdWrite_connected h]
  unfold answer State.writeEnds
  split <;> rfl

theorem answer_cmdWrite_disconnected {s : State} (h : s.conn = .disconnected) (op cmd : Byte) (params : List Byte) :
    answer op (cmdWrite cmd params s) = s.withResult .notConnected op [] := by
  rw [cmdWrite_disconnected h]; rfl

/-! ### Reading -/

theorem txRead_eq (s : State) : txRead s = (s.nextChunk, s.afterRead) := rfl

/-- Everything the body of RDCMD and GETFW can do (43_dispatcher R252). -/
theorem readTransaction_eq (op cmd : Byte) (owner : Owner) (s : State) :
    readTransaction op cmd owner s =
      if s.rdBusy then s.raise .concurrentRead
      else match s.conn with
        | .disconnected => s.withResult .notConnected op []
        | .connected _ =>
          if s.writeDraw then collectStart owner { s.afterWrite (frame STATUS_READ cmd []) with rdBusy := true }
          else { (s.afterWrite (frame STATUS_READ cmd [])).withResult .ioError op (frame STATUS_READ cmd []) with
            rdBusy := false } := by
  have hd : ({ s with rdBusy := true } : State).writeDraw = s.writeDraw := rfl
  have hw : ∀ p, ({ s with rdBusy := true } : State).afterWrite p = { s.afterWrite p with rdBusy := true } :=
    fun _ => rfl
  unfold readTransaction
  simp only [send_eq, hd, hw]
  split
  · rfl
  · cases hc : s.conn with
    | disconnected => rfl
    | connected h => cases s.writeDraw <;> rfl

/-- Everything SETCOLOR can do once its operands are read and there is a connection (44_controller R294, R296, R297). -/
theorem colourSequence_eq {s : State} {h : Handle} (hc : s.conn = .connected h) (rgb : Byte × Byte × Byte)
    (lum : Luminance) :
    colourSequence rgb lum s =
      match lum with
      | .off => s.writeEnds OP_SETCOLOR (frame STATUS_WRITE CMD_POWER s.cfg.powerOffParams)
      | .level v =>
        if s.cfg.palette[closest s.cfg.palette rgb.1 rgb.2.1 rgb.2.2].code = s.cfg.palette[14].code then
          s.writeEnds OP_SETCOLOR (frame STATUS_WRITE CMD_POWER s.cfg.powerOffParams)
        else if s.writeDraw then
          seqWait .waitOn { s.afterWrite (frame STATUS_WRITE CMD_POWER s.cfg.powerOnParams) with
            seqCode := s.cfg.palette[closest s.cfg.palette rgb.1 rgb.2.1 rgb.2.2].code
            seqLum := BitVec.ofNat 7 v }
        else (s.afterWrite (frame STATUS_WRITE CMD_POWER s.cfg.powerOnParams)).withResult .ioError OP_SETCOLOR
          (frame STATUS_WRITE CMD_POWER s.cfg.powerOnParams) := by
  unfold colourSequence
  rw [answer_cmdWrite_connected hc, cmdWrite_connected hc]
  cases lum with
  | off => rfl
  | level v =>
    simp only []
    split
    · rfl
    · cases s.writeDraw <;> rfl

/-- Everything a write of the sequence can do, connected (44_controller R297, R299). -/
theorem seqWrite_eq {s : State} {h : Handle} (hc : s.conn = .connected h) (cmd : Byte) (params : List Byte)
    (next : SeqPhase) :
    seqWrite cmd params next s =
      if s.writeDraw then seqWait next (s.afterWrite (frame STATUS_WRITE cmd params))
      else ({ s.afterWrite (frame STATUS_WRITE cmd params) with seqPhase := .idle }).withResult .ioError OP_SETCOLOR
        (frame STATUS_WRITE cmd params) := by
  unfold seqWrite
  rw [cmdWrite_connected hc]
  cases s.writeDraw <;> rfl

/-! ### Waits and ends of collections -/

/-- Every end of a collection is one result and the lock's release, for the operation that owns it (41_collector R188,
43_dispatcher R253). -/
theorem collectFinish_eq (r : CollectEnd) (s : State) :
    collectFinish r s =
      match s.colOwner with
      | .none => s
      | .collect => match r with
        | .complete b => { s.withResult .ok OP_COLLECT b with rdBusy := false, colOwner := .none }
        | .timeout => { s.withResult .timeout OP_COLLECT [] with rdBusy := false, colOwner := .none }
        | .interrupted => { s.withResult .interrupted OP_COLLECT [] with rdBusy := false, colOwner := .none }
      | .rdcmd => match r with
        | .complete b => { s.withResult (validate b).kind OP_RDCMD (validate b).payload with
            rdBusy := false, colOwner := .none }
        | .timeout => { s.withResult .timeout OP_RDCMD [] with rdBusy := false, colOwner := .none }
        | .interrupted => { s.withResult .interrupted OP_RDCMD [] with rdBusy := false, colOwner := .none }
      | .getfw => match r with
        | .complete b => { s.withResult (validate b).kind OP_GETFW (validate b).payload with
            rdBusy := false, colOwner := .none }
        | .timeout => { s.withResult .timeout OP_GETFW [] with rdBusy := false, colOwner := .none }
        | .interrupted => { s.withResult .interrupted OP_GETFW [] with rdBusy := false, colOwner := .none } := by
  unfold collectFinish
  cases s.colOwner <;> cases r <;> rfl

theorem seqWait_of_pending {s : State} (h : s.cancelPend = true) (ph : SeqPhase) :
    seqWait ph s = ({ s with cancelPend := false, seqPhase := .idle }).withResult .interrupted 0x16 [] := by
  simp only [seqWait, h, if_true]; rfl

theorem seqWait_of_clear {s : State} (h : s.cancelPend = false) (ph : SeqPhase) :
    seqWait ph s = { s with seqPhase := ph, seqWake := s.now + s.cfg.paceMs } := by
  simp [seqWait, h]

end Sys2Proof.Machine
end

