-- ==== Sys2Proof/Laws/Framer.lean ====
section
/-! SUPPORT. What the framer makes and what the validator answers. -/

namespace Sys2Proof.Machine

theorem specPacket_length (st cmd : Byte) (ps : List Byte) : (specPacket st cmd ps).length = 5 + ps.length := by simp [specPacket]; omega

/-- A packet with its fields is well formed, up to 250 parameters (30_encoding R101). -/
theorem specPacket_wellFormed {st cmd : Byte} {ps : List Byte} (h : ps.length ≤ 250) : WellFormedPacket (specPacket st cmd ps) := by
  refine ⟨by simp [specPacket], ?_, ?_⟩
  · rw [specPacket_length]; simp [specPacket]; omega
  · simp only [specPacket, List.dropLast_concat, List.getLast?_append]
    simp
    apply BitVec.eq_of_toNat_eq; simp; omega

/-- The validator on seven bytes is the three checks in order (40_framer R146). -/
theorem validate_eq (b : List Byte) (h : b.length = 7) : validate b = ⟨verdict b, verdictPayload b⟩ := by
  match b, h with
  | [b0,b1,b2,b3,b4,b5,b6], _ =>
    simp only [validate, verdictPayload, verdict, RESP_LEN, HEADER]
    by_cases h0 : b0 = 0xCA
    · by_cases h1 : b1 = 7
      · subst h0 h1
        have : (b6 = checksum [202, 7, b2, b3, b4, b5, b6] 6) ↔ b6.toNat = ((202:Byte).toNat + (7:Byte).toNat + b2.toNat + b3.toNat + b4.toNat + b5.toNat) % 256 := by
          rw [← BitVec.toNat_inj]
          simp [checksum, byteSum]
          omega
        by_cases h6 : b6 = checksum [202, 7, b2, b3, b4, b5, b6] 6
        · have := this.1 h6
          simp at this h6
          simp [← h6, ← this]
        · have h7 := mt this.2 h6
          simp at this h6 h7
          simp [h6, h7]
      · have : b1.toNat ≠ 7 := by intro h; apply h1; apply BitVec.eq_of_toNat_eq; simpa using h
        subst h0
        have h1 : ¬ b1 = 7#8 := h1
        simp [h1, this]
    · have h0 : ¬ b0 = 202#8 := h0
      simp [h0]

/-- The check on outbound bytes is the invariant of 30_encoding R101, with the five bytes every packet has. -/
theorem packetOk_iff (p : Packet) : packetOk p = true ↔ WellFormedPacket p ∧ 5 ≤ p.length := by
  simp only [packetOk, WellFormedPacket, Bool.and_eq_true, decide_eq_true_eq]
  have e1 : p[0]? = p.head? := by cases p <;> rfl
  have e2 : (p[p.length - 1]? = some (checksum p (p.length - 1))) ↔
      p.getLast? = some (BitVec.ofNat 8 (p.dropLast.map BitVec.toNat).sum) := by
    rw [List.getLast?_eq_getElem?, checksum, byteSum_eq, List.dropLast_eq_take]
  rw [e1, e2]
  tauto

/-- What the engine can emit: a well-formed write packet or read request (30_encoding R101 to R103). -/
theorem emitted_iff (p : Packet) : emitted p = true ↔ (WellFormedPacket p ∧ 5 ≤ p.length) ∧ WriteOrRead p := by
  rw [emitted, Bool.and_eq_true, packetOk_iff]
  simp [WriteOrRead, STATUS_WRITE, STATUS_READ]

end Sys2Proof.Machine
end

