-- ==== Sys2Proof/Laws/Step.lean ====
section
/-! SUPPORT. What a step can do, said once: the event it takes, or the agent that moves; every meaning answers a next
state. -/

namespace Sys2Proof.Machine

/-- The state with its draws counter at `d` and its schedule at `q`: what the agent chosen among several steps from
(60_exceptions R348). -/
abbrev State.atTurn (s : State) (d : Nat) (q : Schedule) : State := { s with tx := { s.tx with draws := d }, sched := q }

theorem State.atTurn_self (s : State) : s.atTurn s.tx.draws s.sched = s := rfl

/-! ### The three branches of a step -/

theorem step_cons {s : State} {e : Event} {rest : List Event} (h : s.events = e :: rest) :
    step s = handle e { s with events := rest } := by
  simp only [step, stepOnce, h]

theorem step_nil {s : State} (h : s.events = []) :
    step s = match movableAgents s with
      | [] => .fault .stuck
      | agents => oneOf agents s := by
  simp only [step, stepOnce, h] <;> rfl

/-- Enabledness does not read the draws or the schedule. -/
theorem enabled_atTurn (a : Agent) (s : State) (d : Nat) (q : Schedule) : enabled a (s.atTurn d q) = enabled a s := by
  cases a <;> rfl

theorem mem_movableAgents {a : Agent} {s : State} : a ∈ movableAgents s ↔ enabled a s = true := by
  cases a <;> simp [movableAgents]

theorem mem_readyAgents {a : Agent} {s : State} : a ∈ readyAgents s ↔ a ≠ .clock ∧ enabled a s = true := by
  cases a <;> simp [readyAgents]

/-- The agent chosen is one of those to choose from. -/
theorem turnOf_mem {agents : List Agent} (h : agents ≠ []) (s : State) : turnOf agents s ∈ agents := by
  unfold turnOf
  split
  · exact And.right ‹_›
  · have hlt : Config.freeTurn s.tx.draws % agents.length < agents.length := Nat.mod_lt _ (List.length_pos_of_ne_nil h)
    rw [List.getD_eq_getElem?_getD, List.getElem?_eq_getElem hlt]
    exact List.getElem_mem hlt

/-- The favoured agent, once its grace has run out, is chosen if it is among them (70_reset R389). -/
theorem turnOf_favoured {agents : List Agent} {s : State} (h : s.sched.grace = 0) (hm : s.sched.favoured ∈ agents) :
    turnOf agents s = s.sched.favoured := if_pos ⟨h, hm⟩

/-- One agent alone moves without a draw. -/
theorem oneOf_singleton (a : Agent) (s : State) : oneOf [a] s = agentStep a s := rfl

/-- One of a nonempty list of agents moves: alone, as it is; else the chosen one, with a draw used and the schedule moved
on. -/
theorem oneOf_cases {agents : List Agent} (h : agents ≠ []) (s : State) :
    (∃ a, agents = [a] ∧ oneOf agents s = agentStep a s) ∨
      oneOf agents s = agentStep (turnOf agents s) (s.atTurn (s.tx.draws + 1) (s.sched.next (s.tx.draws + 1))) := by
  match agents with
  | [] => exact absurd rfl h
  | [a] => exact .inl ⟨a, rfl, rfl⟩
  | _ :: _ :: _ => exact .inr rfl

/-- One of a nonempty list of agents moves, from the same state but for the draws and the schedule. -/
theorem oneOf_eq {agents : List Agent} (h : agents ≠ []) (s : State) :
    ∃ a ∈ agents, ∃ d q, s.tx.draws ≤ d ∧ d ≤ s.tx.draws + 1 ∧ oneOf agents s = agentStep a (s.atTurn d q) := by
  rcases oneOf_cases h s with ⟨a, rfl, e⟩ | e
  · exact ⟨a, by simp, s.tx.draws, s.sched, le_rfl, Nat.le_succ _, e⟩
  · exact ⟨_, turnOf_mem h s, _, _, Nat.le_succ _, le_rfl, e⟩

/-! ### Meanings -/

/-- Every instruction's meaning answers a next state, in every state. -/
theorem exec_next (i : Instr) (s : State) : ∃ t, exec i s = .next t := by
  cases i <;> exact ⟨_, rfl⟩

/-- The engine's agents and the inputs, as a next state may come about. -/
theorem agentStep_enabled {a : Agent} {s : State} (h : enabled a s = true) :
    agentStep a s = match a with
      | .collector => collectorStep s
      | .sequencer => .next (sequencerStep s)
      | .clock => .next { s with now := s.now + 1 } := by
  cases a <;> simp [agentStep, h]

theorem agentStep_disabled {a : Agent} {s : State} (h : enabled a s = false) : agentStep a s = .next s := by
  simp [agentStep, h]

/-- Everything a step that answers a next state can have done. -/
theorem step_cases {s t : State} (h : step s = .next t) :
    (∃ p bytes rest i, s.events = .instr p bytes :: rest ∧ decode p bytes = .ok i ∧
      exec i { s with events := rest } = .next t) ∨
    (∃ p bytes rest r, s.events = .instr p bytes :: rest ∧ decode p bytes = .error r ∧
      rejected r p bytes { s with events := rest } = .next t) ∨
    (∃ rest, s.events = .cancel :: rest ∧ t = cancel { s with events := rest }) ∨
    (∃ bytes rest, s.events = .device bytes :: rest ∧ t = arrive bytes { s with events := rest }) ∨
    (∃ rest, s.events = .reset :: rest ∧ t = resetEngine { s with events := rest }) ∨
    (∃ n rest, s.events = .tickTo n :: rest ∧ t = { s with events := rest }) ∨
    (∃ a d q evs, agentStep a { s.atTurn d q with events := evs } = .next t ∧ s.nextEvent ≠ some .reset) := by
  match hev : s.events with
  | [] =>
    rw [step_nil hev] at h
    iterate 6 right
    match hm : movableAgents s with
    | [] => simp [hm] at h
    | x :: xs =>
      rw [hm] at h
      obtain ⟨a, -, d, q, -, -, he⟩ := oneOf_eq (List.cons_ne_nil x xs) s
      refine ⟨a, d, q, s.events, ?_, by simp [State.nextEvent, hev]⟩
      rw [← h]; exact he.symm
  | e :: rest =>
    rw [step_cons hev] at h
    cases e with
    | instr p bytes =>
      simp only [handle, present] at h
      cases hd : decode p bytes with
      | ok i => rw [hd] at h; exact .inl ⟨p, bytes, rest, i, by simp, hd, h⟩
      | error r => rw [hd] at h; exact .inr (.inl ⟨p, bytes, rest, r, by simp, hd, h⟩)
    | cancel => iterate 2 right
                exact .inl ⟨rest, rfl, by simpa [handle] using h.symm⟩
    | device bytes => iterate 3 right
                      exact .inl ⟨bytes, rest, rfl, by simpa [handle] using h.symm⟩
    | reset => iterate 4 right
               exact .inl ⟨rest, rfl, by simpa [handle] using h.symm⟩
    | turn a => iterate 6 right
                exact ⟨a, s.tx.draws, s.sched, rest, h, by simp [State.nextEvent, hev]⟩
    | tickTo n =>
      simp only [handle] at h
      iterate 5 right
      match hm : agentsUntil n { s with events := rest } with
      | [] => rw [hm] at h; exact .inl ⟨n, rest, rfl, by simpa using h.symm⟩
      | x :: xs =>
        rw [hm] at h
        obtain ⟨a, -, d, q, -, -, he⟩ := oneOf_eq (List.cons_ne_nil x xs) { s with events := .tickTo n :: rest }
        refine .inr ⟨a, d, q, .tickTo n :: rest, ?_, by simp [State.nextEvent, hev]⟩
        rw [← h]; exact he.symm

/-- Runs compose. -/
theorem Reaches.trans {n m : Nat} {s t u : State} (h : Reaches n s t) (h' : Reaches m t u) : Reaches (n + m) s u := by
  induction h with
  | here => simpa using h'
  | there hs _ ih => rw [Nat.add_right_comm]; exact .there hs (ih h')

/-! ### Weak fairness (70_reset R389) -/

/-- How many times another agent becomes the favoured one before `a` is. -/
def turnsUntil (a : Agent) : Agent → Nat
  | .collector => match a with | .collector => 0 | .sequencer => 1 | .clock => 2
  | .sequencer => match a with | .collector => 2 | .sequencer => 0 | .clock => 1
  | .clock => match a with | .collector => 1 | .sequencer => 2 | .clock => 0

theorem Schedule.next_succ {q : Schedule} {g : Nat} (h : q.grace = g + 1) (d : Nat) : q.next d = { q with grace := g } := by
  simp only [Schedule.next, h]

theorem Schedule.next_zero {q : Schedule} (h : q.grace = 0) (d : Nat) :
    q.next d = { favoured := q.favoured.after, grace := Config.freeGrace d } := by
  simp only [Schedule.next, h]

theorem turnsUntil_after {a f : Agent} (h : f ≠ a) : turnsUntil a f = turnsUntil a f.after + 1 := by
  cases a <;> cases f <;> first | rfl | exact absurd rfl h

/-- With no event left and `a` enabled, `a` moves, or another enabled agent does and the schedule moves on; the latter not
where it is `a`'s turn to be favoured. -/
theorem step_turn {a : Agent} {s : State} (hev : s.events = []) (hen : enabled a s = true) :
    (∃ d q, step s = agentStep a (s.atTurn d q)) ∨
    ∃ b d, b ≠ a ∧ enabled b s = true ∧ step s = agentStep b (s.atTurn d (s.sched.next d)) ∧
      (s.sched.grace = 0 → s.sched.favoured ≠ a) := by
  have ha : a ∈ movableAgents s := mem_movableAgents.2 hen
  have hne : movableAgents s ≠ [] := List.ne_nil_of_mem ha
  have hstep : step s = oneOf (movableAgents s) s := by
    rw [step_nil hev]
    cases hm : movableAgents s with
    | nil => exact absurd hm hne
    | cons x xs => rfl
  rcases oneOf_cases hne s with ⟨b, hb, e⟩ | e
  · rw [hb, List.mem_singleton] at ha
    subst ha
    exact .inl ⟨s.tx.draws, s.sched, hstep.trans e⟩
  · by_cases hb : turnOf (movableAgents s) s = a
    · rw [hb] at e
      exact .inl ⟨_, _, hstep.trans e⟩
    · exact .inr ⟨_, _, hb, mem_movableAgents.1 (turnOf_mem hne s), hstep.trans e,
        fun hg hf => hb ((turnOf_favoured hg (hf ▸ ha)).trans hf)⟩

/-- An agent whose step stays enabled while the others move is taken in the end: with no event left, from every state
where `P` holds some number of steps leads to one where `P` holds and the agent moves. `P` is what makes it enabled and
what the others' steps keep. -/
theorem turn_comes {P : State → Prop} {a : Agent} (hev : ∀ s, P s → s.events = []) (hen : ∀ s, P s → enabled a s = true)
    (hkeep : ∀ s b d q, P s → b ≠ a → enabled b s = true →
      ∃ t, agentStep b (s.atTurn d q) = .next t ∧ P t ∧ t.sched = q) :
    ∀ s, P s → ∃ n u d q, Reaches n s u ∧ P u ∧ step u = agentStep a (u.atTurn d q) := by
  -- while the grace lasts, each choice leaves one less
  have pass : ∀ k g, (∀ s, turnsUntil a s.sched.favoured = k → s.sched.grace = g → P s →
      ∃ n u d q, Reaches n s u ∧ P u ∧ step u = agentStep a (u.atTurn d q)) →
      ∀ s, turnsUntil a s.sched.favoured = k → s.sched.grace = g + 1 → P s →
      ∃ n u d q, Reaches n s u ∧ P u ∧ step u = agentStep a (u.atTurn d q) := by
    intro k g ih s hk hg hp
    rcases step_turn (hev s hp) (hen s hp) with ⟨d, q, e⟩ | ⟨b, d, hb, hbe, e, -⟩
    · exact ⟨0, s, d, q, .here s, hp, e⟩
    · obtain ⟨t, ht, hpt, hq⟩ := hkeep s b d (s.sched.next d) hp hb hbe
      rw [Schedule.next_succ hg] at hq
      obtain ⟨n, u, d', q', hr, hu⟩ := ih t (by rw [hq]; exact hk) (by rw [hq]) hpt
      exact ⟨n + 1, u, d', q', .there (e.trans ht) hr, hu⟩
  suffices h : ∀ k g s, turnsUntil a s.sched.favoured = k → s.sched.grace = g → P s →
      ∃ n u d q, Reaches n s u ∧ P u ∧ step u = agentStep a (u.atTurn d q) from fun s => h _ _ s rfl rfl
  intro k
  induction k with
  | zero =>
    intro g
    induction g with
    | zero =>
      intro s hk hg hp
      rcases step_turn (hev s hp) (hen s hp) with ⟨d, q, e⟩ | ⟨b, d, -, -, -, hf⟩
      · exact ⟨0, s, d, q, .here s, hp, e⟩
      · exact absurd hk (by rw [turnsUntil_after (hf hg)]; omega)
    | succ g ih => exact pass 0 g ih
  | succ k ihk =>
    intro g
    induction g with
    | zero =>
      intro s hk hg hp
      rcases step_turn (hev s hp) (hen s hp) with ⟨d, q, e⟩ | ⟨b, d, hb, hbe, e, hf⟩
      · exact ⟨0, s, d, q, .here s, hp, e⟩
      · obtain ⟨t, ht, hpt, hq⟩ := hkeep s b d (s.sched.next d) hp hb hbe
        rw [Schedule.next_zero hg] at hq
        rw [turnsUntil_after (hf hg)] at hk
        obtain ⟨n, u, d', q', hr, hu⟩ := ihk _ t (by rw [hq]; simpa using hk) rfl hpt
        exact ⟨n + 1, u, d', q', .there (e.trans ht) hr, hu⟩
    | succ g ih => exact pass (k + 1) g ih

end Sys2Proof.Machine
end

