-- ==== Sys2Proof/Laws/Collector.lean ====
section
/-! SUPPORT. What the collector does: storing, the poll, and every end of a collection. -/

namespace Sys2Proof.Machine

/-- What a byte of the buffer is after a store (41_collector R183). -/
theorem storeBytes_get (bs : List Byte) (buf : Vector (Option Byte) 7) (i : Nat) (j : Fin 7) :
    (storeBytes buf i bs)[j] = if i ≤ j.val ∧ j.val < i + bs.length then bs[j.val - i]? else buf[j] := by
  induction bs generalizing buf i with
  | nil => simp [storeBytes]
  | cons b bs ih =>
    rw [storeBytes, ih]
    simp only [Fin.getElem_fin, List.length_cons]
    by_cases h1 : i + 1 ≤ j.val ∧ j.val < i + 1 + bs.length
    · rw [if_pos h1, if_pos (by omega)]
      have : j.val - i = (j.val - (i+1)) + 1 := by omega
      rw [this, List.getElem?_cons_succ]
    · rw [if_neg h1]
      by_cases h2 : i = j.val
      · subst h2; simp
      · rw [if_neg (by omega), Vector.getElem_setIfInBounds_ne]
        omega

/-- Seven written bytes are read as seven bytes (10_state R39). -/
theorem writtenBytes_some {buf : Vector (Option Byte) 7} (h : ∀ i : Fin 7, buf[i].isSome = true) :
    ∃ b, writtenBytes buf = some b ∧ b.length = 7 ∧ ∀ i : Fin 7, buf[i] = b[i.val]? := by
  obtain ⟨b0, h0⟩ := Option.isSome_iff_exists.1 (h 0)
  obtain ⟨b1, h1⟩ := Option.isSome_iff_exists.1 (h 1)
  obtain ⟨b2, h2⟩ := Option.isSome_iff_exists.1 (h 2)
  obtain ⟨b3, h3⟩ := Option.isSome_iff_exists.1 (h 3)
  obtain ⟨b4, h4⟩ := Option.isSome_iff_exists.1 (h 4)
  obtain ⟨b5, h5⟩ := Option.isSome_iff_exists.1 (h 5)
  obtain ⟨b6, h6⟩ := Option.isSome_iff_exists.1 (h 6)
  simp only [Fin.getElem_fin] at h0 h1 h2 h3 h4 h5 h6
  refine ⟨[b0,b1,b2,b3,b4,b5,b6], ?_, rfl, ?_⟩
  · unfold writtenBytes
    simp at *
    simp [*]
  · intro i
    fin_cases i <;> first | exact h0 | exact h1 | exact h2 | exact h3 | exact h4 | exact h5 | exact h6

theorem accumulate_eq (s : State) : accumulate s = { s.afterRead with
    colBuf := storeBytes s.colBuf s.colCount (s.nextChunk.take (7 - s.colCount))
    colCount := s.colCount + (s.nextChunk.take (7 - s.colCount)).length } := rfl

/-- The end of a completed collection (41_collector R184, R188). -/
theorem collectFinish_complete {s : State} {b : List Byte} (ho : s.colOwner ≠ .none) (hb : b.length = 7) :
    collectFinish (.complete b) { s with colPhase := .idle } = (s.collected b).released := by
  rw [collectFinish_eq]; simp only [validate_eq b hb]
  unfold State.collected State.released
  obtain ⟨cfg, conn, rdBusy, colPhase, colCount, colBuf, colDeadline, colWake, colOwner, now, cancelPend, seqPhase, seqWake, seqCode, seqLum, fault, txLog, tx, results, events, sched⟩ := s
  cases colOwner <;> first | exact absurd rfl ho | rfl

/-- The end of a timed-out collection (41_collector R185, R188). -/
theorem collectFinish_timeout {s : State} (ho : s.colOwner ≠ .none) :
    collectFinish .timeout { s with colPhase := .idle } = (s.withResult .timeout s.colOwner.op []).released := by
  rw [collectFinish_eq]
  unfold State.released
  obtain ⟨cfg, conn, rdBusy, colPhase, colCount, colBuf, colDeadline, colWake, colOwner, now, cancelPend, seqPhase, seqWake, seqCode, seqLum, fault, txLog, tx, results, events, sched⟩ := s
  cases colOwner <;> first | exact absurd rfl ho | rfl

/-- The end of an interrupted collection (41_collector R188, R190). -/
theorem collectFinish_interrupted {s : State} (ho : s.colOwner ≠ .none) :
    collectFinish .interrupted { s with colPhase := .idle } = (s.withResult .interrupted s.colOwner.op []).released := by
  rw [collectFinish_eq]
  unfold State.released
  obtain ⟨cfg, conn, rdBusy, colPhase, colCount, colBuf, colDeadline, colWake, colOwner, now, cancelPend, seqPhase, seqWake, seqCode, seqLum, fault, txLog, tx, results, events, sched⟩ := s
  cases colOwner <;> first | exact absurd rfl ho | rfl

/-- The buffer after a poll's read. -/
theorem poll_buffer {s : State} (hw : ∀ i : Fin 7, s.colBuf[i].isSome = true ↔ i.val < s.colCount)
    (hc : s.colCount ≤ 7) (h7 : 7 ≤ s.colCount + s.nextChunk.length) :
    ∃ b, writtenBytes (storeBytes s.colBuf s.colCount (s.nextChunk.take (7 - s.colCount))) = some b ∧ b.length = 7 ∧
      (∀ i : Fin 7, (storeBytes s.colBuf s.colCount (s.nextChunk.take (7 - s.colCount)))[i] = b[i.val]?) ∧
      ∀ i : Fin 7, b[i.val]? = if i.val < s.colCount then s.colBuf[i] else s.nextChunk[i.val - s.colCount]? := by
  have hlen : (s.nextChunk.take (7 - s.colCount)).length = 7 - s.colCount := by simp; omega
  have hget : ∀ i : Fin 7, (storeBytes s.colBuf s.colCount (s.nextChunk.take (7 - s.colCount)))[i] =
      if i.val < s.colCount then s.colBuf[i] else s.nextChunk[i.val - s.colCount]? := by
    intro i
    rw [storeBytes_get, hlen]
    by_cases h : i.val < s.colCount
    · rw [if_neg (by omega), if_pos h]
    · rw [if_pos (by omega), if_neg h, List.getElem?_take_of_lt (by omega)]
  have hall : ∀ i : Fin 7, (storeBytes s.colBuf s.colCount (s.nextChunk.take (7 - s.colCount)))[i].isSome = true := by
    intro i
    rw [hget]
    split
    · rw [hw]; assumption
    · rw [List.getElem?_eq_getElem (by omega)]; rfl
  obtain ⟨b, hb, hbl, hbg⟩ := writtenBytes_some hall
  exact ⟨b, hb, hbl, hbg, fun i => by rw [← hbg, hget]⟩

/-- A poll that completes the buffer (41_collector R184). -/
theorem poll_complete {s : State} {b : List Byte} (hc : s.colCount ≤ 7) (h7 : 7 ≤ s.colCount + s.nextChunk.length)
    (ho : s.colOwner ≠ .none) (hb : writtenBytes (storeBytes s.colBuf s.colCount (s.nextChunk.take (7 - s.colCount))) = some b)
    (hbl : b.length = 7) :
    collectPoll s = .next { (s.afterRead.collected b).released with colCount := 7, colBuf := storeBytes s.colBuf s.colCount (s.nextChunk.take (7 - s.colCount)) } := by
  have hlen : (s.nextChunk.take (7 - s.colCount)).length = 7 - s.colCount := by simp; omega
  have h7' : s.colCount + (7 - s.colCount) = 7 := by omega
  unfold collectPoll
  simp only [accumulate_eq, hlen, h7', if_true, hb]
  refine (congrArg Host.Outcome.next (collectFinish_complete (s := { s.afterRead with colCount := 7, colBuf := storeBytes s.colBuf s.colCount (s.nextChunk.take (7 - s.colCount)) }) (by exact ho) hbl)).trans ?_
  unfold State.collected
  obtain ⟨cfg, conn, rdBusy, colPhase, colCount, colBuf, colDeadline, colWake, colOwner, now, cancelPend, seqPhase, seqWake, seqCode, seqLum, fault, txLog, tx, results, events, sched⟩ := s
  cases colOwner <;> rfl

/-- The state after a poll that leaves the buffer short, before its outcome is decided. -/
def shortRead (s : State) : State := { s.afterRead with
    colBuf := storeBytes s.colBuf s.colCount s.nextChunk, colCount := s.colCount + s.nextChunk.length }

/-- A poll that leaves the buffer short (41_collector R185, R186). -/
theorem poll_short {s : State} (hs : s.colCount + s.nextChunk.length < 7) :
    collectPoll s = .next (if s.now < s.colDeadline then collectorWait (shortRead s)
      else collectFinish .timeout { shortRead s with colPhase := .idle }) := by
  have hk : s.nextChunk.take (7 - s.colCount) = s.nextChunk := List.take_of_length_le (by omega)
  have h : accumulate s = shortRead s := by simp only [accumulate_eq, hk]; rfl
  unfold collectPoll
  simp only [h]
  have : (shortRead s).colCount ≠ 7 := by simp only [shortRead]; omega
  rw [if_neg this]
  show (if s.now < s.colDeadline then _ else _) = _
  split <;> rfl

/-- The collector's turn with a poll due. -/
theorem step_turn_collector {s : State} {rest} (hev : s.events = .turn .collector :: rest) (hf : s.fault = none) (hp : s.colPhase = .poll) :
    step s = collectPoll { s with events := rest } := by
  rw [step_cons hev]
  simp only [handle]
  rw [agentStep_enabled (by simp [enabled, collectorDue, hp, hf])]
  simp only [collectorStep, hp]

/-- The end of a collection writes the results, the lock and the owner only. -/
theorem collectFinish_fields (r : CollectEnd) (s : State) :
    ∃ res rd ow, collectFinish r s = { s with results := s.results ++ res, rdBusy := rd, colOwner := ow } ∧ res.length ≤ 1 := by
  rw [collectFinish_eq]
  split
  · exact ⟨[], s.rdBusy, s.colOwner, by simp, by simp⟩
  all_goals split <;> exact ⟨[_], false, .none, rfl, by simp⟩

/-- fields the collector writes -/
theorem collectorStep_frame {s t : State} (h : collectorStep s = .next t) :
    t.cfg = s.cfg ∧ t.conn = s.conn ∧ t.now = s.now ∧ t.txLog = s.txLog ∧ t.fault = s.fault ∧ t.seqPhase = s.seqPhase ∧ t.seqWake = s.seqWake ∧
    t.seqCode = s.seqCode ∧ t.seqLum = s.seqLum ∧ t.events = s.events ∧ (t.tx = s.tx ∨ t.tx = s.afterRead.tx) := by
  unfold collectorStep at h
  split at h
  · cases h; simp
  · unfold collectPoll at h
    simp only at h
    split at h
    · split at h
      · cases h
        obtain ⟨res, rd, ow, he, -⟩ := collectFinish_fields (.complete _) { accumulate s with colPhase := .idle }
        rw [he]; exact ⟨rfl, rfl, rfl, rfl, rfl, rfl, rfl, rfl, rfl, rfl, .inr rfl⟩
      · simp at h
    · split at h
      · cases h
        unfold collectorWait
        split
        · obtain ⟨res, rd, ow, he, -⟩ := collectFinish_fields (.interrupted) { accumulate s with cancelPend := false, colPhase := .idle }
          rw [he]; exact ⟨rfl, rfl, rfl, rfl, rfl, rfl, rfl, rfl, rfl, rfl, .inr rfl⟩
        · exact ⟨rfl, rfl, rfl, rfl, rfl, rfl, rfl, rfl, rfl, rfl, .inr rfl⟩
      · cases h
        obtain ⟨res, rd, ow, he, -⟩ := collectFinish_fields (.timeout) { accumulate s with colPhase := .idle }
        rw [he]; exact ⟨rfl, rfl, rfl, rfl, rfl, rfl, rfl, rfl, rfl, rfl, .inr rfl⟩
  · split at h <;> cases h <;> simp

/-- What a poll leaves: one `TxRead` done, no poll due, and where it waits, the wake one interval ahead (41_collector R182,
R186). -/
theorem collectPoll_leaves {s t : State} (h : collectPoll s = .next t) :
    t.tx = s.afterRead.tx ∧ t.colPhase ≠ .poll ∧ (t.colPhase = .wait → t.colWake = s.now + s.cfg.pollMs) ∧
    t.sched = s.sched := by
  unfold collectPoll at h
  simp only at h
  split at h
  · split at h
    · cases h
      obtain ⟨res, rd, ow, he, -⟩ := collectFinish_fields (.complete _) { accumulate s with colPhase := .idle }
      rw [he]; exact ⟨rfl, by simp, by simp, rfl⟩
    · simp at h
  · split at h
    · cases h
      unfold collectorWait
      split
      · obtain ⟨res, rd, ow, he, -⟩ := collectFinish_fields (.interrupted) { accumulate s with cancelPend := false, colPhase := .idle }
        rw [he]; exact ⟨rfl, by simp, by simp, rfl⟩
      · exact ⟨rfl, by simp, fun _ => rfl, rfl⟩
    · cases h
      obtain ⟨res, rd, ow, he, -⟩ := collectFinish_fields (.timeout) { accumulate s with colPhase := .idle }
      rw [he]; exact ⟨rfl, by simp, by simp, rfl⟩

end Sys2Proof.Machine
end

