-- ==== Sys2Proof/Laws/Operands.lean ====
section
/-! SUPPORT. What the operand forms read: words as bytes, hex strings, luminance strings, ranged integers. -/

namespace Sys2Proof.Machine

/-- The four bytes of a word on the port (30_encoding R116). -/
theorem bytesOfWord_eq (w : Word) : bytesOfWord w = leBytes w := by
  simp only [bytesOfWord, leBytes, List.cons.injEq, and_true]
  refine ⟨?_, ?_, ?_, ?_⟩ <;> (apply BitVec.eq_of_toNat_eq; simp [BitVec.extractLsb'_toNat, Nat.shiftRight_eq_div_pow])

/-- A byte is read as a hex digit of the value it has (42_quantizer R223). -/
theorem hexDigit_some {c : Byte} {n : Nat} : hexDigit c = some n ↔ HexValue c n := by
  unfold hexDigit HexValue
  simp only
  split_ifs <;> simp <;> omega

theorem hexDigit_of_value {c v} (h : HexValue c v) : hexDigit c = some v := by
  unfold hexDigit
  rcases h with ⟨h1,h2,h3⟩ | ⟨h1,h2,h3⟩ | ⟨h1,h2,h3⟩
  · simp [h1,h2,h3]
  · have : ¬ (c.toNat ≤ 0x39) := by omega
    simp [h1,h2,this]; omega
  · have : ¬ (c.toNat ≤ 0x39) := by omega
    have : ¬ (c.toNat ≤ 0x46) := by omega
    simp [*]; omega

theorem value_of_hexDigit {c v} (h : hexDigit c = some v) : HexValue c v := by
  simp only [hexDigit] at h
  simp only [HexValue]
  split at h
  · simp at h; omega
  · split at h
    · simp at h; omega
    · split at h
      · simp at h; omega
      · simp at h

theorem hexPair_of {c1 c2 v1 v2} (h1 : HexValue c1 v1) (h2 : HexValue c2 v2) :
   hexPair c1 c2 = some (BitVec.ofNat 8 (16*v1+v2)) := by
  simp [hexPair, hexDigit_of_value h1, hexDigit_of_value h2]

/-- A string is read as a colour exactly when it names that colour (42_quantizer R222). -/
theorem parseHex_eq_some {str : List Byte} {r g b : Byte} : parseHex str = some (r, g, b) ↔ NamesColour str r g b := by
  constructor
  · intro h
    unfold parseHex at h
    split at h
    · rename_i c1 c2 c3 c4 c5 c6
      have hp : ∀ {c d : Byte} {x}, hexPair c d = some x → ∃ v w, HexValue c v ∧ HexValue d w ∧ x = BitVec.ofNat 8 (16*v+w) := by
        intro c d x h
        unfold hexPair at h
        split at h
        · rename_i v w hv hw
          exact ⟨v, w, value_of_hexDigit hv, value_of_hexDigit hw, by simpa using h.symm⟩
        · simp at h
      split at h
      · rename_i r' g' b' h1 h2 h3
        obtain ⟨v1, v2, a1, a2, e1⟩ := hp h1
        obtain ⟨v3, v4, a3, a4, e2⟩ := hp h2
        obtain ⟨v5, v6, a5, a6, e3⟩ := hp h3
        simp only [Option.some.injEq, Prod.mk.injEq] at h
        obtain ⟨rfl, rfl, rfl⟩ := h
        exact ⟨_, _, _, _, _, _, _, _, _, _, _, _, rfl, a1, a2, a3, a4, a5, a6, e1, e2, e3⟩
      · simp at h
    · simp at h
  · rintro ⟨_, _, _, _, _, _, _, _, _, _, _, _, rfl, h1, h2, h3, h4, h5, h6, rfl, rfl, rfl⟩
    simp only [parseHex, hexPair_of h1 h2, hexPair_of h3 h4, hexPair_of h5 h6]

/-- A string that names no colour is refused (42_quantizer R222). -/
theorem parseHex_eq_none {str : List Byte} (h : ∀ r g b, ¬ NamesColour str r g b) : parseHex str = none := by
  match hp : parseHex str with
  | none => rfl
  | some (r, g, b) => exact absurd (parseHex_eq_some.1 hp) (h r g b)

/-- Reading digits from the left gives their decimal value (44_controller R295). -/
theorem foldl_digits (l : List Byte) (acc : Nat) :
    l.foldl (fun acc c => 10 * acc + (c.toNat - 0x30)) acc = acc * 10 ^ l.length + Nat.ofDigits 10 (l.map fun c => c.toNat - 0x30).reverse := by
  induction l generalizing acc with
  | nil => simp
  | cons c cs ih =>
    simp only [List.foldl_cons, ih, List.map_cons, List.reverse_cons, Nat.ofDigits_append, List.length_cons, List.length_reverse, List.length_map, Nat.ofDigits_singleton]
    ring

/-- A luminance string is read as a brightness exactly when it names it (44_controller R295). -/
theorem parseLuminance_level (l : List Byte) (h : l ≠ OFF) (v : Nat) : parseLuminance l = some (.level v) ↔ NamesBrightness l v := by
  unfold parseLuminance NamesBrightness
  rw [if_neg h]
  have hd : decimalValue l = _ := foldl_digits l 0
  simp only [Nat.zero_mul, Nat.zero_add] at hd
  rw [hd]
  have ha : (l.all isDecimal = true) ↔ ∀ c ∈ l, 0x30 ≤ c.toNat ∧ c.toNat ≤ 0x39 := by
    simp [isDecimal]
  by_cases h1 : l.all isDecimal = true
  · rw [← ha]
    simp only [h1, BRIGHTNESS_MAX]
    cases l with
    | nil => simp
    | cons c cs =>
      simp only [List.isEmpty_cons, Bool.not_true, Bool.or_self, Bool.false_eq_true, if_false]
      split
      · rename_i hx
        constructor
        · intro e; simp only [Option.some.injEq, Luminance.level.injEq] at e
          exact ⟨by simp, trivial, e.symm, e ▸ hx⟩
        · rintro ⟨-, -, h, -⟩; rw [h]
      · rename_i hx
        constructor
        · simp
        · rintro ⟨-, -, rfl, h⟩; exact absurd h hx
  · rw [← ha]; simp [h1]

theorem not_namesBrightness_off (v : Nat) : ¬ NamesBrightness OFF v := by
  rintro ⟨-, h, -⟩
  have := h 0x6F (by simp [OFF])
  revert this; decide

/-- A luminance string that is neither "off" nor a brightness is refused (44_controller R295). -/
theorem parseLuminance_eq_none {l : List Byte} (h : l ≠ [0x6F, 0x66, 0x66]) (hv : ∀ v, ¬ NamesBrightness l v) : parseLuminance l = none := by
  match hp : parseLuminance l with
  | none => rfl
  | some .off =>
    exfalso; unfold parseLuminance at hp; rw [if_neg h] at hp; split_ifs at hp <;> simp at hp
  | some (.level v) => exact absurd ((parseLuminance_level l h v).1 hp) (hv v)

/-- The literal "off" (44_controller R294). -/
theorem parseLuminance_off : parseLuminance [0x6F, 0x66, 0x66] = some .off := by decide

/-- A luminance string that names a brightness is read as it. -/
theorem parseLuminance_of_names {l : List Byte} {v : Nat} (h : NamesBrightness l v) : parseLuminance l = some (.level v) :=
  (parseLuminance_level l (fun e => not_namesBrightness_off v (e ▸ h)) v).2 h

/-- A luminance that is read is at most 100 (10_state R45). -/
theorem parseLuminance_le {l : List Byte} {v : Nat} (h : parseLuminance l = some (.level v)) : v ≤ 100 := by
  unfold parseLuminance at h
  split_ifs at h
  all_goals simp at h
  subst h; assumption

/-- The range check (44_controller R280). -/
theorem inRange_iff (v : Word) (hi : Int) : inRange v hi = true ↔ 0 ≤ v.toInt ∧ v.toInt ≤ hi := by
  simp [inRange]

theorem toInt_nonneg {v : Word} (h : 0 ≤ v.toInt) : v.toInt = v.toNat := by
  simp only [BitVec.toInt] at *; split at h <;> first | (simp [*]; done) | (exfalso; have := v.isLt; omega)

theorem ofInt_toInt {v : Word} (h : 0 ≤ v.toInt) : BitVec.ofInt 8 v.toInt = BitVec.ofNat 8 v.toNat := by
  rw [toInt_nonneg h]; simp

/-- Out of range, a ranged write only delivers a precondition violation (44_controller R280). -/
theorem rangedWrite_out {v : Word} {hi : Int} (h : ¬ (0 ≤ v.toInt ∧ v.toInt ≤ hi)) (op cmd : Byte) (f : Word → List Byte) (s : State) :
    rangedWrite op cmd hi f v s = s.withResult .preconditionViolation op [] := by
  rw [rangedWrite, if_neg (by rwa [inRange_iff])]; rfl

/-- In range, a ranged write is the command write (44_controller R280). -/
theorem rangedWrite_in {v : Word} {hi : Int} (h : 0 ≤ v.toInt ∧ v.toInt ≤ hi) (op cmd : Byte) (f : Word → List Byte) (s : State) :
    rangedWrite op cmd hi f v s = answer op (cmdWrite cmd (f v) s) := by
  rw [rangedWrite, if_pos (by rwa [inRange_iff])]

end Sys2Proof.Machine
end

