-- ==== Sys2Proof/Laws/Decode.lean ====
section
/-! SUPPORT. When each step of the decoder succeeds, and that the fields read back. -/

namespace Sys2Proof.Machine

/-- When a request with `n` data bytes decodes (30_encoding R113). -/
theorem withData_ok {n data i j} : withData n data i = .ok j ↔ data.length = n ∧ i = j := by
  unfold withData; split <;> simp [*]

/-- When a "must" of the layouts passes (30_encoding R118). -/
theorem mustHold_ok {op l r} {j : Instr} : mustHold op l r = .ok j ↔ l = true ∧ r = .ok j := by
  unfold mustHold; split <;> simp [*]

/-- When a word operand decodes (30_encoding R116). -/
theorem withInt32_ok {data f} {j : Instr} : withInt32 data f = .ok j ↔ ∃ b0 b1 b2 b3, data = [b0,b1,b2,b3] ∧ f (wordOfBytes b0 b1 b2 b3) = j := by
  unfold withInt32; split <;> simp
  rename_i h; intro a b c d e; exact absurd e (by intro e; exact h _ _ _ _ e)

/-- When a flag operand decodes (30_encoding R116). -/
theorem withFlag_ok {op c n data f} {j : Instr} : withFlag op c n data f = .ok j ↔ ∃ b, c = byteOfBool b ∧ n = 0 ∧ data = [] ∧ f b = j := by
  unfold withFlag flagValue
  split_ifs with h1 h2
  all_goals simp only [mustHold_ok, withData_ok, Bool.exists_bool, byteOfBool]
  · simp at h1; subst h1; simp
  · simp at h2; subst h2; simp
  · simp at h1 h2; simp [h1, h2]

theorem count_of {n : Byte} {data : List Byte} (h : data.length = n.toNat) : countByte data = n ∧ data.length ≤ 255 := by
  constructor
  · apply BitVec.eq_of_toNat_eq; simp [countByte, h]
  · have := n.isLt; omega

theorem count_toNat {l : List Byte} (h : l.length ≤ 255) : (countByte l).toNat = l.length := by
  simp [countByte]; omega

theorem word_roundtrip (w : Word) : wordOfBytes (BitVec.ofNat 8 w.toNat) (BitVec.ofNat 8 (w.toNat / 256)) (BitVec.ofNat 8 (w.toNat / 65536)) (BitVec.ofNat 8 (w.toNat / 16777216)) = w := by
  apply BitVec.eq_of_toNat_eq
  have := w.isLt
  simp [wordOfBytes]; omega

theorem bytes_word (b0 b1 b2 b3 : Byte) : bytesOfWord (wordOfBytes b0 b1 b2 b3) = [b0,b1,b2,b3] := by
  simp only [bytesOfWord, wordOfBytes, List.cons.injEq, and_true]
  refine ⟨?_,?_,?_,?_⟩ <;> (apply BitVec.eq_of_toNat_eq; simp; omega)

theorem word_decode (w : Word) (f : Word → Instr) : withInt32 (bytesOfWord w) f = .ok (f w) := by
  simp only [bytesOfWord, withInt32, word_roundtrip]

end Sys2Proof.Machine
end

