-- ==== Sys2Proof/Laws/Quantizer.lean ====
section
/-! SUPPORT. What the quantizer selects, and what a legal palette gives. -/

namespace Sys2Proof.Machine

theorem sqDiff_eq (a b : Byte) : sqDiff a b = ((a.toNat : Int) - b.toNat)^2 := by simp [sqDiff, sq]

theorem distance_eq (p r g b i) : distance p r g b i = squaredDistance p r g b i := by
  simp [distance, squaredDistance, sqDiff_eq]

/-- The fold over the entries selects the nearest, the earliest on a tie (42_quantizer R225). -/
theorem closest_nearest (p r g b) : Nearest p r g b (closest p r g b) := by
  have key : ∀ (f : Fin 15 → Int) , let i := laterEntries.foldl (fun best i => if f i < f best then i else best) 0
      (∀ j, f i ≤ f j) ∧ ∀ j, j < i → f i < f j := by
    intro f
    have gen : ∀ (n : Nat) (hn : n ≤ 14), ∀ best : Fin 15,
        (best.val ≤ n ∧ (∀ j : Fin 15, j.val ≤ n → f best ≤ f j) ∧ ∀ j : Fin 15, j < best → f best < f j) →
        let i := (laterEntries.drop n).foldl (fun best i => if f i < f best then i else best) best
        (∀ j, f i ≤ f j) ∧ ∀ j, j < i → f i < f j := by
      intro n hn
      induction hk : 14 - n generalizing n with
      | zero =>
        intro best hb
        have : n = 14 := by omega
        subst this
        simp [laterEntries]
        exact ⟨fun j => hb.2.1 j (by omega), hb.2.2⟩
      | succ k ih =>
        intro best ⟨h1, h2, h3⟩
        have hn' : n < 14 := by omega
        have hd : laterEntries.drop n = (⟨n+1, by omega⟩ : Fin 15) :: laterEntries.drop (n+1) := by
          have := List.drop_eq_getElem_cons (l := laterEntries) (i := n) (by simp [laterEntries]; omega)
          rw [this]
          congr 1
          clear ih h1 h2 h3 hk this
          interval_cases n <;> rfl
        rw [hd, List.foldl_cons]
        apply ih (n+1) (by omega) (by omega)
        split
        · rename_i hlt
          refine ⟨by simp, ?_, ?_⟩
          · intro j hj
            rcases Nat.lt_or_eq_of_le hj with h | h
            · exact le_of_lt (lt_of_lt_of_le hlt (h2 j (by omega)))
            · have : j = ⟨n+1, by omega⟩ := Fin.ext h
              rw [this]
          · intro j hj
            have : j.val < n+1 := hj
            exact lt_of_lt_of_le hlt (h2 j (by omega))
        · rename_i hlt
          refine ⟨by omega, ?_, h3⟩
          intro j hj
          rcases Nat.lt_or_eq_of_le hj with h | h
          · exact h2 j (by omega)
          · have : j = ⟨n+1, by omega⟩ := Fin.ext h
            rw [this]; omega
    have := gen 0 (by omega) 0 ⟨by simp, by intro j hj; have : j = 0 := Fin.ext (by simpa using hj); rw [this], by intro j hj; exact absurd hj (by simp)⟩
    simpa using this
  have := key (squaredDistance p r g b)
  simpa [closest, distance_eq, Nearest] using this

/-- At most one entry is the nearest (42_quantizer R225). -/
theorem nearest_unique {p r g b i j} (hi : Nearest p r g b i) (hj : Nearest p r g b j) : i = j := by
  rcases lt_trichotomy i j with h | h | h
  · have := hj.2 i h; have := hi.1 j; omega
  · exact h
  · have := hi.2 j h; have := hj.1 i; omega

/-- The conditions K1 to K6, one by one (42_quantizer R221). -/
theorem Palette.ok_parts {p : Palette} (h : p.ok = true) : p[0] = ⟨0x00, 0x80, 0x00, 0x00⟩ ∧ p[14].code = 0x0F ∧
  (∀ i : Fin 14, p[14].normSq < p[i.val].normSq) ∧ (∀ i : Fin 15, i ≠ 0 → ¬(p[i].r = 0x7F ∧ p[i].g = 0x00 ∧ p[i].b = 0x00)) ∧
  (∀ i j : Fin 15, i ≠ j → p[i].code ≠ p[j].code) ∧ (∀ i : Fin 15, p[i].code.toNat ≤ 219) := by
  simpa only [Palette.ok, Bool.and_eq_true, decide_eq_true_eq, and_assoc] using h

/-- The conditions of a configuration, one by one (70_reset R383). -/
theorem Config.ok_parts {c : Config} (h : c.ok = true) : c.palette.ok = true ∧ c.powerOnParams.length ≤ 250 ∧ c.powerOffParams.length ≤ 250 ∧ 1 ≤ c.maxChunk ∧ c.maxParams = 250 := by
  simpa [Config.ok, and_assoc] using h

end Sys2Proof.Machine
end

