-- ==== Sys2Proof/Laws/Exec.lean ====
section
/-! SUPPORT. What an instruction, a rejected request, the sequencer and the cancel can do, each said once. -/

namespace Sys2Proof.Machine

/-- A faulted engine runs nothing; a response's bytes still arrive (60_exceptions R353). -/
theorem exec_faulted (i : Instr) (s : State) (f) (h : s.fault = some f) :
    exec i s = .next s ∨ ∃ b, exec i s = .next (arrive b s) := by
  cases i
  case pktResponse => exact .inr ⟨_, rfl⟩
  all_goals left; simp only [exec]
  all_goals first
    | (unfold execCksum; rw [State.unlessFaulted_of_some h])
    | (unfold execEncf; rw [State.unlessFaulted_of_some h])
    | (unfold execEncw; rw [State.unlessFaulted_of_some h])
    | (unfold execEncr; rw [State.unlessFaulted_of_some h])
    | (unfold execDecr; rw [State.unlessFaulted_of_some h])
    | (unfold execCollect; rw [State.unlessFaulted_of_some h])
    | (unfold execQrgb; rw [State.unlessFaulted_of_some h])
    | (unfold execQhex; rw [State.unlessFaulted_of_some h])
    | (unfold execWrcmd; rw [State.unlessFaulted_of_some h])
    | (unfold execRdcmd; rw [State.unlessFaulted_of_some h])
    | (unfold execConnect; rw [State.unlessFaulted_of_some h])
    | (unfold execDisconnect; rw [State.unlessFaulted_of_some h])
    | (unfold execTurnon; rw [State.unlessFaulted_of_some h])
    | (unfold execTurnoff; rw [State.unlessFaulted_of_some h])
    | (unfold execSetmode; rw [State.unlessFaulted_of_some h])
    | (unfold execSetbright; rw [State.unlessFaulted_of_some h])
    | (unfold execSetcolor; rw [State.unlessFaulted_of_some h])
    | (unfold execSetspeed; rw [State.unlessFaulted_of_some h])
    | (unfold execSetauto; rw [State.unlessFaulted_of_some h])
    | (unfold execSetpause; rw [State.unlessFaulted_of_some h])
    | (unfold execSetdir; rw [State.unlessFaulted_of_some h])
    | (unfold execSetleds; rw [State.unlessFaulted_of_some h])
    | (unfold execGetfw; rw [State.unlessFaulted_of_some h])
    | (unfold execRdstat; rw [State.unlessFaulted_of_some h])
    | (show transmit _ _ = _; unfold transmit; rw [State.unlessFaulted_of_some h])

/-- What bytes that are no instruction can do (30_encoding R118). -/
theorem rejected_cases {r : Reject} {p bytes} {s t : State} (h : rejected r p bytes s = .next t) :
    t = arrive bytes s ∨ (s.fault ≠ none ∧ t = s) ∨ ∃ op, s.fault = none ∧ t = s.withResult .illegalRequest op [] := by
  unfold rejected at h
  split at h
  · cases h; exact .inl rfl
  · right
    cases hf : s.fault with
    | none =>
      cases r <;> simp only [hf, State.unlessFaulted_of_none hf] at h
      · cases h; exact .inr ⟨_, rfl, rfl⟩
      · simp at h
      · simp at h
    | some f =>
      left; refine ⟨by simp, ?_⟩
      cases r <;> simp only [hf, State.unlessFaulted_of_some hf, Option.isSome_some, if_true] at h <;> cases h <;> rfl

/-- A packet the engine frames; its parameters fit where the configuration meets its conditions. -/
def Framed (s : State) (p : Packet) : Prop :=
  ∃ st cmd params, p = frame st cmd params ∧ (s.cfg.ok = true → params.length ≤ 250) ∧ WriteOrRead p

/-- What an instruction can do to an unfaulted engine. -/
inductive Effect (s : State) : Instr → State → Prop
  | same {i} (h : i.port ≠ .request) : Effect s i s
  | arrives {i} (bytes : List Byte) (h : i.port ≠ .request) : Effect s i (arrive bytes s)
  | faults {i} (f : FaultCode) (h : i.port = .request) : Effect s i { s with fault := some f }
  | result {i} (k : ResultKind) (op : Byte) (payload : List Byte) (h : i.encode.head? = some op)
      (hk : (k = .preconditionViolation → payload = []) ∧ k ≠ .ioError) :
      Effect s i (s.withResult k op payload)
  | writes {i} (op : Byte) (p : Packet) (c : Handle) (hp : Framed s p) (hc : s.conn = .connected c)
      (h : i.encode.head? = some op) : Effect s i (s.writeEnds op p)
  | sends {i} (p : Packet) (c : Handle) (hp : emitted p = true) (hc : s.conn = .connected c) (h : i.port ≠ .request) :
      Effect s i (s.afterWrite p)
  | noOpen (path : List Byte) (baud : Word) (hc : s.conn = .disconnected) (hd : s.openDraw = false) :
      Effect s (.connect baud path)
        ((txOpen path (effectiveBaud baud s) s).2.withResult .connectError OP_CONNECT [])
  | opens (path : List Byte) (baud : Word) (hc : s.conn = .disconnected) (hd : s.openDraw = true) :
      Effect s (.connect baud path)
        (({ (txOpen path (effectiveBaud baud s) s).2 with conn := .connected s.tx.issued }).withResult .ok OP_CONNECT [])
  | closes (c : Handle) (p : Packet) (hp : Framed s p) (hc : s.conn = .connected c) (hb : s.rdBusy = false)
      (hs : s.seqPhase = .idle) :
      Effect s .disconnect (({ txRelease c (s.afterWrite p) with conn := .disconnected }).withResult .ok OP_DISCONNECT [])
  | collects (c : Handle) (hc : s.conn = .connected c) (hb : s.rdBusy = false) :
      Effect s .collect (collectStart .collect { s with rdBusy := true })
  | reads {i} (c : Handle) (op : Byte) (p : Packet) (owner : Owner) (hp : Framed s p) (hc : s.conn = .connected c) (hb : s.rdBusy = false)
      (ho : owner ≠ .none) (h : i.encode.head? = some op) (hw : s.writeDraw = true) :
      Effect s i (collectStart owner { s.afterWrite p with rdBusy := true })
  | readFails {i} (c : Handle) (op : Byte) (p : Packet) (hp : Framed s p) (hc : s.conn = .connected c) (hb : s.rdBusy = false)
      (h : i.encode.head? = some op) (hw : s.writeDraw = false) :
      Effect s i { (s.afterWrite p).withResult .ioError op p with rdBusy := false }
  | paces (hex lum : List Byte) (c : Handle) (p : Packet) (code : Fin 15) (v : Nat) (hp : Framed s p) (hc : s.conn = .connected c)
      (hs : s.seqPhase = .idle) (hv : v ≤ 100) (hw : s.writeDraw = true) :
      Effect s (.setcolor hex lum) (seqWait .waitOn { s.afterWrite p with
        seqCode := s.cfg.palette[code].code, seqLum := BitVec.ofNat 7 v })
  | paceFails (hex lum : List Byte) (c : Handle) (p : Packet) (hp : Framed s p) (hc : s.conn = .connected c)
      (hw : s.writeDraw = false) : Effect s (.setcolor hex lum) ((s.afterWrite p).withResult .ioError OP_SETCOLOR p)

theorem framed_short {s : State} {cmd : Byte} {ps : List Byte} (h : ps.length ≤ 250) : Framed s (frame STATUS_WRITE cmd ps) :=
  ⟨_, cmd, ps, rfl, fun _ => h, .inl rfl⟩

theorem framed_read {s : State} {cmd : Byte} : Framed s (frame STATUS_READ cmd []) :=
  ⟨_, cmd, [], rfl, fun _ => by simp, .inr ⟨rfl, rfl⟩⟩

theorem framed_on {s : State} {cmd : Byte} : Framed s (frame STATUS_WRITE cmd s.cfg.powerOnParams) :=
  ⟨_, cmd, _, rfl, fun h => (Config.ok_parts h).2.1, .inl rfl⟩

theorem framed_off {s : State} {cmd : Byte} : Framed s (frame STATUS_WRITE cmd s.cfg.powerOffParams) :=
  ⟨_, cmd, _, rfl, fun h => (Config.ok_parts h).2.2.1, .inl rfl⟩

theorem answer_effect {s : State} {i : Instr} {op cmd : Byte} {ps : List Byte} (hp : Framed s (frame STATUS_WRITE cmd ps))
    (h : i.encode.head? = some op) : Effect s i (answer op (cmdWrite cmd ps s)) := by
  cases hc : s.conn with
  | disconnected => rw [answer_cmdWrite_disconnected hc]; exact .result _ _ _ h (by simp)
  | connected c => rw [answer_cmdWrite_connected hc]; exact .writes op _ c hp hc h

theorem ranged_effect {s : State} {i : Instr} {op cmd : Byte} {hi : Int} {f : Word → List Byte} {v : Word} (hf : (f v).length ≤ 250)
    (h : i.encode.head? = some op) : Effect s i (rangedWrite op cmd hi f v s) := by
  unfold rangedWrite
  split
  · exact answer_effect (framed_short hf) h
  · exact .result _ _ _ h (by simp)

theorem read_effect {s : State} {i : Instr} {op cmd : Byte} {owner : Owner} (ho : owner ≠ .none) (hn : s.fault = none) (hr : i.port = .request)
    (h : i.encode.head? = some op) : Effect s i (readTransaction op cmd owner s) := by
  rw [readTransaction_eq]
  split
  · rw [State.raise_of_none hn]; exact .faults _ hr
  · rename_i hb
    simp only [Bool.not_eq_true] at hb
    split
    · exact .result _ _ _ h (by simp)
    · rename_i c hc
      split
      · rename_i hw
        exact .reads c op _ owner framed_read hc hb ho h hw
      · rename_i hw; simp only [Bool.not_eq_true] at hw
        exact .readFails c op _ framed_read hc hb h hw

theorem transmit_effect {s : State} {i : Instr} {p} (hn : s.fault = none) (h : i.port ≠ .request) :
    ∃ t, transmit p s = .next t ∧ Effect s i t := by
  refine ⟨_, rfl, ?_⟩
  rw [State.unlessFaulted_of_none hn]
  split
  · exact .same h
  · rename_i c hc
    split
    · rename_i hp
      rw [send_eq]; exact .sends p c hp hc h
    · exact .same h

/-- Everything an instruction can do to an unfaulted engine. -/
theorem exec_effect (i : Instr) (s : State) (hn : s.fault = none) : ∃ t, exec i s = .next t ∧ Effect s i t := by
  cases i
  case pktResponse => exact ⟨_, rfl, .arrives _ (by simp [Instr.port])⟩
  case cksum =>
    refine ⟨_, rfl, ?_⟩; rw [State.unlessFaulted_of_none hn]
    split <;> exact .result _ _ _ rfl (by simp)
  case encf => refine ⟨_, rfl, ?_⟩; rw [State.unlessFaulted_of_none hn]; exact .result _ _ _ rfl (by unfold framedReply; split <;> simp)
  case encw => refine ⟨_, rfl, ?_⟩; rw [State.unlessFaulted_of_none hn]; exact .result _ _ _ rfl (by unfold framedReply; split <;> simp)
  case encr => refine ⟨_, rfl, ?_⟩; rw [State.unlessFaulted_of_none hn]; exact .result _ _ _ rfl (by simp)
  case decr => refine ⟨_, rfl, ?_⟩; rw [State.unlessFaulted_of_none hn]; exact .result _ _ _ rfl (by unfold validate; split_ifs <;> simp)
  case qrgb => refine ⟨_, rfl, ?_⟩; rw [State.unlessFaulted_of_none hn]; exact .result _ _ _ rfl (by simp [colourReply])
  case qhex => refine ⟨_, rfl, ?_⟩; rw [State.unlessFaulted_of_none hn]; exact .result _ _ _ rfl (by split <;> simp [colourReply])
  case rdstat => refine ⟨_, rfl, ?_⟩; rw [State.unlessFaulted_of_none hn]; exact .result _ _ _ rfl (by simp)
  case collect =>
    refine ⟨_, rfl, ?_⟩; rw [State.unlessFaulted_of_none hn]
    split
    · rw [State.raise_of_none hn]; exact .faults _ rfl
    · rename_i hb; simp only [Bool.not_eq_true] at hb
      split
      · exact .result _ _ _ rfl (by simp)
      · rename_i c hc; exact .collects c hc hb
  case wrcmd cmd ps =>
    refine ⟨_, rfl, ?_⟩; rw [State.unlessFaulted_of_none hn]
    split
    · exact .result _ _ _ rfl (by simp)
    · rename_i hl
      exact answer_effect ⟨_, _, _, rfl, fun h => by have := (Config.ok_parts h).2.2.2.2; omega, .inl rfl⟩ rfl
  case rdcmd => refine ⟨_, rfl, ?_⟩; rw [State.unlessFaulted_of_none hn]; exact read_effect (by simp) hn rfl rfl
  case getfw => refine ⟨_, rfl, ?_⟩; rw [State.unlessFaulted_of_none hn]; exact read_effect (by simp) hn rfl rfl
  case connect baud path =>
    refine ⟨_, rfl, ?_⟩; rw [State.unlessFaulted_of_none hn]
    split
    · exact .result _ _ _ rfl (by simp)
    · rename_i hc
      cases hd : s.openDraw with
      | false =>
        have : (txOpen path (effectiveBaud baud s) s).1 = none := by simp [txOpen, hd]
        simp only [this]; exact .noOpen path baud hc hd
      | true =>
        have : (txOpen path (effectiveBaud baud s) s).1 = some s.tx.issued := by simp [txOpen, hd]
        simp only [this]; exact .opens path baud hc hd
  case disconnect =>
    refine ⟨_, rfl, ?_⟩; rw [State.unlessFaulted_of_none hn]
    split
    · rw [State.raise_of_none hn]; exact .faults _ rfl
    · rename_i hb
      simp at hb
      split
      · exact .result _ _ _ rfl (by simp)
      · rename_i c hc; simp only [send_eq]; exact .closes c _ framed_off hc hb.1 hb.2
  case turnon => refine ⟨_, rfl, ?_⟩; rw [State.unlessFaulted_of_none hn]; exact answer_effect framed_on rfl
  case turnoff => refine ⟨_, rfl, ?_⟩; rw [State.unlessFaulted_of_none hn]; exact answer_effect framed_off rfl
  case setmode => refine ⟨_, rfl, ?_⟩; rw [State.unlessFaulted_of_none hn]; exact ranged_effect (by simp [oneByte]) rfl
  case setbright => refine ⟨_, rfl, ?_⟩; rw [State.unlessFaulted_of_none hn]; exact ranged_effect (by simp [oneByte]) rfl
  case setspeed => refine ⟨_, rfl, ?_⟩; rw [State.unlessFaulted_of_none hn]; exact ranged_effect (by simp [oneByte]) rfl
  case setleds => refine ⟨_, rfl, ?_⟩; rw [State.unlessFaulted_of_none hn]; exact ranged_effect (by simp [ledBytes]) rfl
  case setauto => refine ⟨_, rfl, ?_⟩; rw [State.unlessFaulted_of_none hn]; exact answer_effect (framed_short (by simp)) rfl
  case setpause => refine ⟨_, rfl, ?_⟩; rw [State.unlessFaulted_of_none hn]; exact answer_effect (framed_short (by simp)) rfl
  case setdir => refine ⟨_, rfl, ?_⟩; rw [State.unlessFaulted_of_none hn]; exact answer_effect (framed_short (by simp)) rfl
  case setcolor hex lum =>
    refine ⟨_, rfl, ?_⟩; rw [State.unlessFaulted_of_none hn]
    split
    · rw [State.raise_of_none hn]; exact .faults _ rfl
    · rename_i hs
      simp at hs
      split
      · rename_i rgb l hx hl
        split
        · exact .result _ _ _ rfl (by simp)
        · rename_i c hc
          rw [colourSequence_eq hc]
          cases l with
          | off => exact .writes _ _ c framed_off hc rfl
          | level v =>
            simp only
            split
            · exact .writes _ _ c framed_off hc rfl
            · split
              · rename_i hw; exact .paces hex lum c _ _ v framed_on hc hs (parseLuminance_le hl) hw
              · rename_i hw; simp only [Bool.not_eq_true] at hw
                exact .paceFails hex lum c _ framed_on hc hw
      · exact .result _ _ _ rfl (by simp)
  all_goals exact transmit_effect hn (by simp [Instr.port])

theorem conn_cases (s : State) : s.conn = .disconnected ∨ ∃ c, s.conn = .connected c := by
  cases s.conn <;> simp

/-- Everything a step of the sequencer can do (44_controller R297, R299). -/
theorem sequencerStep_cases (s : State) : sequencerStep s = s ∨
    (∃ c p n, Framed s p ∧ s.conn = .connected c ∧ n ≠ .idle ∧ s.seqPhase ≠ .idle ∧ s.writeDraw = true ∧ sequencerStep s = seqWait n (s.afterWrite p)) ∨
    (∃ c p, Framed s p ∧ s.conn = .connected c ∧ s.writeDraw = false ∧ sequencerStep s = ({ s.afterWrite p with seqPhase := .idle }).withResult .ioError 0x16 p) ∨
    (∃ k, k ≠ .ioError ∧ sequencerStep s = ({ s with seqPhase := .idle }).withResult k 0x16 []) := by
  have key : ∀ cmd ps n, ps.length ≤ 250 → n ≠ .idle → s.seqPhase ≠ .idle →
    (∃ c p m, Framed s p ∧ s.conn = .connected c ∧ m ≠ .idle ∧ s.seqPhase ≠ .idle ∧ s.writeDraw = true ∧ seqWrite cmd ps n s = seqWait m (s.afterWrite p)) ∨
    (∃ c p, Framed s p ∧ s.conn = .connected c ∧ s.writeDraw = false ∧ seqWrite cmd ps n s = ({ s.afterWrite p with seqPhase := .idle }).withResult .ioError 0x16 p) ∨
    (∃ k, k ≠ .ioError ∧ seqWrite cmd ps n s = ({ s with seqPhase := .idle }).withResult k 0x16 []) := by
    intro cmd ps n hl hn hs
    rcases conn_cases s with hc | ⟨c, hc⟩
    · right; right
      refine ⟨.notConnected, by simp, ?_⟩
      unfold seqWrite; rw [cmdWrite_disconnected hc]; rfl
    · rw [seqWrite_eq hc]
      split
      · rename_i hw; exact .inl ⟨c, _, n, framed_short hl, hc, hn, hs, hw, rfl⟩
      · rename_i hw; exact .inr (.inl ⟨c, _, framed_short hl, hc, by simpa using hw, rfl⟩)
  unfold sequencerStep
  split
  · exact .inl rfl
  · rename_i hs; right; exact key CMD_MODE [s.seqCode] .waitMode (by simp) (by simp) (by simp [hs])
  · rename_i hs; right; exact key CMD_BRIGHTNESS [BitVec.ofNat 8 s.seqLum.toNat] .waitBright (by simp) (by simp) (by simp [hs])
  · right; right; right; exact ⟨.ok, by simp, rfl⟩

/-- What a cancel leaves unchanged (60_exceptions R356). -/
theorem cancel_frame (s : State) : (cancel s).cfg = s.cfg ∧ (cancel s).conn = s.conn ∧ (cancel s).now = s.now ∧ (cancel s).txLog = s.txLog ∧ (cancel s).tx = s.tx ∧ (cancel s).fault = s.fault ∧ (cancel s).events = s.events ∧ (cancel s).seqWake = s.seqWake ∧ (cancel s).colWake = s.colWake ∧ (cancel s).colDeadline = s.colDeadline ∧ ((cancel s).colPhase = s.colPhase ∨ (cancel s).colPhase = .idle) ∧ ((cancel s).seqPhase = s.seqPhase ∨ (cancel s).seqPhase = .idle) := by
  cases hf : s.fault with
  | some f => rw [cancel, State.unlessFaulted_of_some hf]; simp [hf]
  | none =>
    rw [cancel, State.unlessFaulted_of_none hf]
    simp only
    obtain ⟨res, rd, ow, he, -⟩ := collectFinish_fields .interrupted { s with colPhase := .idle }
    rw [he]
    split_ifs <;> simp [State.deliver, *]

/-- What every instruction leaves unchanged. -/
theorem exec_frame {i s t} (h : exec i s = .next t) : t.cfg = s.cfg ∧ t.now = s.now ∧ t.events = s.events ∧
   (t.txLog = s.txLog ∨ ∃ p ok, t.txLog = s.txLog ++ [(p, ok)]) ∧ (t.conn = s.conn ∨ i = .disconnect ∨ ∃ b p, i = .connect b p) := by
  cases hf : s.fault with
  | some f =>
    rcases exec_faulted i s f hf with he' | ⟨b, he'⟩ <;> rw [he'] at h <;> cases h <;> simp [arrive]
  | none =>
    obtain ⟨t', he', e⟩ := exec_effect i s hf
    rw [he'] at h; cases h
    cases e with
    | same => simp
    | arrives => simp [arrive]
    | sends => exact ⟨rfl, rfl, rfl, .inr ⟨_, _, rfl⟩, .inl rfl⟩
    | faults => simp
    | result => exact ⟨rfl, rfl, rfl, .inl rfl, .inl rfl⟩
    | writes op p c hp' hc h' =>
      unfold State.writeEnds
      split <;> exact ⟨rfl, rfl, rfl, .inr ⟨_, _, rfl⟩, .inl rfl⟩
    | noOpen => exact ⟨rfl, rfl, rfl, .inl rfl, .inl rfl⟩
    | opens path baud hc hd => exact ⟨rfl, rfl, rfl, .inl rfl, .inr (.inr ⟨_, _, rfl⟩)⟩
    | closes c p hp hc hb hs => exact ⟨rfl, rfl, rfl, .inr ⟨_, _, rfl⟩, .inr (.inl rfl)⟩
    | collects c hc hb => exact ⟨rfl, rfl, rfl, .inl rfl, .inl rfl⟩
    | reads c op p o hp hc hb ho => exact ⟨rfl, rfl, rfl, .inr ⟨_, _, rfl⟩, .inl rfl⟩
    | readFails c op p hp hc hb => exact ⟨rfl, rfl, rfl, .inr ⟨_, _, rfl⟩, .inl rfl⟩
    | paces hex lum c p code v hp hc hs hv hw =>
      unfold seqWait
      split <;> exact ⟨rfl, rfl, rfl, .inr ⟨_, _, rfl⟩, .inl rfl⟩
    | paceFails => exact ⟨rfl, rfl, rfl, .inr ⟨_, _, rfl⟩, .inl rfl⟩

/-- What every agent's step leaves unchanged. -/
theorem agent_frame {a s t} (h : agentStep a s = .next t) : t.cfg = s.cfg ∧ t.conn = s.conn ∧ t.events = s.events ∧
   (t.txLog = s.txLog ∨ ∃ p ok, t.txLog = s.txLog ++ [(p, ok)]) ∧ (t.now = s.now ∨ t = { s with now := s.now + 1 }) := by
  cases hen : enabled a s with
  | false => rw [agentStep_disabled hen] at h; cases h; simp
  | true =>
    rw [agentStep_enabled hen] at h
    cases a
    · obtain ⟨h1,h2,h3,h4,-,-,-,-,-,h5,-⟩ := collectorStep_frame h
      exact ⟨h1, h2, h5, .inl h4, .inl h3⟩
    · cases h
      rcases sequencerStep_cases s with h | ⟨c, p, n, -, -, -, -, -, h⟩ | ⟨c, p, -, -, hwd, h⟩ | ⟨k, hk', h⟩ <;> rw [h]
      · simp
      · unfold seqWait; split <;> exact ⟨rfl, rfl, rfl, .inr ⟨_, _, rfl⟩, .inl rfl⟩
      · exact ⟨rfl, rfl, rfl, .inr ⟨_, _, rfl⟩, .inl rfl⟩
      · exact ⟨rfl, rfl, rfl, .inl rfl, .inl rfl⟩
    · cases h; simp

/-- Entering a pacing wait ends the sequence or begins the wait (44_controller R297). -/
theorem seqWait_leaves (p : SeqPhase) (s : State) : ∃ ph w c res,
    seqWait p s = { s with seqPhase := ph, seqWake := w, cancelPend := c, results := s.results ++ res } ∧
    (ph = .idle ∨ (ph = p ∧ w = s.now + s.cfg.paceMs)) := by
  unfold seqWait; split
  · exact ⟨.idle, s.seqWake, false, [_], rfl, .inl rfl⟩
  · exact ⟨p, s.now + s.cfg.paceMs, s.cancelPend, [], by simp, .inr ⟨rfl, rfl⟩⟩

/-- What a write of the sequence leaves: the sequence ended, or the next wait begun. -/
theorem seqWrite_leaves (cmd : Byte) (ps : List Byte) (n : SeqPhase) (s : State) : ∃ ph w c res log tx,
    seqWrite cmd ps n s = { s with
      seqPhase := ph, seqWake := w, cancelPend := c
      results := s.results ++ res, txLog := log, tx := tx } ∧ (ph = .idle ∨ (ph = n ∧ w = s.now + s.cfg.paceMs)) := by
  rcases conn_cases s with hc | ⟨c, hc⟩
  · unfold seqWrite; rw [cmdWrite_disconnected hc]
    exact ⟨.idle, s.seqWake, s.cancelPend, [_], s.txLog, s.tx, rfl, .inl rfl⟩
  · rw [seqWrite_eq hc]
    split
    · obtain ⟨ph, w, cp, res, e, h⟩ := seqWait_leaves n (s.afterWrite (frame STATUS_WRITE cmd ps))
      exact ⟨ph, w, cp, res, _, _, e, h⟩
    · exact ⟨.idle, s.seqWake, s.cancelPend, [_], _, _, rfl, .inl rfl⟩

/-- What a step of the sequencer leaves: the sequence ended, or another wait begun, one pacing interval long. -/
theorem sequencerStep_leaves {s : State} (hs : s.seqPhase ≠ .idle) :
    ∃ ph w c res log tx, sequencerStep s = { s with
      seqPhase := ph, seqWake := w, cancelPend := c
      results := s.results ++ res, txLog := log, tx := tx } ∧ ph ≠ s.seqPhase ∧
      (ph = .idle ∨ w = s.now + s.cfg.paceMs) := by
  unfold sequencerStep
  split
  · exact absurd ‹_› hs
  · obtain ⟨ph, w, c, res, log, tx, e, h⟩ := seqWrite_leaves CMD_MODE [s.seqCode] .waitMode s
    refine ⟨ph, w, c, res, log, tx, e, ?_, h.imp_right And.right⟩
    rcases h with h | ⟨h, -⟩ <;> simp [*]
  · obtain ⟨ph, w, c, res, log, tx, e, h⟩ := seqWrite_leaves CMD_BRIGHTNESS [BitVec.ofNat 8 s.seqLum.toNat] .waitBright s
    refine ⟨ph, w, c, res, log, tx, e, ?_, h.imp_right And.right⟩
    rcases h with h | ⟨h, -⟩ <;> simp [*]
  · exact ⟨.idle, s.seqWake, s.cancelPend, [_], s.txLog, s.tx, rfl, by simp [*], .inl rfl⟩

/-- What one enabled step of an agent leaves of the others' elements. -/
theorem agentStep_leaves {b : Agent} {s t : State} (he : enabled b s = true) (h : agentStep b s = .next t) :
    t.events = s.events ∧ t.fault = s.fault ∧ t.sched = s.sched ∧ t.cfg = s.cfg ∧
    (b ≠ .clock → t.now = s.now) ∧ (b = .clock → t.now = s.now + 1) ∧
    (b ≠ .collector → t.colPhase = s.colPhase ∧ t.colWake = s.colWake) ∧
    (b ≠ .sequencer → t.seqPhase = s.seqPhase ∧ t.seqWake = s.seqWake) := by
  rw [agentStep_enabled he] at h
  cases b with
  | clock => cases h; simp
  | sequencer =>
    cases h
    have hs : s.seqPhase ≠ .idle := by
      intro hs; simp [enabled, sequencerDue, hs] at he
    obtain ⟨ph, w, c, res, log, tx, e, -, -⟩ := sequencerStep_leaves hs
    rw [e]; simp
  | collector =>
    obtain ⟨h1, -, h3, -, h5, h6, h7, -, -, h10, -⟩ := collectorStep_frame h
    refine ⟨h10, h5, ?_, h1, fun _ => h3, by simp, by simp, fun _ => ⟨h6, h7⟩⟩
    change collectorStep s = .next t at h
    unfold collectorStep at h
    split at h
    · cases h; rfl
    · exact (collectPoll_leaves h).2.2.2
    · split at h <;> cases h <;> rfl

end Sys2Proof.Machine
end

