-- ==== Sys2Proof/Laws/PerInstr.lean ====
section
/-! SUPPORT. Statements for all instructions, one lemma per constructor: the lead byte of the encoding tells a request from
a packet (30_encoding R100, R114, R115). -/

namespace Sys2Proof.Laws.LeadByte

/-- The first of at least four encoded bytes is 0xCA exactly for the packets. -/
def Statement (i : Instr) : Prop :=
  4 ≤ i.encode.length ∧ (i.encode.head? = some 0xCA ↔ i.port ≠ .request)

theorem of_request {i : Instr} {op c n : Byte} {data : List Byte} (he : i.encode = encodeRequest op c n data)
    (hp : i.port = .request) (h : (op == 0xCA) = false) : Statement i := by
  simp only [beq_eq_false_iff_ne] at h
  simp [Statement, he, hp, encodeRequest]
  exact h

theorem of_packet {i : Instr} {len status cmd sum : Byte} {params : List Byte}
    (he : i.encode = encodePacket len status cmd params sum) (hp : (i.port == .request) = false) : Statement i := by
  have hp : i.port ≠ .request := fun e => by rw [e] at hp; exact absurd hp (by decide)
  simp [Statement, he, hp, encodePacket]

theorem cksum (p : Byte) (data : List Byte) : Statement (.cksum p data) :=
  of_request rfl rfl rfl
theorem encf (cmd status : Byte) (params : List Byte) : Statement (.encf cmd status params) :=
  of_request rfl rfl rfl
theorem encw (cmd : Byte) (params : List Byte) : Statement (.encw cmd params) :=
  of_request rfl rfl rfl
theorem encr (cmd : Byte) : Statement (.encr cmd) := of_request rfl rfl rfl
theorem decr (data : List Byte) : Statement (.decr data) := of_request rfl rfl rfl
theorem collect : Statement (.collect) := of_request rfl rfl rfl
theorem qrgb (r g b : Byte) : Statement (.qrgb r g b) := of_request rfl rfl rfl
theorem qhex (str : List Byte) : Statement (.qhex str) := of_request rfl rfl rfl
theorem wrcmd (cmd : Byte) (params : List Byte) : Statement (.wrcmd cmd params) :=
  of_request rfl rfl rfl
theorem rdcmd (cmd : Byte) : Statement (.rdcmd cmd) := of_request rfl rfl rfl
theorem connect (baud : Word) (path : List Byte) : Statement (.connect baud path) :=
  of_request rfl rfl rfl
theorem disconnect : Statement (.disconnect) := of_request rfl rfl rfl
theorem turnon : Statement (.turnon) := of_request rfl rfl rfl
theorem turnoff : Statement (.turnoff) := of_request rfl rfl rfl
theorem setmode (v : Word) : Statement (.setmode v) := of_request rfl rfl rfl
theorem setbright (v : Word) : Statement (.setbright v) := of_request rfl rfl rfl
theorem setcolor (hex lum : List Byte) : Statement (.setcolor hex lum) :=
  of_request rfl rfl rfl
theorem setspeed (v : Word) : Statement (.setspeed v) := of_request rfl rfl rfl
theorem setauto (on : Bool) : Statement (.setauto on) := of_request rfl rfl rfl
theorem setpause (on : Bool) : Statement (.setpause on) := of_request rfl rfl rfl
theorem setdir (forward : Bool) : Statement (.setdir forward) := of_request rfl rfl rfl
theorem setleds (v : Word) : Statement (.setleds v) := of_request rfl rfl rfl
theorem getfw : Statement (.getfw) := of_request rfl rfl rfl
theorem rdstat : Statement (.rdstat) := of_request rfl rfl rfl
theorem pktPower (len : Byte) (params : List Byte) (sum : Byte) : Statement (.pktPower len params sum) :=
  of_packet rfl rfl
theorem pktAuto (on : Bool) (sum : Byte) : Statement (.pktAuto on sum) :=
  of_packet rfl rfl
theorem pktPause (on : Bool) (sum : Byte) : Statement (.pktPause on sum) :=
  of_packet rfl rfl
theorem pktMode (m sum : Byte) : Statement (.pktMode m sum) := of_packet rfl rfl
theorem pktDirection (reverse : Bool) (sum : Byte) : Statement (.pktDirection reverse sum) :=
  of_packet rfl rfl
theorem pktSpeed (v sum : Byte) : Statement (.pktSpeed v sum) := of_packet rfl rfl
theorem pktRgborder (len status : Byte) (params : List Byte) (sum : Byte) : Statement (.pktRgborder len status params sum) :=
  of_packet rfl rfl
theorem pktBrightness (v sum : Byte) : Statement (.pktBrightness v sum) :=
  of_packet rfl rfl
theorem pktLedcount (lo hi sum : Byte) : Statement (.pktLedcount lo hi sum) :=
  of_packet rfl rfl
theorem pktFwread (sum : Byte) : Statement (.pktFwread sum) := of_packet rfl rfl
theorem pktReadreq (cmd sum : Byte) : Statement (.pktReadreq cmd sum) :=
  of_packet rfl rfl
theorem pktWrite (len cmd : Byte) (params : List Byte) (sum : Byte) : Statement (.pktWrite len cmd params sum) :=
  of_packet rfl rfl
theorem pktResponse (status cmd p0 p1 sum : Byte) : Statement (.pktResponse status cmd p0 p1 sum) :=
  of_packet rfl rfl

end Sys2Proof.Laws.LeadByte
end

