-- ==== Sys2Proof/Machine/Assembler.lean ====
section
/-! DEFINITION. The assembly syntax (30_encoding R119) and the three script directives (R120): one line of text as the
event it stands for. Lines are lists of characters. Log entry 11 says what of the syntax the spec leaves open. -/

namespace Sys2Proof.Machine

/-! ### Tokens -/

inductive Token where
  | word (cs : List Char)
  | str (bytes : List Byte)
  | comma
  | lbracket
  | rbracket
  deriving DecidableEq, Repr

/-- The word read so far, if any. -/
def endWord (cur : List Char) : List Token := if cur.isEmpty then [] else [.word cur.reverse]

/-- The double quote. -/
def quoteChar : Char := Char.ofNat 34

/-- A character of a string as its ASCII byte; none outside ASCII. -/
def asciiByte (c : Char) : Option Byte := if c.toNat < 128 then some (BitVec.ofNat 8 c.toNat) else none

/-- The tokens of a line; `inStr` while between quotes, `cur` the characters read so far, last first. -/
def tokensFrom (inStr : Bool) (cur : List Char) : List Char → Option (List Token)
  | [] => if inStr then none else some (endWord cur)
  | c :: cs =>
    if inStr then
      if c = quoteChar then
        match cur.reverse.mapM asciiByte, tokensFrom false [] cs with
        | some bytes, some ts => some (.str bytes :: ts)
        | _, _ => none
      else tokensFrom true (c :: cur) cs
    else if c = quoteChar then (tokensFrom true [] cs).map (endWord cur ++ ·)
    else if c = ' ' then (tokensFrom false [] cs).map (endWord cur ++ ·)
    else if c = ',' then (tokensFrom false [] cs).map (endWord cur ++ .comma :: ·)
    else if c = '[' then (tokensFrom false [] cs).map (endWord cur ++ .lbracket :: ·)
    else if c = ']' then (tokensFrom false [] cs).map (endWord cur ++ .rbracket :: ·)
    else tokensFrom false (c :: cur) cs

/-! ### Operands -/

/-- An operand: a number, a byte list, a string, a boolean (30_encoding R119). -/
inductive Operand where
  | num (n : Int)
  | bytes (bs : List Byte)
  | str (bs : List Byte)
  | bool (b : Bool)
  deriving DecidableEq, Repr

/-- The value of a digit in base 10 or 16. -/
def digitValue (base : Nat) (c : Char) : Option Nat :=
  match asciiByte c with
  | some b =>
    match hexDigit b with
    | some v => if v < base then some v else none
    | none => none
  | none => none

/-- Digits read from the left, `acc` being what stands before them. -/
def digitsFrom (base acc : Nat) : List Char → Option Nat
  | [] => some acc
  | c :: cs =>
    match digitValue base c with
    | some v => digitsFrom base (base * acc + v) cs
    | none => none

/-- A number in decimal or `0x` hex. -/
def natOfWord : List Char → Option Nat
  | '0' :: 'x' :: c :: cs => digitsFrom 16 0 (c :: cs)
  | c :: cs => digitsFrom 10 0 (c :: cs)
  | [] => none

/-- A word as an operand: a boolean, or a number with an optional minus sign. -/
def operandOfWord (cs : List Char) : Option Operand :=
  if cs = "true".toList then some (.bool true)
  else if cs = "false".toList then some (.bool false)
  else match cs with
    | '-' :: ds => (natOfWord ds).map fun n => .num (-(n : Int))
    | ds => (natOfWord ds).map fun n => .num n

/-- A number as one byte. -/
def byteOfInt (n : Int) : Option Byte := if 0 ≤ n ∧ n ≤ 255 then some (BitVec.ofInt 8 n) else none

/-- A number of a byte list as one byte. -/
def listNumber (cs : List Char) : Option Byte := (natOfWord cs).bind fun n => byteOfInt n

/-- The items of a byte list as 30_encoding R119 writes them: numbers, separated by commas. -/
def numberItems : List Token → Option (List Byte)
  | [] => some []
  | [.word w] => (listNumber w).map fun b => [b]
  | .word w :: .comma :: t :: ts =>
    match listNumber w, numberItems (t :: ts) with
    | some b, some bs => some (b :: bs)
    | _, _ => none
  | _ => none

/-- An item of a byte list as 95_test_vectors writes them: exactly two hex digits. -/
def pairItem : Token → Option Byte
  | .word [h, l] =>
    match digitValue 16 h, digitValue 16 l with
    | some a, some b => some (BitVec.ofNat 8 (16 * a + b))
    | _, _ => none
  | _ => none

/-- A byte list in brackets: `[0x2C, 0x01]` (30_encoding R119), or bare hex pairs without commas, `[CA 07 01]`
(95_test_vectors). DESIGN CHOICE, unsafe for a single item of two decimal digits, which both ways admit: it is read as
R119's decimal number (log entry 11). -/
def byteList (ts : List Token) : Option (List Byte) :=
  match numberItems ts with
  | some bs => some bs
  | none => ts.mapM pairItem

/-- Where the reader of operands stands: before the first operand, after one, after a comma, or in a byte list whose
tokens so far are `items`, last first. -/
inductive Reading where
  | start
  | after
  | comma
  | list (items : List Token)

/-- The operands of a line, separated by commas (30_encoding R119). -/
def operandsFrom (m : Reading) : List Token → Option (List Operand)
  | [] =>
    match m with
    | .start | .after => some []
    | _ => none
  | t :: ts =>
    match m, t with
    | .list items, .rbracket =>
      match byteList items.reverse, operandsFrom .after ts with
      | some bs, some os => some (.bytes bs :: os)
      | _, _ => none
    | .list items, _ => operandsFrom (.list (t :: items)) ts
    | .after, .comma => operandsFrom .comma ts
    | .after, _ => none
    | .start, .word cs | .comma, .word cs =>
      match operandOfWord cs, operandsFrom .after ts with
      | some o, some os => some (o :: os)
      | _, _ => none
    | .start, .str bs | .comma, .str bs => (operandsFrom .after ts).map (.str bs :: ·)
    | .start, .lbracket | .comma, .lbracket => operandsFrom (.list []) ts
    | _, _ => none

/-! ### Lines -/

/-- A number as an int32 operand (30_encoding R116). -/
def int32 (n : Int) : Option Word := if -2147483648 ≤ n ∧ n ≤ 2147483647 then some (BitVec.ofInt 32 n) else none

/-- A number as an unsigned 32-bit operand (30_encoding R116, the baud word). -/
def uint32 (n : Int) : Option Word := if 0 ≤ n ∧ n ≤ 4294967295 then some (BitVec.ofInt 32 n) else none

/-- The forms of 30_encoding R119, without the check that byte counts fit. -/
def instrOfLine (mn : List Char) (ops : List Operand) : Option Instr :=
  let is (name : String) : Bool := mn == name.toList
  match ops with
  | [] =>
    if is "COLLECT" then some .collect else if is "RDSTAT" then some .rdstat else if is "DISCONNECT" then some .disconnect
    else if is "TURNON" then some .turnon else if is "TURNOFF" then some .turnoff else if is "GETFW" then some .getfw
    else none
  | [.num n] =>
    if is "ENCR" then (byteOfInt n).map .encr else if is "RDCMD" then (byteOfInt n).map .rdcmd
    else if is "SETMODE" then (int32 n).map .setmode else if is "SETBRIGHT" then (int32 n).map .setbright
    else if is "SETSPEED" then (int32 n).map .setspeed else if is "SETLEDS" then (int32 n).map .setleds
    else none
  | [.bytes bs] => if is "DECR" then some (.decr bs) else none
  | [.str s] => if is "QHEX" then some (.qhex s) else if is "CONNECT" then some (.connect 0 s) else none
  | [.bool b] =>
    if is "SETAUTO" then some (.setauto b) else if is "SETPAUSE" then some (.setpause b)
    else if is "SETDIR" then some (.setdir b) else none
  | [.num n, .bytes bs] =>
    if is "CKSUM" then (byteOfInt n).map (.cksum · bs) else if is "ENCW" then (byteOfInt n).map (.encw · bs)
    else if is "WRCMD" then (byteOfInt n).map (.wrcmd · bs) else none
  | [.str s, .num n] => if is "CONNECT" then (uint32 n).map (.connect · s) else none
  | [.str s, .str l] => if is "SETCOLOR" then some (.setcolor s l) else none
  | [.num a, .num c, .bytes bs] =>
    if is "ENCF" then
      match byteOfInt a, byteOfInt c with
      | some st, some cmd => some (.encf cmd st bs)
      | _, _ => none
    else none
  | [.num a, .num c, .num d] =>
    if is "QRGB" then
      match byteOfInt a, byteOfInt c, byteOfInt d with
      | some r, some g, some b => some (.qrgb r g b)
      | _, _, _ => none
    else none
  | _ => none

/-- The script directives `TICK t`, `CANCEL` and `DEVICE [bytes]` (30_encoding R120). -/
def directiveOfLine (mn : List Char) (ops : List Operand) : Option Event :=
  match ops with
  | [] => if mn == "CANCEL".toList then some .cancel else none
  | [.num t] => if mn == "TICK".toList && decide (0 ≤ t) then some (.tickTo t.toNat) else none
  | [.bytes bs] => if mn == "DEVICE".toList then some (.device bs) else none
  | _ => none

/-- One line of text as what it makes happen: "Each line assembles to exactly the request" (30_encoding R119). -/
def assembleLine (line : List Char) : Option Event :=
  match tokensFrom false [] line with
  | some (.word mn :: rest) =>
    match operandsFrom .start rest with
    | some ops =>
      match instrOfLine mn ops with
      | some i => if i.wf then some (.instr i.port i.encode) else none
      | none => directiveOfLine mn ops
    | none => none
  | _ => none

end Sys2Proof.Machine
end

