-- ==== Sys2Proof/Tests/Slice0.lean ====
section
/-! SUPPORT. The model's own tests: ill-formed terms refused, one written-out word per constructor, one-step vectors of
95_test_vectors (named in each group), and a witness for the hypotheses of every statement. -/

namespace Sys2Proof.Tests

set_option Elab.async false

open Sys2Proof.Machine

/-! ### States of the spec's test configuration (95_test_vectors, "Test configuration") -/

/-- The test configuration. -/
def testConfig : Config := { palette := testPalette, powerOnParams := [0x01], powerOffParams := [0x00], maxChunk := 16 }

/-- Reset with the test configuration. -/
def calm : State := { State.reset with cfg := testConfig }

/-- Connected through handle 0, with these answers of `TxWrite` to come. -/
def linked (answers : List Bool) : State :=
  { calm with conn := .connected 0, tx := { Transport.initial with issued := 1, writeAnswers := answers } }

/-- A read transaction with a poll due, `n` bytes of the inbound stream ready. -/
def reading (inbound : List Byte) (n now : Nat) : State :=
  { linked [] with
    rdBusy := true, colPhase := .poll, colOwner := .rdcmd, colDeadline := 500, now := now
    tx := { Transport.initial with issued := 1, inbound := inbound, readSizes := [n] }
    events := [.turn .collector] }

/-- A collection that waits until 20. -/
def waiting (now : Nat) : State :=
  { linked [] with
    rdBusy := true, colPhase := .wait, colOwner := .collect, colDeadline := 500, colWake := 20, now := now }

/-- A setColor in flight whose wait ends at 100. -/
def pacing (ph : SeqPhase) (answers : List Bool) : State :=
  { linked answers with seqPhase := ph, seqWake := 100, seqLum := 50, now := 100, events := [.turn .sequencer] }

/-- Where waits may overrun: a collection and a setColor in flight at 100. -/
def overrun (col : ColPhase) (seq : SeqPhase) : State :=
  { pacing seq [] with
    cfg := { testConfig with exactWait := false }
    rdBusy := true, colPhase := col, colOwner := .collect, colDeadline := 500, colWake := 20, events := [] }

/-- The answer is a next state that looks like `v` through `f`. -/
def leaves {α : Type} [DecidableEq α] (f : State → α) (a : Answer) (v : α) : Bool :=
  match a with
  | .next s => decide (f s = v)
  | _ => false

/-- The answer is a fault or a refusal. -/
def stops : Answer → Bool
  | .next _ => false
  | _ => true

/-- The results delivered, as bytes of the result port (30_encoding R117). -/
def resultBytes (s : State) : List (List Byte) := s.results.map Result.bytes

/-- The packets handed over and the results delivered. -/
def seen (s : State) : List (Packet × Bool) × List (List Byte) := (s.txLog, resultBytes s)

/-- The response of the vectors, `CA 07 01 0A 01 02 DF`. -/
def R : List Byte := [0xCA, 0x07, 0x01, 0x0A, 0x01, 0x02, 0xDF]

/-! ### Ill-formed terms are refused -/

theorem test_wf_cksum_count : (Instr.cksum 0 (List.replicate 256 0)).wf = false := by decide +kernel
theorem test_wf_encf_count : (Instr.encf 0 0 (List.replicate 256 0)).wf = false := by decide +kernel
theorem test_wf_encw_count : (Instr.encw 0 (List.replicate 256 0)).wf = false := by decide +kernel
theorem test_wf_decr_count : (Instr.decr (List.replicate 256 0)).wf = false := by decide +kernel
theorem test_wf_qhex_count : (Instr.qhex (List.replicate 256 0)).wf = false := by decide +kernel
theorem test_wf_wrcmd_count : (Instr.wrcmd 0 (List.replicate 256 0)).wf = false := by decide +kernel
theorem test_wf_connect_count : (Instr.connect 0 (List.replicate 256 0)).wf = false := by decide +kernel
theorem test_wf_setcolor_hex_count : (Instr.setcolor (List.replicate 256 0) []).wf = false := by decide +kernel
theorem test_wf_setcolor_lum_count : (Instr.setcolor [] (List.replicate 256 0)).wf = false := by decide +kernel
theorem test_wf_packet_length : (Instr.pktPower 0x07 [0x01] 0xD3).wf = false := by decide
theorem test_wf_packet_sum : (Instr.pktFwread 0xDB).wf = false := by decide
theorem test_wf_packet_params : (Instr.pktPower 0x00 (List.replicate 251 0) 0xCB).wf = false := by decide +kernel
theorem test_wf_auto_sum : (Instr.pktAuto true 0xD2).wf = false := by decide
theorem test_wf_pause_sum : (Instr.pktPause true 0xD3).wf = false := by decide
theorem test_wf_direction_sum : (Instr.pktDirection true 0xD5).wf = false := by decide
theorem test_wf_speed_sum : (Instr.pktSpeed 0xFF 0xD4).wf = false := by decide
theorem test_wf_rgborder_length : (Instr.pktRgborder 0x05 0x00 [0x02] 0xD8).wf = false := by decide
theorem test_wf_mode_range : (Instr.pktMode 220 0xB0).wf = false := by decide
theorem test_wf_brightness_range : (Instr.pktBrightness 101 0x3D).wf = false := by decide
theorem test_wf_ledcount_range : (Instr.pktLedcount 0x01 0x08 0xE3).wf = false := by decide
theorem test_wf_readreq_firmware : (Instr.pktReadreq 0x0A 0xDA).wf = false := by decide
theorem test_wf_readreq_rgborder : (Instr.pktReadreq 0x07 0xD7).wf = false := by decide
theorem test_wf_write_own_row : (Instr.pktWrite 0x06 0x04 [0x00] 0xD4).wf = false := by decide
theorem test_wf_write_ledcount : (Instr.pktWrite 0x07 0x09 [0x00, 0x00] 0xDA).wf = false := by decide
theorem test_wf_response_sum : (Instr.pktResponse 0x01 0x0A 0x01 0x02 0xDE).wf = false := by decide

/-! ### One written-out word per constructor (30_encoding R113 to R116, R100 to R110, R121; 95_test_vectors) -/

theorem test_decode_cksum : decode .request [0x01, 0x02, 0x02, 0x00, 0x80, 0x80] = .ok (.cksum 2 [0x80, 0x80]) := by decide
theorem test_decode_encf :
    decode .request [0x02, 0x0A, 0x02, 0x00, 0x01, 0x01, 0x02] = .ok (.encf 0x0A 0x01 [0x01, 0x02]) := by decide
theorem test_decode_encw :
    decode .request [0x03, 0x09, 0x02, 0x00, 0x2C, 0x01] = .ok (.encw 0x09 [0x2C, 0x01]) := by decide
theorem test_decode_encr : decode .request [0x04, 0x0A, 0x00, 0x00] = .ok (.encr 0x0A) := by decide
theorem test_decode_decr :
    decode .request [0x05, 0x00, 0x07, 0x00, 0xCA, 0x07, 0x01, 0x0A, 0x01, 0x02, 0xDF] = .ok (.decr R) := by decide
theorem test_decode_collect : decode .request [0x06, 0x00, 0x00, 0x00] = .ok .collect := by decide
theorem test_decode_qrgb :
    decode .request [0x07, 0x00, 0x03, 0x00, 0x00, 0x40, 0x80] = .ok (.qrgb 0x00 0x40 0x80) := by decide
theorem test_decode_qhex :
    decode .request [0x08, 0x00, 0x06, 0x00, 0x46, 0x46, 0x34, 0x30, 0x30, 0x30] =
      .ok (.qhex [0x46, 0x46, 0x34, 0x30, 0x30, 0x30]) := by decide
theorem test_decode_wrcmd : decode .request [0x09, 0x04, 0x01, 0x00, 0x07] = .ok (.wrcmd 0x04 [0x07]) := by decide
theorem test_decode_rdcmd : decode .request [0x0A, 0x04, 0x00, 0x00] = .ok (.rdcmd 0x04) := by decide
theorem test_decode_connect :
    decode .request [0x10, 0x00, 0x02, 0x00, 0x80, 0x25, 0x00, 0x00, 0x2F, 0x64] = .ok (.connect 9600 [0x2F, 0x64]) := by
  decide
theorem test_decode_disconnect : decode .request [0x11, 0x00, 0x00, 0x00] = .ok .disconnect := by decide
theorem test_decode_turnon : decode .request [0x12, 0x00, 0x00, 0x00] = .ok .turnon := by decide
theorem test_decode_turnoff : decode .request [0x13, 0x00, 0x00, 0x00] = .ok .turnoff := by decide
theorem test_decode_setmode :
    decode .request [0x14, 0x00, 0x04, 0x00, 0xFF, 0xFF, 0xFF, 0xFF] = .ok (.setmode (-1)) := by decide
theorem test_decode_setbright :
    decode .request [0x15, 0x00, 0x04, 0x00, 0x32, 0x00, 0x00, 0x00] = .ok (.setbright 50) := by decide
theorem test_decode_setcolor :
    decode .request [0x16, 0x06, 0x02, 0x00, 0x38, 0x30, 0x30, 0x30, 0x30, 0x30, 0x35, 0x30] =
      .ok (.setcolor [0x38, 0x30, 0x30, 0x30, 0x30, 0x30] [0x35, 0x30]) := by decide
theorem test_decode_setspeed :
    decode .request [0x17, 0x00, 0x04, 0x00, 0x00, 0x01, 0x00, 0x00] = .ok (.setspeed 256) := by decide
theorem test_decode_setauto : decode .request [0x18, 0x01, 0x00, 0x00] = .ok (.setauto true) := by decide
theorem test_decode_setpause : decode .request [0x19, 0x00, 0x00, 0x00] = .ok (.setpause false) := by decide
theorem test_decode_setdir : decode .request [0x1A, 0x01, 0x00, 0x00] = .ok (.setdir true) := by decide
theorem test_decode_setleds :
    decode .request [0x1B, 0x00, 0x04, 0x00, 0x2C, 0x01, 0x00, 0x00] = .ok (.setleds 300) := by decide
theorem test_decode_getfw : decode .request [0x1C, 0x00, 0x00, 0x00] = .ok .getfw := by decide
theorem test_decode_rdstat : decode .request [0x20, 0x00, 0x00, 0x00] = .ok .rdstat := by decide
theorem test_decode_pktPower :
    decode .outbound [0xCA, 0x06, 0x00, 0x01, 0x01, 0xD2] = .ok (.pktPower 0x06 [0x01] 0xD2) := by decide
theorem test_decode_pktAuto :
    decode .outbound [0xCA, 0x06, 0x00, 0x02, 0x01, 0xD3] = .ok (.pktAuto true 0xD3) := by decide
theorem test_decode_pktPause :
    decode .outbound [0xCA, 0x06, 0x00, 0x03, 0x00, 0xD3] = .ok (.pktPause false 0xD3) := by decide
theorem test_decode_pktMode :
    decode .outbound [0xCA, 0x06, 0x00, 0x04, 0xDB, 0xAF] = .ok (.pktMode 0xDB 0xAF) := by decide
theorem test_decode_pktDirection :
    decode .outbound [0xCA, 0x06, 0x00, 0x05, 0x01, 0xD6] = .ok (.pktDirection true 0xD6) := by decide
theorem test_decode_pktSpeed :
    decode .outbound [0xCA, 0x06, 0x00, 0x06, 0xFF, 0xD5] = .ok (.pktSpeed 0xFF 0xD5) := by decide
theorem test_decode_pktRgborder :
    decode .outbound [0xCA, 0x06, 0x00, 0x07, 0x02, 0xD9] = .ok (.pktRgborder 0x06 0x00 [0x02] 0xD9) := by decide
theorem test_decode_pktBrightness :
    decode .outbound [0xCA, 0x06, 0x00, 0x08, 0x64, 0x3C] = .ok (.pktBrightness 0x64 0x3C) := by decide
theorem test_decode_pktLedcount :
    decode .outbound [0xCA, 0x07, 0x00, 0x09, 0x2C, 0x01, 0x07] = .ok (.pktLedcount 0x2C 0x01 0x07) := by decide
theorem test_decode_pktFwread : decode .outbound [0xCA, 0x05, 0x01, 0x0A, 0xDA] = .ok (.pktFwread 0xDA) := by decide
theorem test_decode_pktReadreq :
    decode .outbound [0xCA, 0x05, 0x01, 0x04, 0xD4] = .ok (.pktReadreq 0x04 0xD4) := by decide
theorem test_decode_pktWrite :
    decode .outbound [0xCA, 0x07, 0x00, 0x0A, 0x12, 0x34, 0x21] = .ok (.pktWrite 0x07 0x0A [0x12, 0x34] 0x21) := by decide
theorem test_decode_pktResponse : decode .inbound R = .ok (.pktResponse 0x01 0x0A 0x01 0x02 0xDF) := by decide
/-- F14, Q15, K-15, X-2, X-3: the illegal headers of the vectors. -/
theorem test_decode_illegal :
    decode .request [0x04, 0x0A, 0x01, 0x00, 0x00] = .error (.illegal 0x04) ∧
    decode .request [0x07, 0x00, 0x02, 0x00, 0x00, 0x40] = .error (.illegal 0x07) ∧
    decode .request [0x18, 0x02, 0x00, 0x00] = .error (.illegal 0x18) ∧
    decode .request [0x20, 0x00, 0x00, 0x01] = .error (.illegal 0x20) ∧
    decode .request [0x1D, 0x00, 0x00, 0x00] = .error (.illegal 0x1D) := by decide
theorem test_decode_lengths :
    decode .request [0x03, 0x09, 0x02, 0x00, 0x2C] = .error .dataLength ∧
    decode .outbound [0xCB, 0x05, 0x01, 0x0A, 0xDA] = .error .notAPacket ∧
    decode .inbound [0xCA, 0x07, 0x01] = .error .notAPacket := by decide
/-- Table words: a request's header, and a packet's first four bytes, byte 0 in bits 31:24 (30_encoding R121). -/
theorem test_table_words :
    decodeTableWord 32 0x00000020 = some .rdstat ∧ decodeTableWord 32 0x00040014 = some (.setmode 0) ∧
    decodeTableWord 48 0xAFDBCA060004 = some (.pktMode 0xDB 0xAF) ∧
    decodeTableWord 56 0xDF0201CA07010A = some (.pktResponse 0x01 0x0A 0x01 0x02 0xDF) := by decide
/-- Assembly lines (30_encoding R119) and directives (R120). -/
theorem test_assemble_request :
    assembleLine "SETMODE 4".toList = some (.instr .request [0x14, 0x00, 0x04, 0x00, 0x04, 0x00, 0x00, 0x00]) := by decide
theorem test_assemble_list :
    assembleLine "ENCW 0x09, [0x2C, 0x01]".toList = some (.instr .request [0x03, 0x09, 0x02, 0x00, 0x2C, 0x01]) := by
  decide
theorem test_assemble_string :
    assembleLine "SETCOLOR \"800000\", \"50\"".toList =
      some (.instr .request [0x16, 0x06, 0x02, 0x00, 0x38, 0x30, 0x30, 0x30, 0x30, 0x30, 0x35, 0x30]) := by decide
theorem test_assemble_directives :
    assembleLine "TICK 300".toList = some (.tickTo 300) ∧ assembleLine "CANCEL".toList = some .cancel ∧
    assembleLine "DEVICE [0xCA, 7]".toList = some (.device [0xCA, 0x07]) := by decide
/-- 95_test_vectors: P2 line 4, P4 line 5 with its bytes, F1, F2. -/
theorem test_assemble_bare_hex :
    assembleLine "DEVICE [CA 07 01]".toList = some (.device [0xCA, 0x07, 0x01]) ∧
    assembleLine "DECR [CA 07 01 0A 01 02 DF]".toList =
      some (.instr .request [0x05, 0x00, 0x07, 0x00, 0xCA, 0x07, 0x01, 0x0A, 0x01, 0x02, 0xDF]) ∧
    assembleLine "CKSUM 0, [CA]".toList = some (.instr .request [0x01, 0x00, 0x01, 0x00, 0xCA]) ∧
    assembleLine "CKSUM 2, [80 80]".toList = some (.instr .request [0x01, 0x02, 0x02, 0x00, 0x80, 0x80]) := by decide
theorem test_assemble_empty_and_open_lists :
    assembleLine "ENCW 0x01, []".toList = some (.instr .request [0x03, 0x01, 0x00, 0x00]) ∧
    assembleLine "DEVICE [0xCA 0x07]".toList = none ∧ assembleLine "DEVICE [1,]".toList = none := by decide

/-! ### One instruction, at the vectors' values (95_test_vectors) -/

/-- F1, F2, F3. -/
theorem test_cksum :
    leaves resultBytes (exec (.cksum 0 [0xCA]) calm) [[0x00, 0x01, 0x01, 0x00, 0x00]] ∧
    leaves resultBytes (exec (.cksum 2 [0x80, 0x80]) calm) [[0x00, 0x01, 0x01, 0x00, 0x00]] ∧
    leaves resultBytes (exec (.cksum 3 [0x01, 0x02]) calm) [[0x01, 0x01, 0x00, 0x00]] := by
  decide +kernel
/-- F15. -/
theorem test_encf : leaves resultBytes (exec (.encf 0x0A 0x02 [0x01, 0x02]) calm)
      [[0x00, 0x02, 0x07, 0x00, 0xCA, 0x07, 0x02, 0x0A, 0x01, 0x02, 0xE0]] := by
  decide +kernel
/-- F4, F5, F8. -/
theorem test_encw :
    leaves resultBytes (exec (.encw 0x09 [0x2C, 0x01]) calm)
      [[0x00, 0x03, 0x07, 0x00, 0xCA, 0x07, 0x00, 0x09, 0x2C, 0x01, 0x07]] ∧
    leaves resultBytes (exec (.encw 0x01 []) calm) [[0x00, 0x03, 0x05, 0x00, 0xCA, 0x05, 0x00, 0x01, 0xD0]] ∧
    leaves resultBytes (exec (.encw 0x00 []) calm) [[0x00, 0x03, 0x05, 0x00, 0xCA, 0x05, 0x00, 0x00, 0xCF]] := by
  decide +kernel
/-- F12. -/
theorem test_encr : leaves resultBytes (exec (.encr 0x30) calm)
      [[0x00, 0x04, 0x05, 0x00, 0xCA, 0x05, 0x01, 0x30, 0x00]] := by
  decide +kernel
/-- F17, W3, F26. -/
theorem test_decr :
    leaves resultBytes (exec (.decr R) calm) [[0x00, 0x05, 0x07, 0x00] ++ R] ∧
    leaves resultBytes (exec (.decr [0xCB, 0x07, 0x01, 0x0A, 0x01, 0x02, 0xDF]) calm) [[0x04, 0x05, 0x00, 0x00]] ∧
    leaves resultBytes (exec (.decr [0xCA, 0x08, 0x01, 0x0A, 0x01, 0x02, 0xDF]) calm) [[0x05, 0x05, 0x00, 0x00]] ∧
    leaves resultBytes (exec (.decr [0xCA, 0x07, 0x01, 0x0A, 0x01, 0x02, 0xE0]) calm) [[0x06, 0x05, 0x00, 0x00]] ∧
    leaves resultBytes (exec (.decr [0xCA, 0x05, 0x01, 0x0A, 0xDA]) calm) [[0x01, 0x05, 0x00, 0x00]] := by
  decide +kernel
/-- C12, C13. -/
theorem test_collect :
    leaves resultBytes (exec .collect calm) [[0x08, 0x06, 0x00, 0x00]] ∧
    leaves (fun s => (s.fault, s.results)) (exec .collect (waiting 10)) (some .concurrentRead, []) := by
  decide +kernel
/-- Q1, W12. -/
theorem test_qrgb :
    leaves resultBytes (exec (.qrgb 0x00 0x40 0x40) calm) [[0x00, 0x07, 0x02, 0x00, 0x01, 0x01]] ∧
    leaves resultBytes (exec (.qrgb 0x40 0x00 0x00) calm) [[0x00, 0x07, 0x02, 0x00, 0x00, 0x00]] := by
  decide +kernel
/-- P4 line 8 (lower case), Q13. -/
theorem test_qhex :
    leaves resultBytes (exec (.qhex [0x66, 0x66, 0x34, 0x30, 0x30, 0x30]) calm)
      [[0x00, 0x08, 0x02, 0x00, 0x0C, 0x0C]] ∧
    leaves resultBytes (exec (.qhex [0x47, 0x30, 0x30, 0x30, 0x30, 0x30]) calm) [[0x01, 0x08, 0x00, 0x00]] := by
  decide +kernel
/-- D-2, D-3. -/
theorem test_wrcmd :
    leaves seen (exec (.wrcmd 0x04 [0x00]) (linked [false]))
      ([([0xCA, 0x06, 0x00, 0x04, 0x00, 0xD4], false)],
        [[0x02, 0x09, 0x06, 0x00, 0xCA, 0x06, 0x00, 0x04, 0x00, 0xD4]]) ∧
    leaves seen (exec (.wrcmd 0x04 [0x00]) calm) ([], [[0x08, 0x09, 0x00, 0x00]]) := by
  decide +kernel
/-- D-6, and the start of D-7. -/
theorem test_rdcmd :
    leaves (fun s => (seen s, s.rdBusy)) (exec (.rdcmd 0x0A) (linked [false]))
      (([([0xCA, 0x05, 0x01, 0x0A, 0xDA], false)],
        [[0x02, 0x0A, 0x05, 0x00, 0xCA, 0x05, 0x01, 0x0A, 0xDA]]), false) ∧
    leaves (fun s => (s.rdBusy, s.colPhase, s.colOwner, s.colDeadline)) (exec (.rdcmd 0x0A) (linked [true]))
      (true, .poll, .rdcmd, 500) := by
  decide +kernel
/-- P2 line 2. -/
theorem test_getfw :
    leaves (fun s => (s.txLog, s.colOwner, s.colDeadline)) (exec .getfw (linked [true]))
      ([([0xCA, 0x05, 0x01, 0x0A, 0xDA], true)], .getfw, 500) := by
  decide +kernel
/-- K-1, K-3. -/
theorem test_connect :
    leaves (fun s => (s.conn, s.tx.calls, resultBytes s))
      (exec (.connect 0 [0x2F]) { calm with tx := { Transport.initial with openAnswers := [true] } })
      (.connected 0, [.opened [0x2F] 115200 (some 0)], [[0x00, 0x10, 0x00, 0x00]]) ∧
    leaves (fun s => (s.conn, resultBytes s))
      (exec (.connect 0 [0x2F]) { calm with tx := { Transport.initial with openAnswers := [false] } })
      (.disconnected, [[0x09, 0x10, 0x00, 0x00]]) := by
  decide +kernel
/-- K-2. -/
theorem test_connect_connected :
    leaves (fun s => (s.conn, s.tx.calls, resultBytes s)) (exec (.connect 9600 [0x2F]) (linked []))
      (.connected 0, [], [[0x00, 0x10, 0x00, 0x00]]) := by
  decide +kernel
/-- K-5, K-7. -/
theorem test_disconnect :
    leaves (fun s => (s.conn, s.tx.calls.getLast?)) (exec .disconnect (linked [false]))
      (.disconnected, some (.released 0)) ∧
    leaves seen (exec .disconnect (linked [false]))
      ([([0xCA, 0x06, 0x00, 0x01, 0x00, 0xD1], false)], [[0x00, 0x11, 0x00, 0x00]]) ∧
    leaves (fun s => s.fault) (exec .disconnect (waiting 10)) (some .busyDisconnect) := by
  decide +kernel
/-- K-8. -/
theorem test_turnon : leaves seen (exec .turnon (linked [true]))
      ([([0xCA, 0x06, 0x00, 0x01, 0x01, 0xD2], true)], [[0x00, 0x12, 0x00, 0x00]]) := by
  decide +kernel
/-- K-8. -/
theorem test_turnoff : leaves seen (exec .turnoff (linked [true]))
      ([([0xCA, 0x06, 0x00, 0x01, 0x00, 0xD1], true)], [[0x00, 0x13, 0x00, 0x00]]) := by
  decide +kernel
/-- K-9, K-17, K-18. -/
theorem test_setmode :
    leaves seen (exec (.setmode 219) (linked [true]))
      ([([0xCA, 0x06, 0x00, 0x04, 0xDB, 0xAF], true)], [[0x00, 0x14, 0x00, 0x00]]) ∧
    leaves seen (exec (.setmode 220) calm) ([], [[0x01, 0x14, 0x00, 0x00]]) ∧
    leaves seen (exec (.setmode (-1)) (linked [true])) ([], [[0x01, 0x14, 0x00, 0x00]]) ∧
    leaves seen (exec (.setmode 4) calm) ([], [[0x08, 0x14, 0x00, 0x00]]) := by
  decide +kernel
/-- K-10. -/
theorem test_setbright :
    leaves seen (exec (.setbright 100) (linked [true]))
      ([([0xCA, 0x06, 0x00, 0x08, 0x64, 0x3C], true)], [[0x00, 0x15, 0x00, 0x00]]) ∧
    leaves seen (exec (.setbright 101) (linked [true])) ([], [[0x01, 0x15, 0x00, 0x00]]) := by
  decide +kernel
/-- K-11. -/
theorem test_setspeed :
    leaves seen (exec (.setspeed 255) (linked [true]))
      ([([0xCA, 0x06, 0x00, 0x06, 0xFF, 0xD5], true)], [[0x00, 0x17, 0x00, 0x00]]) ∧
    leaves seen (exec (.setspeed 256) (linked [true])) ([], [[0x01, 0x17, 0x00, 0x00]]) := by
  decide +kernel
/-- K-12. -/
theorem test_setauto : leaves seen (exec (.setauto true) (linked [true]))
      ([([0xCA, 0x06, 0x00, 0x02, 0x01, 0xD3], true)], [[0x00, 0x18, 0x00, 0x00]]) := by
  decide +kernel
/-- K-13. -/
theorem test_setpause : leaves seen (exec (.setpause false) (linked [true]))
      ([([0xCA, 0x06, 0x00, 0x03, 0x00, 0xD3], true)], [[0x00, 0x19, 0x00, 0x00]]) := by
  decide +kernel
/-- K-14. -/
theorem test_setdir :
    leaves seen (exec (.setdir true) (linked [true]))
      ([([0xCA, 0x06, 0x00, 0x05, 0x00, 0xD5], true)], [[0x00, 0x1A, 0x00, 0x00]]) ∧
    leaves seen (exec (.setdir false) (linked [true]))
      ([([0xCA, 0x06, 0x00, 0x05, 0x01, 0xD6], true)], [[0x00, 0x1A, 0x00, 0x00]]) := by
  decide +kernel
/-- K-16. -/
theorem test_setleds :
    leaves seen (exec (.setleds 2048) (linked [true]))
      ([([0xCA, 0x07, 0x00, 0x09, 0x00, 0x08, 0xE2], true)], [[0x00, 0x1B, 0x00, 0x00]]) ∧
    leaves seen (exec (.setleds 2049) (linked [true])) ([], [[0x01, 0x1B, 0x00, 0x00]]) := by
  decide +kernel
/-- K-22, K-25, K-26. -/
theorem test_setcolor_off :
    leaves seen (exec (.setcolor [0x30, 0x30, 0x30, 0x30, 0x30, 0x30] [0x35, 0x30]) (linked [true]))
      ([([0xCA, 0x06, 0x00, 0x01, 0x00, 0xD1], true)], [[0x00, 0x16, 0x00, 0x00]]) ∧
    leaves seen (exec (.setcolor [0x7A, 0x7A, 0x7A, 0x7A, 0x7A, 0x7A] [0x6F, 0x66, 0x66]) (linked [true]))
      ([], [[0x01, 0x16, 0x00, 0x00]]) ∧
    leaves seen (exec (.setcolor [0x38, 0x30, 0x30, 0x30, 0x30, 0x30] [0x31, 0x30, 0x31]) (linked [true]))
      ([], [[0x01, 0x16, 0x00, 0x00]]) := by
  decide +kernel
/-- K-27, P1 line 2. -/
theorem test_setcolor_on :
    leaves seen (exec (.setcolor [0x38, 0x30, 0x30, 0x30, 0x30, 0x30] [0x30, 0x35, 0x30]) (linked [true]))
      ([([0xCA, 0x06, 0x00, 0x01, 0x01, 0xD2], true)], []) ∧
    leaves (fun s => (s.seqPhase, s.seqWake, s.seqCode, s.seqLum))
      (exec (.setcolor [0x38, 0x30, 0x30, 0x30, 0x30, 0x30] [0x30, 0x35, 0x30]) (linked [true]))
      (.waitOn, 100, 0x00, 50) := by
  decide +kernel
/-- C15, X-6, X-8. -/
theorem test_rdstat :
    leaves resultBytes (exec .rdstat calm) [[0x00, 0x20, 0x04, 0x00, 0x00, 0x00, 0x00, 0x00]] ∧
    leaves resultBytes (exec .rdstat { waiting 10 with colCount := 3 })
      [[0x00, 0x20, 0x04, 0x00, 0x3B, 0x00, 0x00, 0x00]] ∧
    leaves resultBytes (exec .rdstat (pacing .waitMode []))
      [[0x00, 0x20, 0x04, 0x00, 0x01, 0x02, 0x00, 0x00]] := by
  decide +kernel
/-- A packet row is handed over as it stands, and, without a connection, nothing happens (log entry 8). -/
theorem test_pktMode :
    leaves (fun s => (s.txLog, s.results)) (exec (.pktMode 0xDB 0xAF) (linked [true]))
      ([([0xCA, 0x06, 0x00, 0x04, 0xDB, 0xAF], true)], []) ∧
    leaves (fun s => s.txLog) (exec (.pktMode 0xDB 0xAF) calm) [] := by
  decide +kernel
/-- D-5's packet and RDCMD's 0x07 are sent; a reserved status, or READ with a parameter, is not (30_encoding R105, R108). -/
theorem test_pktRgborder :
    leaves (fun s => s.txLog) (exec (.pktRgborder 0x06 0x00 [0x02] 0xD9) (linked [true]))
      [([0xCA, 0x06, 0x00, 0x07, 0x02, 0xD9], true)] ∧
    leaves (fun s => s.txLog) (exec (.pktRgborder 0x05 0x01 [] 0xD7) (linked [true]))
      [([0xCA, 0x05, 0x01, 0x07, 0xD7], true)] ∧
    leaves (fun s => s.txLog) (exec (.pktRgborder 0x06 0x02 [0x02] 0xDB) (linked [true])) [] ∧
    leaves (fun s => s.txLog) (exec (.pktRgborder 0x06 0x01 [0x02] 0xDA) (linked [true])) [] := by
  decide +kernel
theorem test_pktResponse :
    leaves (fun s => s.tx.inbound) (exec (.pktResponse 0x01 0x0A 0x01 0x02 0xDF) calm) R := by
  decide +kernel

/-! ### One step, at the vectors' values -/

/-- D-8 (a completed poll validates), D-9 (the excess is discarded). -/
theorem test_poll_completes :
    leaves resultBytes (step (reading [0xCA, 0x07, 0x01, 0x0A, 0x01, 0x02, 0xDE] 7 0)) [[0x06, 0x0A, 0x00, 0x00]] ∧
    leaves (fun s => (resultBytes s, s.tx.inbound, s.rdBusy, s.colCount)) (step (reading (0x00 :: R) 8 0))
      ([[0x04, 0x0A, 0x00, 0x00]], [], false, 7) := by
  decide +kernel
/-- C6: three bytes at 40, the next poll at 60. C4: short at 500 is a timeout. -/
theorem test_poll_short :
    leaves (fun s => (s.colPhase, s.colWake, s.colCount, s.results)) (step (reading [0xCA, 0x07, 0x01] 3 40))
      (.wait, 60, 3, []) ∧
    leaves (fun s => (s.colPhase, s.rdBusy, resultBytes s)) (step (reading [0xCA] 1 500))
      (.idle, false, [[0x03, 0x0A, 0x00, 0x00]]) := by
  decide +kernel
/-- C7: at most `MAX_CHUNK` bytes in one read. -/
theorem test_poll_chunk :
    leaves (fun s => (s.colCount, s.tx.inbound.length))
      (step { reading R 7 0 with cfg := { testConfig with maxChunk := 1 } }) (1, 6) := by
  decide +kernel
/-- P1 line 3 at 100 and 200, K-29. -/
theorem test_sequencer :
    leaves (fun s => (s.txLog, s.seqPhase, s.seqWake)) (step (pacing .waitOn [true]))
      ([([0xCA, 0x06, 0x00, 0x04, 0x00, 0xD4], true)], .waitMode, 200) ∧
    leaves (fun s => (s.txLog, s.seqPhase, s.seqWake)) (step (pacing .waitMode [true]))
      ([([0xCA, 0x06, 0x00, 0x08, 0x32, 0x0A], true)], .waitBright, 200) ∧
    leaves (fun s => (s.seqPhase, resultBytes s)) (step (pacing .waitOn [false]))
      (.idle, [[0x02, 0x16, 0x06, 0x00, 0xCA, 0x06, 0x00, 0x04, 0x00, 0xD4]]) := by
  decide +kernel
/-- C8, X-9. -/
theorem test_cancel :
    leaves (fun s => (s.colPhase, s.rdBusy, s.cancelPend, resultBytes s)) (step { waiting 10 with events := [.cancel] })
      (.idle, false, false, [[0x07, 0x06, 0x00, 0x00]]) ∧
    leaves (fun s => (s.cancelPend, s.results)) (step { calm with events := [.cancel] }) (true, []) := by
  decide +kernel
/-- X-1; a request whose data are not as long as its header says is refused by name. -/
theorem test_illegal_and_length :
    leaves resultBytes (step { calm with events := [.instr .request [0x00, 0x00, 0x00, 0x00]] })
      [[0x0A, 0x00, 0x00, 0x00]] ∧
    stops (step { calm with events := [.instr .request [0x03, 0x09, 0x02, 0x00]] }) := by
  decide +kernel
/-- A TICK already past takes no tick, and the wake due at 20 is still run before it ends (log entry 17). -/
theorem test_tick_past :
    leaves (fun s => (s.now, s.colPhase, s.events)) (step { waiting 20 with events := [.tickTo 5] })
      (20, .poll, [.tickTo 5]) ∧
    leaves (fun s => (s.now, s.events)) (step { waiting 10 with events := [.tickTo 5] }) (10, []) := by
  decide +kernel
/-- X-5, X-10. -/
theorem test_faulted_and_reset :
    leaves resultBytes (step { waiting 10 with
      fault := some .concurrentRead, events := [.instr .request [0x20, 0x00, 0x00, 0x00]] }) [] ∧
    leaves (fun s => (s.fault, s.conn, s.rdBusy, s.now, s.tx.calls)) (step { waiting 10 with
      fault := some .concurrentRead, events := [.reset] }) (none, .disconnected, false, 0, []) := by
  decide +kernel
/-- P5: the clock does not pass a due wake, so a faulted engine at 20 is stuck; at 19 it still ticks. -/
theorem test_faulted_clock :
    stops (step { waiting 20 with fault := some .concurrentRead }) ∧
    leaves (fun s => s.now) (step { waiting 19 with fault := some .concurrentRead }) 20 := by
  decide +kernel
/-- A request runs as the first step after reset. -/
theorem test_first_step :
    leaves resultBytes (step (State.reset.withFetchWord 32 0x00000020))
      [[0x00, 0x20, 0x04, 0x00, 0x00, 0x00, 0x00, 0x00]] := by
  decide +kernel

/-- 70_reset R389: where waits may overrun, the favoured agent is taken once its grace has run out, the others still
enabled; a free choice leaves one less. -/
theorem test_favoured_agent :
    leaves (fun s => (s.colPhase, s.sched.favoured))
      (step { overrun .wait .waitOn with sched := { favoured := .collector, grace := 0 } }) (.poll, .sequencer) ∧
    leaves (fun s => (s.now, s.sched.favoured))
      (step { overrun .wait .waitOn with sched := { favoured := .clock, grace := 0 } }) (101, .collector) ∧
    ({ favoured := .clock, grace := 3 } : Schedule).next 0 = { favoured := .clock, grace := 2 } := by
  decide +kernel
/-! ### Witnesses: states and operands that meet the hypotheses of each statement -/

/-- The colour string "800000" names red. -/
theorem witness_colour : NamesColour [0x38, 0x30, 0x30, 0x30, 0x30, 0x30] 0x80 0x00 0x00 :=
  ⟨0x38, 0x30, 0x30, 0x30, 0x30, 0x30, 8, 0, 0, 0, 0, 0, by simp [HexValue]⟩

/-- The letters at the ends of both ranges of hex letters: "aFfA09". -/
theorem witness_colour_letters : NamesColour [0x61, 0x46, 0x66, 0x41, 0x30, 0x39] 0xAF 0xFA 0x09 :=
  ⟨0x61, 0x46, 0x66, 0x41, 0x30, 0x39, 10, 15, 15, 10, 0, 9, by simp [HexValue]⟩

/-- A string of five characters names no colour. -/
theorem witness_no_colour : ∀ r g b : Byte, ¬ NamesColour [0x38, 0x30, 0x30, 0x30, 0x30] r g b := by
  rintro r g b ⟨_, _, _, _, _, _, _, _, _, _, _, _, h, _⟩
  simp at h

/-- Red is nearest to itself, black to itself, in the test palette. -/
theorem witness_nearest : Nearest testPalette 0x80 0x00 0x00 0 ∧ Nearest testPalette 0x00 0x00 0x00 14 := by
  unfold Nearest squaredDistance; decide +kernel

/-- The brightness strings "0", "050" and "100". -/
theorem witness_brightness :
    NamesBrightness [0x30] 0 ∧ NamesBrightness [0x30, 0x35, 0x30] 50 ∧ NamesBrightness [0x31, 0x30, 0x30] 100 := by
  simp [NamesBrightness, Nat.ofDigits]

/-- "101" and "OFF" are neither "off" nor a brightness. -/
theorem witness_no_brightness :
    (∀ v, ¬ NamesBrightness [0x31, 0x30, 0x31] v) ∧ (∀ v, ¬ NamesBrightness [0x4F, 0x46, 0x46] v) := by
  refine ⟨?_, ?_⟩ <;> rintro v ⟨-, h, e, l⟩
  · simp [Nat.ofDigits] at e; omega
  · exact absurd (h 0x4F (by simp)).2 (by decide)

theorem witness_RequestDecodeOfEncode :
    (Instr.setcolor [0x38] [0x6F, 0x66, 0x66]).wf = true ∧ (Instr.setcolor [0x38] [0x6F, 0x66, 0x66]).port = .request := by
  decide
theorem witness_PacketDecodeOfEncode :
    (Instr.pktResponse 0x01 0x0A 0x01 0x02 0xDF).wf = true ∧ (Instr.pktWrite 0x05 0x00 [] 0xCF).wf = true ∧
      (Instr.pktPower 0x06 [0x01] 0xD2).port ≠ .request := by
  decide
theorem witness_DecodedBytesAreTheEncoding : decode .request [0x06, 0x00, 0x00, 0x00] = .ok .collect := by decide
theorem witness_LegalRequestsDecode :
    (¬ IllegalHeader 0x02 0x0A 0x02 0 ∧ [(0x01 : Byte), 0x01, 0x02].length = dataLength 0x02 0x0A 0x02) ∧
    (¬ IllegalHeader 0x10 0 0 0 ∧ [(0 : Byte), 0, 0, 0].length = dataLength 0x10 0 0) ∧
    (¬ IllegalHeader 0x16 1 1 0 ∧ [(0x38 : Byte), 0x30].length = dataLength 0x16 1 1) ∧
    (¬ IllegalHeader 0x1A 1 0 0 ∧ ([] : List Byte).length = dataLength 0x1A 1 0) := by
  refine ⟨⟨?_, rfl⟩, ⟨?_, rfl⟩, ⟨?_, rfl⟩, ⟨?_, rfl⟩⟩ <;> unfold IllegalHeader <;> decide
theorem witness_IllegalRequestIsOnlyAnswered :
    ({ calm with events := [.instr .request [0x20, 0x00, 0x00, 0x01]] } : State).fault = none ∧
      IllegalHeader 0x20 0 0 1 ∧ IllegalHeader 0x1D 0 0 0 ∧ IllegalHeader 0x0A 0x04 1 0 ∧ IllegalHeader 0x10 1 0 0 ∧
      IllegalHeader 0x06 1 0 0 ∧ IllegalHeader 0x1C 0 1 0 ∧ IllegalHeader 0x07 0 2 0 ∧ IllegalHeader 0x14 0 3 0 ∧
      IllegalHeader 0x18 2 0 0 ∧ IllegalHeader 0x1A 1 1 0 := by
  refine ⟨rfl, ?_, ?_, ?_, ?_, ?_, ?_, ?_, ?_, ?_, ?_⟩ <;> unfold IllegalHeader <;> decide
theorem witness_StepRunsTheDecodedInstruction :
    ({ calm with events := [.instr .request [0x06, 0x00, 0x00, 0x00]] } : State).events =
      .instr .request [0x06, 0x00, 0x00, 0x00] :: [] ∧ decode .request [0x06, 0x00, 0x00, 0x00] = .ok .collect := by
  decide
/-- CKSUM, ENCF, ENCW, ENCR, DECR, QRGB, QHEX, RDSTAT: an unfaulted engine is enough. -/
theorem witness_pure_requests : calm.fault = none ∧ calm.colCount ≤ 7 := by decide
theorem witness_FramedPacketsAreWellFormed : (List.replicate 250 (0xFF : Byte)).length ≤ 250 := by decide +kernel
/-- A changed byte at each end, and next to each border between the errors. -/
theorem witness_CorruptedByteGivesItsOwnError :
    calm.fault = none ∧ (frame 0x01 0x0A [0x01, 0x02])[(0 : Fin 7).val]? ≠ some 0xCB ∧
    (frame 0x01 0x0A [0x01, 0x02])[(1 : Fin 7).val]? ≠ some 0x08 ∧
    (frame 0x01 0x0A [0x01, 0x02])[(2 : Fin 7).val]? ≠ some 0x02 ∧
    (frame 0x01 0x0A [0x01, 0x02])[(6 : Fin 7).val]? ≠ some 0x00 := by
  decide
/-- COLLECT, RDCMD, GETFW: busy, disconnected, connected with either answer. -/
theorem witness_collections :
    ((waiting 10).fault = none ∧ (waiting 10).rdBusy = true) ∧
    (calm.fault = none ∧ calm.rdBusy = false ∧ calm.conn = .disconnected) ∧
    ((linked [true]).fault = none ∧ (linked [true]).rdBusy = false ∧ (linked [true]).conn = .connected 0 ∧ (linked [true]).writeDraw = true) ∧
    (linked [false]).writeDraw = false := by
  decide
theorem witness_EngineInv_reading : EngineInv (reading R 6 0) where
  cfg_ok := by decide +kernel
  count_le := by decide
  written_iff := by decide
  busy_iff := by decide
  owner_iff := by decide
  incomplete := by decide
  connected := by decide
  lum_le := by decide
  code_le := by decide
  cancel_free := by decide
/-- A script of draws, the stream longer and shorter than a chunk, and a poll within the invariant. -/
theorem witness_TxReadTakesTheNextBytes :
    ((reading R 6 0).tx.readSizes = 6 :: [] ∧ (reading R 6 0).nextChunk = R.take 6) ∧
    ((reading R 8 0).nextChunk = R) ∧
    (EngineInv (reading R 6 0) ∧ (reading R 6 0).events = .turn .collector :: [] ∧ (reading R 6 0).fault = none ∧
      (reading R 6 0).colPhase = .poll) :=
  ⟨by decide +kernel, by decide +kernel, witness_EngineInv_reading, by decide, by decide, by decide⟩
theorem witness_PollThatCompletesDelivers :
    (reading R 7 500).events = .turn .collector :: [] ∧ (reading R 7 500).fault = none ∧
    (reading R 7 500).colPhase = .poll ∧ (reading R 7 500).colOwner ≠ .none ∧
    (∀ i : Fin 7, (reading R 7 500).colBuf[i].isSome = true ↔ i.val < (reading R 7 500).colCount) ∧
    (reading R 7 500).colCount ≤ 7 ∧ 7 ≤ (reading R 7 500).colCount + (reading R 7 500).nextChunk.length := by
  decide +kernel
theorem witness_ShortPollWaits :
    (reading R 6 499).events = .turn .collector :: [] ∧ (reading R 6 499).fault = none ∧
    (reading R 6 499).colPhase = .poll ∧ (reading R 6 499).colOwner ≠ .none ∧
    (reading R 6 499).colCount + (reading R 6 499).nextChunk.length < 7 ∧
    (reading R 6 499).now < (reading R 6 499).colDeadline ∧ (reading R 6 499).cancelPend = false ∧
    ({ reading R 6 499 with cancelPend := true } : State).cancelPend = true := by
  decide +kernel
theorem witness_ShortPollTimesOut :
    (reading R 6 500).events = .turn .collector :: [] ∧ (reading R 6 500).fault = none ∧
    (reading R 6 500).colPhase = .poll ∧ (reading R 6 500).colOwner ≠ .none ∧
    (reading R 6 500).colCount + (reading R 6 500).nextChunk.length < 7 ∧
    (reading R 6 500).colDeadline ≤ (reading R 6 500).now := by
  decide +kernel
theorem witness_WakeMakesAPollDue :
    ({ waiting 20 with events := [.turn .collector] } : State).events = .turn .collector :: [] ∧
    (waiting 20).fault = none ∧ (waiting 20).colPhase = .wait ∧ (waiting 20).colWake ≤ (waiting 20).now ∧
    ¬ (waiting 19).colWake ≤ (waiting 19).now ∧ calm.colPhase = .idle := by
  decide
theorem witness_QhexReadsSixDigits :
    calm.fault = none ∧ NamesColour [0x38, 0x30, 0x30, 0x30, 0x30, 0x30] 0x80 0x00 0x00 ∧
    ∀ r g b : Byte, ¬ NamesColour [0x38, 0x30, 0x30, 0x30, 0x30] r g b :=
  ⟨rfl, witness_colour, witness_no_colour⟩
theorem witness_SourceColoursHoldForEveryPalette : calm.fault = none ∧ calm.cfg.palette.ok = true := by decide +kernel
theorem witness_WrcmdSendsOnePacket :
    calm.cfg.maxParams < (List.replicate 251 (0 : Byte)).length ∧
    ((List.replicate 250 (0 : Byte)).length ≤ calm.cfg.maxParams ∧ calm.conn = .disconnected) ∧
    ((List.replicate 250 (0 : Byte)).length ≤ (linked []).cfg.maxParams ∧ (linked []).conn = .connected 0) := by
  decide +kernel
theorem witness_ConnectOpensOnce :
    (linked []).conn = .connected 0 ∧
    (calm.conn = .disconnected ∧
      ({ calm with tx := { Transport.initial with openAnswers := [false] } } : State).openDraw = false) ∧
    ({ calm with tx := { Transport.initial with openAnswers := [true] } } : State).openDraw = true := by
  decide
theorem witness_DisconnectAlwaysReleases :
    ((waiting 10).rdBusy = true) ∧ ((pacing .waitOn []).seqPhase ≠ .idle) ∧
    (calm.rdBusy = false ∧ calm.seqPhase = .idle ∧ calm.conn = .disconnected) ∧
    ((linked []).fault = none ∧ (linked []).rdBusy = false ∧ (linked []).seqPhase = .idle ∧
      (linked []).conn = .connected 0) := by
  decide
theorem witness_PlainWritesSendTheirPacket :
    (calm.fault = none ∧ calm.conn = .disconnected) ∧ (linked []).fault = none ∧ (linked []).conn = .connected 0 := by
  decide
/-- The ends of each range of a ranged write, and the first values outside. -/
theorem witness_RangedWritesCheckThenSend :
    (0 ≤ (0 : Word).toInt ∧ (219 : Word).toInt ≤ 219 ∧ (100 : Word).toInt ≤ 100 ∧ (255 : Word).toInt ≤ 255 ∧
      (2048 : Word).toInt ≤ 2048) ∧
    ¬ (0 ≤ (-1 : Word).toInt) ∧ ¬ (220 : Word).toInt ≤ 219 ∧ ¬ (101 : Word).toInt ≤ 100 ∧ ¬ (256 : Word).toInt ≤ 255 ∧
      ¬ (2049 : Word).toInt ≤ 2048 := by
  decide
theorem witness_SetcolorChecksBeforeSending :
    ((pacing .waitOn []).fault = none ∧ (pacing .waitOn []).seqPhase ≠ .idle) ∧
    (calm.fault = none ∧ calm.seqPhase = .idle ∧ calm.conn = .disconnected) ∧
    (∀ r g b : Byte, ¬ NamesColour [0x38, 0x30, 0x30, 0x30, 0x30] r g b) ∧
    (([0x31, 0x30, 0x31] : List Byte) ≠ [0x6F, 0x66, 0x66] ∧ ∀ v, ¬ NamesBrightness [0x31, 0x30, 0x31] v) ∧
    NamesColour [0x38, 0x30, 0x30, 0x30, 0x30, 0x30] 0x80 0x00 0x00 ∧ NamesBrightness [0x31, 0x30, 0x30] 100 :=
  ⟨by decide, by decide, witness_no_colour, ⟨by decide, witness_no_brightness.1⟩, witness_colour, witness_brightness.2.2⟩
theorem witness_SetcolorOffPath :
    ((linked []).fault = none ∧ (linked []).seqPhase = .idle ∧ (linked []).conn = .connected 0) ∧
    (NamesColour [0x38, 0x30, 0x30, 0x30, 0x30, 0x30] 0x80 0x00 0x00 ∧ Nearest (linked []).cfg.palette 0x80 0x00 0x00 0) ∧
    (NamesColour [0x30, 0x30, 0x30, 0x30, 0x30, 0x30] 0x00 0x00 0x00 ∧
      Nearest (linked []).cfg.palette 0x00 0x00 0x00 14 ∧ NamesBrightness [0x30] 0 ∧
      (linked []).cfg.palette[(14 : Fin 15)].code = (linked []).cfg.palette[14].code) :=
  ⟨by decide, ⟨witness_colour, witness_nearest.1⟩,
    ⟨0x30, 0x30, 0x30, 0x30, 0x30, 0x30, 0, 0, 0, 0, 0, 0, by simp [HexValue]⟩, witness_nearest.2, witness_brightness.1, rfl⟩
theorem witness_SetcolorPacesItsWrites_on :
    ((linked [true]).fault = none ∧ (linked [true]).seqPhase = .idle ∧ (linked [true]).conn = .connected 0) ∧
    NamesColour [0x38, 0x30, 0x30, 0x30, 0x30, 0x30] 0x80 0x00 0x00 ∧ Nearest (linked [true]).cfg.palette 0x80 0x00 0x00 0 ∧
    NamesBrightness [0x30, 0x35, 0x30] 50 ∧
    (linked [true]).cfg.palette[(0 : Fin 15)].code ≠ (linked [true]).cfg.palette[14].code ∧
    (linked [false]).writeDraw = false ∧ ((linked [true]).writeDraw = true ∧ (linked [true]).cancelPend = false) ∧
    ({ linked [true] with cancelPend := true } : State).cancelPend = true :=
  ⟨by decide, witness_colour, witness_nearest.1, witness_brightness.2.1, by decide, by decide, by decide, by decide⟩
theorem witness_SetcolorPacesItsWrites_steps :
    ((pacing .waitOn [true]).events = .turn .sequencer :: [] ∧ (pacing .waitOn [true]).fault = none ∧
      (pacing .waitOn [true]).conn = .connected 0 ∧ (pacing .waitOn [true]).seqWake ≤ (pacing .waitOn [true]).now) ∧
    (pacing .waitOn [true]).seqPhase = .waitOn ∧ (pacing .waitMode [true]).seqPhase = .waitMode ∧
    (pacing .waitBright []).seqPhase = .waitBright ∧ (pacing .waitOn [false]).writeDraw = false ∧
    ({ pacing .waitMode [] with conn := .disconnected } : State).conn = .disconnected := by
  decide
/-- The sequencer's turn in IDLE, and the last one before `SEQ_WAKE`. -/
theorem witness_SetcolorPacesItsWrites_early :
    (({ calm with events := [.turn .sequencer] } : State).events = .turn .sequencer :: [] ∧ calm.fault = none ∧
      calm.seqPhase = .idle) ∧
    ({ pacing .waitOn [] with now := 99, seqWake := 100 } : State).now <
      ({ pacing .waitOn [] with now := 99, seqWake := 100 } : State).seqWake := by
  decide
theorem witness_SetcolorRunsItsWholeSequence :
    ((linked [true, true, true]).fault = none ∧ (linked [true, true, true]).cfg.exactWait = true ∧
      (linked [true, true, true]).cfg.paceMs = 100 ∧ (linked [true, true, true]).seqPhase = .idle ∧
      (linked [true, true, true]).colPhase = .idle ∧ (linked [true, true, true]).cancelPend = false ∧
      (linked [true, true, true]).conn = .connected 0 ∧ (linked [true, true, true]).events = [] ∧
      (linked [true, true, true]).tx.writeAnswers = true :: true :: true :: []) ∧
    NamesColour [0x38, 0x30, 0x30, 0x30, 0x30, 0x30] 0x80 0x00 0x00 ∧
    Nearest (linked [true, true, true]).cfg.palette 0x80 0x00 0x00 0 ∧ NamesBrightness [0x30, 0x35, 0x30] 50 ∧
    (linked [true, true, true]).cfg.palette[(0 : Fin 15)].code ≠ (linked [true, true, true]).cfg.palette[14].code :=
  ⟨by decide, witness_colour, witness_nearest.1, witness_brightness.2.1, by decide⟩
theorem witness_PacketRowsAreWellFormedPackets :
    (Instr.pktLedcount 0x2C 0x01 0x07).port ≠ .request ∧ (Instr.pktLedcount 0x2C 0x01 0x07).wf = true := by decide
theorem witness_OutboundPacketsAreHandedOver :
    (Instr.pktFwread 0xDA).port = .outbound ∧ calm.fault = none ∧ calm.conn = .disconnected ∧
    ¬ WellFormedPacket (Instr.pktFwread 0xDB).encode ∧
    (WellFormedPacket (Instr.pktRgborder 0x06 0x02 [0x02] 0xDB).encode ∧
      ¬ WriteOrRead (Instr.pktRgborder 0x06 0x02 [0x02] 0xDB).encode ∧
      ¬ WriteOrRead (Instr.pktRgborder 0x06 0x01 [0x02] 0xDA).encode) ∧
    ((linked []).conn = .connected 0 ∧ WellFormedPacket (Instr.pktFwread 0xDA).encode ∧
      WriteOrRead (Instr.pktFwread 0xDA).encode) ∧
    (WellFormedPacket (Instr.pktRgborder 0x05 0x01 [] 0xD7).encode ∧
      WriteOrRead (Instr.pktRgborder 0x05 0x01 [] 0xD7).encode) ∧
    (∀ len st params sum, Instr.pktFwread 0xDA ≠ .pktRgborder len st params sum) := by
  refine ⟨rfl, rfl, rfl, ?_⟩
  unfold WellFormedPacket WriteOrRead
  exact ⟨by decide, by decide, by decide, by decide, by simp⟩
theorem witness_MisuseRaisesItsFault :
    ((waiting 10).fault = none ∧ (waiting 10).rdBusy = true) ∧
    ((pacing .waitOn []).fault = none ∧ (pacing .waitOn []).seqPhase ≠ .idle) ∧
    ({ calm with fault := some .seqBusy } : State).fault ≠ none := by
  decide
/-- A faulted engine whose response arrives, and one whose clock ticks. -/
theorem witness_FaultedEngineStaysStuck :
    ({ waiting 19 with fault := some .concurrentRead } : State).fault = some .concurrentRead ∧
    ({ waiting 19 with fault := some .concurrentRead } : State).nextEvent ≠ some .reset ∧
    step { waiting 19 with fault := some .concurrentRead } =
      .next { waiting 20 with fault := some .concurrentRead } :=
  ⟨rfl, by decide, rfl⟩
theorem witness_CancelAbortsEveryWait :
    (({ waiting 10 with events := [.cancel] } : State).events = .cancel :: [] ∧ (waiting 10).fault = none) ∧
    ((waiting 10).colPhase = .wait ∧ (waiting 10).colOwner ≠ .none ∧ (waiting 10).seqPhase = .idle) ∧
    ({ waiting 10 with seqPhase := .waitOn } : State).seqPhase ≠ .idle ∧
    ((pacing .waitOn []).colPhase ≠ .wait ∧ (pacing .waitOn []).seqPhase ≠ .idle) ∧
    (calm.colPhase ≠ .wait ∧ calm.seqPhase = .idle) := by
  decide
theorem witness_ResetSetsEveryElement : ({ waiting 10 with events := [.reset] } : State).events = .reset :: [] := by decide
/-- A tick at 19 is enabled, one at 20 waits for the wake. -/
theorem witness_TickWaitsForDueSteps :
    ({ waiting 20 with events := [.turn .clock] } : State).events = .turn .clock :: [] ∧
    ((waiting 20).cfg.exactWait = true ∧ (waiting 20).colPhase = .wait ∧ (waiting 20).colWake ≤ (waiting 20).now) ∧
    ((waiting 19).seqPhase = .idle ∧ (waiting 19).colPhase = .wait ∧ ¬ (waiting 19).colWake ≤ (waiting 19).now) := by
  decide
theorem witness_TimeAdvancesOnlyByTheClock :
    step calm = .next { calm with now := 1 } ∧ calm.nextEvent ≠ some .reset ∧ ({ calm with now := 1 } : State).now ≠ calm.now :=
  ⟨rfl, by decide, by decide⟩
/-- A CONNECT whose `TxOpen` is answered changes `CONN`. -/
theorem witness_OnlyConnectDisconnectResetWriteConn :
    leaves (fun s => s.conn) (step { calm with
      tx := { Transport.initial with openAnswers := [true] }
      events := [.instr .request [0x10, 0x00, 0x00, 0x00, 0x00, 0x00, 0x00, 0x00]] }) (.connected 0) ∧
    calm.conn = .disconnected := by
  decide +kernel
theorem witness_PreconditionViolationSendsNothing :
    exec (.setmode 220) calm = .next (calm.withResult .preconditionViolation 0x14 []) ∧
    ({ kind := .preconditionViolation, op := 0x14, payload := [], time := 0 } : Result) ∈
      (calm.withResult .preconditionViolation 0x14 []).results.drop calm.results.length ∧
    (Instr.setmode 220).port = .request :=
  ⟨rfl, by decide, rfl⟩
theorem witness_IoErrorCarriesTheRejectedPacket :
    leaves (fun s => (s.results.drop 0).map (·.kind)) (step (pacing .waitOn [false])) [.ioError] ∧
    (pacing .waitOn [false]).results.length = 0 := by
  decide +kernel
theorem witness_EveryRequestIsAnsweredOnce : (Instr.setmode 4).port = .request ∧ calm.fault = none := by decide

/-- The engine's invariant holds in the test configuration after reset, and while a collection waits. -/
theorem witness_EngineInv_calm : EngineInv calm where
  cfg_ok := by decide +kernel
  count_le := by decide
  written_iff := by decide
  busy_iff := by decide
  owner_iff := by decide
  incomplete := by decide
  connected := by decide
  lum_le := by decide
  code_le := by decide
  cancel_free := by decide
theorem witness_EngineInv_waiting : EngineInv (waiting 20) where
  cfg_ok := by decide +kernel
  count_le := by decide
  written_iff := by decide
  busy_iff := by decide
  owner_iff := by decide
  incomplete := by decide
  connected := by decide
  lum_le := by decide
  code_le := by decide
  cancel_free := by decide
theorem witness_EngineInv_overrun (c : ColPhase) (hc : c ≠ .idle) (q : SeqPhase) : EngineInv (overrun c q) where
  cfg_ok := show ({ testConfig with exactWait := false } : Config).ok = true by decide +kernel
  count_le := Nat.zero_le 7
  written_iff := show ∀ i : Fin 7, unwrittenBuf[i].isSome = true ↔ i.val < 0 by decide
  busy_iff := by simp [overrun, hc]
  owner_iff := by simp [overrun]
  incomplete := by simp [overrun, pacing, linked, calm, State.reset]
  connected := by simp [overrun, pacing, linked]
  lum_le := show (50 : BitVec 7).toNat ≤ 100 by decide
  code_le := show (0 : Byte).toNat ≤ 219 by decide
  cancel_free := by simp [overrun, pacing, linked, calm, State.reset]
theorem witness_LogInv : LogInv { waiting 20 with txLog := [([0xCA, 0x05, 0x01, 0x0A, 0xDA], true)] } where
  cfg_ok := by decide +kernel
  framed := by unfold WellFormedPacket; decide
theorem witness_TimeInv : TimeInv (waiting 20) where
  exact_wait := rfl
  timeout_ms := rfl
  poll_ms := rfl
  pace_ms := rfl
  poll_time := by decide
  wait_time := by decide
  seq_time := by decide
theorem witness_HandleInv :
    HandleInv { linked [] with conn := .connected 1, tx := { Transport.initial with issued := 2, calls := [.released 0] } } where
  fresh := by rintro h ⟨⟩; decide
  known := by intro h hm; simp at hm; subst hm; decide
  gone := by intro h hm; simp at hm; subst hm; decide
  unused := by
    intro before after h e c hc
    rcases before with _ | ⟨x, xs⟩
    · simp at e; obtain ⟨rfl, rfl⟩ := e; simp at hc
    · simp at e
theorem witness_EveryStepKeepsEngineInv :
    EngineInv (waiting 20) ∧ step (waiting 20) = .next { waiting 20 with colPhase := .poll } :=
  ⟨witness_EngineInv_waiting, rfl⟩
theorem witness_EveryStepKeepsLogFramed :
    LogInv { waiting 20 with txLog := [([0xCA, 0x05, 0x01, 0x0A, 0xDA], true)] } ∧
    ∃ t, step { waiting 20 with txLog := [([0xCA, 0x05, 0x01, 0x0A, 0xDA], true)] } = .next t :=
  ⟨witness_LogInv, _, rfl⟩
theorem witness_EveryStepSendsWritesOrReads :
    KindInv { waiting 20 with txLog := [([0xCA, 0x05, 0x01, 0x0A, 0xDA], true), ([0xCA, 0x05, 0x00, 0x00, 0xCF], false)] } ∧
    ∃ t, step { waiting 20 with
      txLog := [([0xCA, 0x05, 0x01, 0x0A, 0xDA], true), ([0xCA, 0x05, 0x00, 0x00, 0xCF], false)] } = .next t :=
  ⟨⟨by unfold WriteOrRead; decide⟩, _, rfl⟩
theorem witness_EveryStepKeepsTheSchedule :
    TimeInv (waiting 20) ∧ step (waiting 20) = .next { waiting 20 with colPhase := .poll } :=
  ⟨witness_TimeInv, rfl⟩
theorem witness_NoHandleIsUsedAfterRelease :
    HandleInv { linked [] with conn := .connected 1, tx := { Transport.initial with issued := 2, calls := [.released 0] } } ∧
    ∃ t, step { linked [] with
      conn := .connected 1, tx := { Transport.initial with issued := 2, calls := [.released 0] } } = .next t :=
  ⟨witness_HandleInv, _, rfl⟩
/-- ConfigurationNeverChanges and AtMostOnePacketPerStep: a step that sends a packet. -/
theorem witness_step_that_sends :
    (∃ t, step (pacing .waitOn [true]) = .next t) ∧ (pacing .waitOn [true]).nextEvent ≠ some .reset :=
  ⟨⟨_, rfl⟩, by decide⟩
theorem witness_UnfaultedEngineIsNeverStuck : EngineInv calm ∧ calm.fault = none ∧ calm.events = [] :=
  ⟨witness_EngineInv_calm, rfl, rfl⟩
/-- With `EXACT_WAIT` false a wake is due while the clock may tick, and a step of the sequencer is due too. -/
theorem witness_DueStepsAreTakenInTheEnd :
    (EngineInv (overrun .wait .waitOn) ∧ (overrun .wait .waitOn).fault = none ∧ (overrun .wait .waitOn).events = []) ∧
    ((overrun .wait .waitOn).colPhase = .wait ∧ (overrun .wait .waitOn).colWake ≤ (overrun .wait .waitOn).now) ∧
    ((overrun .wait .waitOn).seqPhase ≠ .idle ∧ (overrun .wait .waitOn).seqWake ≤ (overrun .wait .waitOn).now) ∧
    (EngineInv (overrun .poll .waitOn) ∧ (overrun .poll .waitOn).fault = none ∧ (overrun .poll .waitOn).events = [] ∧
      (overrun .poll .waitOn).colPhase = .poll) ∧
    movableAgents (overrun .wait .waitOn) = [.collector, .sequencer, .clock] :=
  ⟨⟨witness_EngineInv_overrun _ (by decide) _, rfl, rfl⟩, by decide, by decide,
    ⟨witness_EngineInv_overrun _ (by decide) _, rfl, rfl, rfl⟩, by decide⟩
theorem witness_TimePassesInTheEnd :
    EngineInv (overrun .wait .waitOn) ∧ (overrun .wait .waitOn).fault = none ∧ (overrun .wait .waitOn).events = [] ∧
    1 ≤ (overrun .wait .waitOn).cfg.pollMs ∧ 1 ≤ (overrun .wait .waitOn).cfg.paceMs :=
  ⟨witness_EngineInv_overrun _ (by decide) _, by decide⟩
theorem witness_CollectionEndsByItsDeadline :
    EngineInv (waiting 20) ∧ TimeInv (waiting 20) ∧ (waiting 20).fault = none ∧ (waiting 20).events = [] ∧
      (waiting 20).seqPhase = .idle ∧ (waiting 20).rdBusy = true :=
  ⟨witness_EngineInv_waiting, witness_TimeInv, rfl, rfl, rfl, rfl⟩

end Sys2Proof.Tests
end

section
/-! PROOF. An illegal request is rejected by its OP and answered, and nothing else (30_encoding R118). -/

namespace Sys2Proof.Machine

variable {op c n : Byte}

/-- A "must" that is broken makes the request illegal (30_encoding R118). -/
theorem mustHold_broken {legal : Bool} (h : legal = false) (r : Except Reject Instr) :
    mustHold op legal r = .error (.illegal op) := by
  simp [mustHold, h]

theorem flagValue_eq_none (h : 1 < c.toNat) : flagValue c = none := by
  have h0 : c ≠ 0x00 := by rintro rfl; exact absurd h (by decide)
  have h1 : c ≠ 0x01 := by rintro rfl; exact absurd h (by decide)
  simp only [flagValue, beq_iff_eq, if_neg h0, if_neg h1]

theorem withFlag_illegal (h : 1 < c.toNat ∨ n ≠ 0) (data : List Byte) (f : Bool → Instr) :
    withFlag op c n data f = .error (.illegal op) := by
  rcases h with hc | hn
  · simp only [withFlag, flagValue_eq_none hc]
  · cases hv : flagValue c with
    | none => simp only [withFlag, hv]
    | some b =>
      simp only [withFlag, hv]
      exact mustHold_broken (by simpa using hn) _

/-! The "must" each group of operations puts on C and N (30_encoding R116). -/

theorem decodeOp_checks_n (h : op ∈ [OP_ENCR, OP_RDCMD]) (data : List Byte) :
    ∃ r, decodeOp op c n data = mustHold op (n == 0) r := by
  fin_cases h <;> exact ⟨_, rfl⟩

theorem decodeOp_checks_c (h : op ∈ [OP_DECR, OP_QHEX, OP_CONNECT]) (data : List Byte) :
    ∃ r, decodeOp op c n data = mustHold op (c == 0) r := by
  fin_cases h <;> exact ⟨_, rfl⟩

theorem decodeOp_checks_c_n
    (h : op ∈ [OP_COLLECT, OP_RDSTAT, OP_DISCONNECT, OP_TURNON, OP_TURNOFF, OP_GETFW]) (data : List Byte) :
    ∃ r, decodeOp op c n data = mustHold op (c == 0 && n == 0) r := by
  fin_cases h <;> exact ⟨_, rfl⟩

theorem decodeOp_checks_three_bytes (data : List Byte) :
    ∃ r, decodeOp OP_QRGB c n data = mustHold OP_QRGB (c == 0 && n == 3) r :=
  ⟨_, rfl⟩

theorem decodeOp_checks_int32 (h : op ∈ [OP_SETMODE, OP_SETBRIGHT, OP_SETSPEED, OP_SETLEDS]) (data : List Byte) :
    ∃ r, decodeOp op c n data = mustHold op (c == 0 && n == 4) r := by
  fin_cases h <;> exact ⟨_, rfl⟩

theorem decodeOp_checks_flag (h : op ∈ [OP_SETAUTO, OP_SETPAUSE, OP_SETDIR]) (data : List Byte) :
    ∃ f, decodeOp op c n data = withFlag op c n data f := by
  fin_cases h <;> exact ⟨_, rfl⟩

theorem decodeOp_unknown (h : op ∉ operationCodes) (data : List Byte) :
    decodeOp op c n data = .error (.illegal op) := by
  simp [operationCodes] at h
  simp [decodeOp, h]

/-- An illegal C or N, or an OP of neither list, is rejected whatever the data. -/
theorem decodeOp_illegal (h : IllegalHeader op c n 0) (data : List Byte) :
    decodeOp op c n data = .error (.illegal op) := by
  rcases h with h | h | ⟨hop, h⟩ | ⟨hop, h⟩ | ⟨hop, h⟩ | ⟨rfl, h⟩ | ⟨hop, h⟩ | ⟨hop, h⟩
  · exact absurd rfl h
  · exact decodeOp_unknown h data
  · obtain ⟨r, hr⟩ := decodeOp_checks_n hop data
    exact hr.trans (mustHold_broken (by simpa using h) r)
  · obtain ⟨r, hr⟩ := decodeOp_checks_c hop data
    exact hr.trans (mustHold_broken (by simpa using h) r)
  · obtain ⟨r, hr⟩ := decodeOp_checks_c_n hop data
    exact hr.trans (mustHold_broken (by simpa [imp_iff_not_or] using h) r)
  · obtain ⟨r, hr⟩ := decodeOp_checks_three_bytes data
    exact hr.trans (mustHold_broken (by simpa [imp_iff_not_or] using h) r)
  · obtain ⟨r, hr⟩ := decodeOp_checks_int32 hop data
    exact hr.trans (mustHold_broken (by simpa [imp_iff_not_or] using h) r)
  · obtain ⟨f, hf⟩ := decodeOp_checks_flag hop data
    exact hf.trans (withFlag_illegal h data f)

/-- A request with an illegal header is rejected with its OP (30_encoding R118). -/
theorem decode_illegalHeader {rsv : Byte} (h : IllegalHeader op c n rsv) (data : List Byte) :
    decode .request (op :: c :: n :: rsv :: data) = .error (.illegal op) := by
  change mustHold op (rsv == 0) (decodeOp op c n data) = _
  by_cases hr : rsv = 0
  · subst hr
    exact decodeOp_illegal h data
  · exact mustHold_broken (by simpa using hr) _

/-- An unfaulted engine answers an illegal request, and no more (30_encoding R118, R117). -/
theorem present_illegal {s : State} (hf : s.fault = none) {bytes : List Byte}
    (h : decode .request bytes = .error (.illegal op)) :
    present .request bytes s = .next (s.withResult .illegalRequest op []) := by
  simp only [present, h, rejected, State.unlessFaulted_of_none hf, State.deliver_eq]

end Sys2Proof.Machine

open Sys2Proof Sys2Proof.Machine

/-- Settles O6: an illegal header is rejected with its OP whatever the data, and a step only answers it. -/
theorem illegalRequestIsOnlyAnswered : Obligations.IllegalRequestIsOnlyAnswered := by
  intro s op c n rsv data rest hf hev hill
  rw [step_cons hev]
  exact present_illegal (s := { s with events := rest }) hf (decode_illegalHeader hill data)
end

section
/-! PROOF. The framer's requests deliver the sum of a prefix, the packet of their fields, or the validator's verdict, and
nothing else (40_framer R140 to R146). -/

namespace Sys2Proof.Machine

variable {s : State}

/-- A request that only replies adds that one result to an unfaulted engine (60_exceptions R340). -/
theorem unlessFaulted_answer (hf : s.fault = none) (op : Byte) (r : Reply) :
    s.unlessFaulted (answer op (r, s)) = s.withResult r.kind op r.payload := by
  rw [State.unlessFaulted_of_none hf, answer, State.deliver_eq]

theorem checksum_eq (b : List Byte) (p : Nat) :
    checksum b p = BitVec.ofNat 8 ((b.take p).map BitVec.toNat).sum := by
  rw [checksum, byteSum_eq]

/-- An operation that frames replies with the packet of its fields, up to `MAX_PARAMS` parameters (40_framer R142). -/
theorem framedReply_eq (st cmd : Byte) (params : List Byte) (s : State) :
    framedReply st cmd params s =
      if params.length ≤ s.cfg.maxParams then ⟨.ok, specPacket st cmd params⟩ else ⟨.preconditionViolation, []⟩ := by
  simp only [framedReply, frame_eq_specPacket, ← not_le, ite_not]

/-- The five bytes of a read request (30_encoding R103, 40_framer R145). -/
theorem specPacket_readRequest (cmd : Byte) :
    specPacket 0x01 cmd [] = [0xCA, 0x05, 0x01, cmd, BitVec.ofNat 8 (0xD0 + cmd.toNat)] := by
  simp [specPacket]

/-- Only seven bytes are a response to validate (40_framer R146). -/
theorem validate_of_length_ne {b : List Byte} (h : b.length ≠ 7) : validate b = ⟨.preconditionViolation, []⟩ :=
  if_pos h

/-- What ENCF and ENCW leave (40_framer R142 to R144). -/
theorem unlessFaulted_answer_framedReply (hf : s.fault = none) (op st cmd : Byte) (params : List Byte) :
    s.unlessFaulted (answer op (framedReply st cmd params s, s)) =
      if params.length ≤ s.cfg.maxParams then s.withResult .ok op (specPacket st cmd params)
      else s.withResult .preconditionViolation op [] := by
  rw [unlessFaulted_answer hf, framedReply_eq]
  split <;> rfl

theorem exec_cksum (hf : s.fault = none) (p : Byte) (data : List Byte) :
    exec (.cksum p data) s = .next (
      if data.length < p.toNat then s.withResult .preconditionViolation 0x01 []
      else s.withResult .ok 0x01 [BitVec.ofNat 8 ((data.take p.toNat).map BitVec.toNat).sum]) := by
  rw [exec, execCksum, unlessFaulted_answer hf, checksum_eq]
  split <;> rfl

theorem exec_encr (hf : s.fault = none) (cmd : Byte) :
    exec (.encr cmd) s = .next (s.withResult .ok 0x04
      [0xCA, 0x05, 0x01, cmd, BitVec.ofNat 8 (0xD0 + cmd.toNat)]) := by
  rw [exec, execEncr, unlessFaulted_answer hf, frame_eq_specPacket, specPacket_readRequest]

theorem exec_decr (hf : s.fault = none) (b : List Byte) :
    exec (.decr b) s = .next (
      if b.length = 7 then s.withResult (verdict b) 0x05 (verdictPayload b)
      else s.withResult .preconditionViolation 0x05 []) := by
  rw [exec, execDecr, unlessFaulted_answer hf]
  split
  case isTrue h => rw [validate_eq b h]
  case isFalse h => rw [validate_of_length_ne h]

end Sys2Proof.Machine

open Sys2Proof Sys2Proof.Machine

/-- Settles O8: the layout is the encoder's own, and the checksum is the sum of the prefix. -/
theorem cksumSumsThePrefix : Obligations.CksumSumsThePrefix :=
  fun _ p data => ⟨rfl, fun hf => exec_cksum hf p data⟩

/-- Settles O9: every reply is the packet of the request's fields, ENCR's a packet without parameters. -/
theorem framingOperationsDeliverThePacket : Obligations.FramingOperationsDeliverThePacket := by
  intro s st cmd params
  refine ⟨rfl, rfl, rfl, fun hf => ⟨?_, ?_, exec_encr hf cmd⟩⟩
  · rw [exec, execEncf, unlessFaulted_answer_framedReply hf]
  · rw [exec, execEncw, unlessFaulted_answer_framedReply hf]

/-- Settles O11: on seven bytes the validator is the three checks in order, and any other count is refused first. -/
theorem decrReportsTheFirstFailingCheck : Obligations.DecrReportsTheFirstFailingCheck :=
  fun _ b => ⟨rfl, fun hf => exec_decr hf b⟩
end

section
/-! PROOF. COLLECT starts a collection, and a poll ends it with seven bytes, ends it with `TIMEOUT` or an interruption, or
waits for the next poll (41_collector R181 to R186, R188). -/

namespace Sys2Proof.Machine

variable {s : State} {rest : List Event}

/-! COLLECT's three answers (41_collector R181). -/

theorem exec_collect_busy (hf : s.fault = none) (hb : s.rdBusy = true) :
    exec .collect s = .next { s with fault := some .concurrentRead } := by
  rw [exec, execCollect, State.unlessFaulted_of_none hf, if_pos hb, State.raise_of_none hf]

theorem exec_collect_disconnected (hf : s.fault = none) (hb : s.rdBusy = false) (hc : s.conn = .disconnected) :
    exec .collect s = .next (s.withResult .notConnected 0x06 []) := by
  simp only [exec, execCollect, State.unlessFaulted_of_none hf, hb, hc, State.deliver_eq]
  rfl

theorem exec_collect_connected {h : Handle} (hf : s.fault = none) (hb : s.rdBusy = false) (hc : s.conn = .connected h) :
    exec .collect s = .next (collectStart .collect { s with rdBusy := true }) := by
  simp only [exec, execCollect, State.unlessFaulted_of_none hf, hb, hc]
  rfl

/-! The wait's two ways in (41_collector R186). -/

theorem collectorWait_of_clear (h : s.cancelPend = false) :
    collectorWait s = { s with colWake := s.now + s.cfg.pollMs, colPhase := .wait } := by
  simp [collectorWait, h]

theorem collectorWait_of_pending (h : s.cancelPend = true) (ho : s.colOwner ≠ .none) :
    collectorWait s = { (s.withResult .interrupted s.colOwner.op []).released with cancelPend := false } := by
  rw [collectorWait, if_pos h]
  exact collectFinish_interrupted (s := { s with cancelPend := false }) ho

/-! A short poll, before the deadline and after it (41_collector R185, R186). -/

theorem step_short_poll_waits (hev : s.events = .turn .collector :: rest) (hf : s.fault = none) (hp : s.colPhase = .poll)
    (hs : s.colCount + s.nextChunk.length < 7) (hd : s.now < s.colDeadline) :
    step s = .next (collectorWait (shortRead { s with events := rest })) := by
  rw [step_turn_collector hev hf hp, poll_short (s := { s with events := rest }) hs]
  exact congrArg _ (if_pos hd)

theorem step_short_poll_timesOut (hev : s.events = .turn .collector :: rest) (hf : s.fault = none)
    (hp : s.colPhase = .poll) (ho : s.colOwner ≠ .none) (hs : s.colCount + s.nextChunk.length < 7)
    (hd : s.colDeadline ≤ s.now) :
    step s = .next ((shortRead { s with events := rest }).withResult .timeout s.colOwner.op []).released := by
  rw [step_turn_collector hev hf hp, poll_short (s := { s with events := rest }) hs]
  exact congrArg _ ((if_neg hd.not_gt).trans (collectFinish_timeout (s := shortRead { s with events := rest }) ho))

end Sys2Proof.Machine

open Sys2Proof Sys2Proof.Machine

/-- Settles O14: seven written bytes are the bytes delivered, and completion is tested before the deadline. -/
theorem pollThatCompletesDelivers : Obligations.PollThatCompletesDelivers := by
  intro s rest hev hf hp ho hw hc h7
  obtain ⟨b, hb, hlen, hbuf, hbytes⟩ := poll_buffer hw hc h7
  refine ⟨b, _, hlen, hbytes, hbuf, ?_⟩
  rw [step_turn_collector hev hf hp]
  exact poll_complete (s := { s with events := rest }) hc h7 ho hb hlen

/-- Settles O15: the bytes are stored in place, and the wait is entered unless a cancellation is pending. -/
theorem shortPollWaits : Obligations.ShortPollWaits := by
  intro s rest hev hf hp ho hs hd
  have hstep := step_short_poll_waits hev hf hp hs hd
  refine ⟨_, storeBytes_get s.nextChunk s.colBuf s.colCount, fun hc => ?_, fun hc => ?_⟩
  · exact hstep.trans (congrArg _ (collectorWait_of_clear hc))
  · exact hstep.trans (congrArg _ (collectorWait_of_pending hc ho))

/-- Settles O16: the bytes are stored in place, and the owner is told `TIMEOUT`. -/
theorem shortPollTimesOut : Obligations.ShortPollTimesOut := by
  intro s rest hev hf hp ho hs hd
  exact ⟨_, storeBytes_get s.nextChunk s.colBuf s.colCount, step_short_poll_timesOut hev hf hp ho hs hd⟩

/-- Settles O13: a fault while the lock is held, an answer while disconnected, else the collection's start. -/
theorem collectStartsACollection : Obligations.CollectStartsACollection :=
  fun _ => ⟨rfl, exec_collect_busy, exec_collect_disconnected, fun _ => exec_collect_connected⟩
end

section
/-! PROOF. QRGB and QHEX deliver the entry the quantizer selects for a colour, and QHEX refuses a string that names none
(42_quantizer R222 to R227). -/

namespace Sys2Proof.Machine

variable {s : State} {r g b : Byte}

/-- The one result of a quantized colour: code and index of the selected entry (42_quantizer R226, R228). -/
theorem unlessFaulted_answer_colourReply (hf : s.fault = none) (op r g b : Byte) :
    s.unlessFaulted (answer op (colourReply s.cfg.palette (r, g, b), s)) =
      s.withResult .ok op
        [s.cfg.palette[closest s.cfg.palette r g b].code, BitVec.ofNat 8 (closest s.cfg.palette r g b).val] := by
  rw [unlessFaulted_answer hf, colourReply]

theorem exec_qrgb (hf : s.fault = none) (r g b : Byte) :
    exec (.qrgb r g b) s = .next (s.withResult .ok 0x07
      [s.cfg.palette[closest s.cfg.palette r g b].code, BitVec.ofNat 8 (closest s.cfg.palette r g b).val]) := by
  rw [exec, execQrgb, unlessFaulted_answer_colourReply hf]

/-! QHEX's two answers (42_quantizer R227). -/

theorem exec_qhex_colour {str : List Byte} (hf : s.fault = none) (h : NamesColour str r g b) :
    exec (.qhex str) s = .next (s.withResult .ok 0x08
      [s.cfg.palette[closest s.cfg.palette r g b].code, BitVec.ofNat 8 (closest s.cfg.palette r g b).val]) := by
  rw [exec, execQhex, parseHex_eq_some.2 h, unlessFaulted_answer_colourReply hf]

theorem exec_qhex_noColour {str : List Byte} (hf : s.fault = none) (h : ∀ r g b, ¬ NamesColour str r g b) :
    exec (.qhex str) s = .next (s.withResult .preconditionViolation 0x08 []) := by
  rw [exec, execQhex, parseHex_eq_none h, unlessFaulted_answer hf]

end Sys2Proof.Machine

open Sys2Proof Sys2Proof.Machine

/-- Settles O18: the entry delivered is the one the fold selects, which is the nearest, the earliest on a tie. -/
theorem qrgbSelectsTheNearestEntry : Obligations.QrgbSelectsTheNearestEntry :=
  fun _ r g b => ⟨rfl, fun hf => ⟨_, closest_nearest _ r g b, exec_qrgb hf r g b⟩⟩

/-- Settles O19: a string is parsed exactly when it names a colour, and that colour is quantized as QRGB's is. -/
theorem qhexReadsSixDigits : Obligations.QhexReadsSixDigits :=
  fun _ _ => ⟨rfl, fun r g b hf hc => ⟨_, closest_nearest _ r g b, exec_qhex_colour hf hc⟩, exec_qhex_noColour⟩
end

section
/-! PROOF. WRCMD hands over one framed packet; RDCMD and GETFW hand over their read request and start a collection
(43_dispatcher R250, R252, 44_controller R293). -/

namespace Sys2Proof.Machine

variable {s : State}

/-! WRCMD's three answers (43_dispatcher R250). -/

theorem exec_wrcmd_tooLong {params : List Byte} (hf : s.fault = none) (hl : s.cfg.maxParams < params.length)
    (cmd : Byte) : exec (.wrcmd cmd params) s = .next (s.withResult .preconditionViolation 0x09 []) := by
  rw [exec, execWrcmd, if_pos hl, unlessFaulted_answer hf]

theorem exec_wrcmd_fits {params : List Byte} (hf : s.fault = none) (hl : params.length ≤ s.cfg.maxParams)
    (cmd : Byte) : exec (.wrcmd cmd params) s = .next (answer 0x09 (cmdWrite cmd params s)) := by
  rw [exec, execWrcmd, if_neg hl.not_gt, State.unlessFaulted_of_none hf]

/-! RDCMD and GETFW share one body, which ends in four ways (43_dispatcher R252, 44_controller R293). -/

theorem exec_rdcmd (hf : s.fault = none) (cmd : Byte) :
    exec (.rdcmd cmd) s = .next (readTransaction 0x0A cmd .rdcmd s) := by
  rw [exec, execRdcmd, State.unlessFaulted_of_none hf]

theorem exec_getfw (hf : s.fault = none) : exec .getfw s = .next (readTransaction 0x1C 0x0A .getfw s) := by
  rw [exec, execGetfw, State.unlessFaulted_of_none hf]

/-- GETFW's read request, written out (44_controller R293). -/
theorem specPacket_firmwareRequest : specPacket 0x01 0x0A [] = [0xCA, 0x05, 0x01, 0x0A, 0xDA] :=
  specPacket_readRequest 0x0A

section
variable (op cmd : Byte) (owner : Owner)

theorem readTransaction_busy (hf : s.fault = none) (hb : s.rdBusy = true) :
    readTransaction op cmd owner s = { s with fault := some .concurrentRead } := by
  rw [readTransaction_eq, if_pos hb, State.raise_of_none hf]

theorem readTransaction_disconnected (hb : s.rdBusy = false) (hc : s.conn = .disconnected) :
    readTransaction op cmd owner s = s.withResult .notConnected op [] := by
  simp [readTransaction_eq, hb, hc]

/-- The lock taken for a rejected request is released again, so it is as it was (43_dispatcher R252). -/
theorem readTransaction_rejected {h : Handle} (hb : s.rdBusy = false) (hc : s.conn = .connected h)
    (hw : s.writeDraw = false) :
    readTransaction op cmd owner s =
      (s.afterWrite (specPacket 0x01 cmd [])).withResult .ioError op (specPacket 0x01 cmd []) := by
  have hlock : ∀ t : State, t.rdBusy = false → { t with rdBusy := false } = t := by rintro t ht; rw [← ht]
  simp only [readTransaction_eq, hb, hc, hw, frame_eq_specPacket]
  exact hlock _ hb

theorem readTransaction_accepted {h : Handle} (hb : s.rdBusy = false) (hc : s.conn = .connected h)
    (hw : s.writeDraw = true) :
    readTransaction op cmd owner s =
      collectStart owner { s.afterWrite (specPacket 0x01 cmd []) with rdBusy := true } := by
  simp [readTransaction_eq, hb, hc, hw, frame_eq_specPacket]

end

end Sys2Proof.Machine

open Sys2Proof Sys2Proof.Machine

/-- Settles O21: the count is tested first, then the connection; else the packet framed is the one handed over. -/
theorem wrcmdSendsOnePacket : Obligations.WrcmdSendsOnePacket := by
  intro s cmd params
  refine ⟨rfl, fun hf hl => exec_wrcmd_tooLong hf hl cmd, fun hf hl hc => ?_, fun h hf hl hc => ?_⟩
  · rw [exec_wrcmd_fits hf hl, answer_cmdWrite_disconnected hc]
  · rw [exec_wrcmd_fits hf hl, answer_cmdWrite_connected hc, frame_eq_specPacket]

/-- Settles O22: each way the shared body ends, for RDCMD's request and for GETFW's. -/
theorem readRequestStartsACollection : Obligations.ReadRequestStartsACollection := by
  intro s cmd
  simp only [← specPacket_firmwareRequest]
  refine ⟨rfl, rfl, fun hf hb => ?busy, fun hf hb hc => ?disconnected, fun h hf hb hc hw => ?rejected,
    fun h hf hb hc hw => ?accepted⟩ <;> rw [exec_rdcmd hf, exec_getfw hf]
  case busy => simp only [readTransaction_busy _ _ _ hf hb, and_self]
  case disconnected => simp only [readTransaction_disconnected _ _ _ hb hc, and_self]
  case rejected => simp only [readTransaction_rejected _ _ _ hb hc hw, and_self]
  case accepted => simp only [readTransaction_accepted _ _ _ hb hc hw]; exact ⟨rfl, rfl⟩
end

section
/-! PROOF. An `IO_ERROR` result carries the packet just rejected (43_dispatcher R251): only a write that ends an
operation delivers one, and everything else a step can do delivers results of other kinds, or none. -/

namespace Sys2Proof.Machine

variable {s t u : State}

/-- From `s` to `t` results were added, none of them `IO_ERROR`. -/
def NoIoError (s t : State) : Prop :=
  ∃ added, t.results = s.results ++ added ∧ ∀ x ∈ added, x.kind ≠ .ioError

/-- From `s` to `t` results were added, and each `IO_ERROR` among them carries the one packet that was logged, as
rejected (43_dispatcher R251). -/
def IoErrorsCarryRejected (s t : State) : Prop :=
  ∃ added, t.results = s.results ++ added ∧
    ∀ x ∈ added, x.kind = .ioError → t.txLog = s.txLog ++ [(x.payload, false)]

namespace NoIoError

theorem of_results_eq (h : t.results = s.results) : NoIoError s t := ⟨[], by simp [h], by simp⟩

theorem of_results_append {x : Result} (h : t.results = s.results ++ [x]) (hk : x.kind ≠ .ioError) : NoIoError s t :=
  ⟨[x], h, by simpa using hk⟩

theorem trans (h : NoIoError s t) (h' : NoIoError t u) : NoIoError s u := by
  obtain ⟨a, ha, hka⟩ := h
  obtain ⟨b, hb, hkb⟩ := h'
  exact ⟨a ++ b, by rw [hb, ha, List.append_assoc], List.forall_mem_append.2 ⟨hka, hkb⟩⟩

theorem ite {c : Prop} [Decidable c] (ht : NoIoError s t) (hu : NoIoError s u) :
    NoIoError s (if c then t else u) := by
  split
  · exact ht
  · exact hu

end NoIoError

theorem IoErrorsCarryRejected.of_noIoError (h : NoIoError s t) : IoErrorsCarryRejected s t := by
  obtain ⟨added, hr, hk⟩ := h
  exact ⟨added, hr, fun x hx he => absurd he (hk x hx)⟩

/-- The one way an `IO_ERROR` comes about: `TxWrite` answers false, and the result carries that packet. -/
theorem IoErrorsCarryRejected.of_rejected {op : Byte} {p : Packet} (hw : s.writeDraw = false)
    (hr : t.results = ((s.afterWrite p).withResult .ioError op p).results) (hl : t.txLog = (s.afterWrite p).txLog) :
    IoErrorsCarryRejected s t :=
  ⟨_, hr, by simp [hl, hw]⟩

theorem writeEnds_ioErrorsCarryRejected (s : State) (op : Byte) (p : Packet) :
    IoErrorsCarryRejected s (s.writeEnds op p) := by
  unfold State.writeEnds
  split
  case isTrue => exact .of_noIoError (.of_results_append rfl (by simp))
  case isFalse hw => exact .of_rejected (by simpa using hw) rfl rfl

theorem seqWait_noIoError (h : t.results = s.results) (ph : SeqPhase) : NoIoError s (seqWait ph t) := by
  unfold seqWait
  split
  · exact .trans (.of_results_eq h) (.of_results_append rfl (by simp))
  · exact .of_results_eq h

/-! The collector sends nothing, and so has no packet rejected (41_collector R188, 43_dispatcher R253). -/

theorem validate_kind_ne_ioError (b : List Byte) : (validate b).kind ≠ .ioError := by
  unfold validate
  split_ifs <;> simp

theorem collectFinish_noIoError (r : CollectEnd) (s : State) : NoIoError s (collectFinish r s) := by
  rw [collectFinish_eq]
  cases s.colOwner with
  | none => exact .of_results_eq rfl
  | collect => cases r <;> exact .of_results_append rfl (by simp)
  | rdcmd | getfw =>
    cases r with
    | complete b => exact .of_results_append rfl (validate_kind_ne_ioError b)
    | timeout | interrupted => exact .of_results_append rfl (by simp)

theorem collectorWait_noIoError (s : State) : NoIoError s (collectorWait s) :=
  .ite (collectFinish_noIoError .interrupted { s with cancelPend := false, colPhase := .idle }) (.of_results_eq rfl)

theorem collectPoll_noIoError (h : collectPoll s = .next t) : NoIoError s t := by
  simp only [collectPoll] at h
  split at h
  case isTrue =>
    split at h
    · cases h
      exact collectFinish_noIoError (.complete _) { accumulate s with colPhase := .idle }
    · cases h
  case isFalse =>
    split at h <;> cases h
    · exact collectorWait_noIoError (accumulate s)
    · exact collectFinish_noIoError .timeout { accumulate s with colPhase := .idle }

theorem collectorStep_noIoError (h : collectorStep s = .next t) : NoIoError s t := by
  unfold collectorStep at h
  split at h
  · cases h; exact .of_results_eq rfl
  · exact collectPoll_noIoError h
  · split at h <;> cases h <;> exact .of_results_eq rfl

theorem cancel_noIoError (s : State) : NoIoError s (cancel s) := by
  cases hf : s.fault with
  | some f => rw [cancel, State.unlessFaulted_of_some hf]; exact .of_results_eq rfl
  | none =>
    rw [cancel, State.unlessFaulted_of_none hf]
    have interrupted (u : State) (h : NoIoError s u) :
        NoIoError s (({ u with seqPhase := .idle }).deliver OP_SETCOLOR .interrupted []) :=
      h.trans (.of_results_append rfl (by simp))
    have hcol := NoIoError.ite (s := s) (c := s.colPhase = .wait)
      (collectFinish_noIoError .interrupted { s with colPhase := .idle }) (.of_results_eq rfl)
    have hseq := NoIoError.ite (c := s.seqPhase ≠ .idle) (interrupted _ hcol) hcol
    exact .ite hseq hseq

/-! What an instruction, rejected bytes, an agent and a step add (43_dispatcher R251). -/

theorem Effect.ioErrorsCarryRejected {i : Instr} (e : Effect s i t) : IoErrorsCarryRejected s t := by
  cases e with
  | writes op p => exact writeEnds_ioErrorsCarryRejected s op p
  | readFails c op p hp hc hb h hw => exact .of_rejected hw rfl rfl
  | paceFails hex lum c p hp hc hw => exact .of_rejected hw rfl rfl
  | same | arrives | faults | sends | collects | reads => exact .of_noIoError (.of_results_eq rfl)
  | result k op payload h hk => exact .of_noIoError (.of_results_append rfl hk.2)
  | noOpen | opens | closes => exact .of_noIoError (.of_results_append rfl (by simp))
  | paces => exact .of_noIoError (seqWait_noIoError rfl .waitOn)

theorem exec_ioErrorsCarryRejected {i : Instr} (h : exec i s = .next t) : IoErrorsCarryRejected s t := by
  cases hf : s.fault with
  | some f =>
    have hsame : t = s ∨ ∃ b, t = arrive b s := by simpa [h] using exec_faulted i s f hf
    rcases hsame with rfl | ⟨b, rfl⟩ <;> exact .of_noIoError (.of_results_eq rfl)
  | none =>
    obtain ⟨t', ht, e⟩ := exec_effect i s hf
    cases h.symm.trans ht
    exact e.ioErrorsCarryRejected

theorem rejected_noIoError {r : Reject} {p : Port} {bytes : List Byte} (h : rejected r p bytes s = .next t) :
    NoIoError s t := by
  rcases rejected_cases h with rfl | ⟨-, rfl⟩ | ⟨op, -, rfl⟩
  · exact .of_results_eq rfl
  · exact .of_results_eq rfl
  · exact .of_results_append rfl (by simp)

theorem sequencerStep_ioErrorsCarryRejected (s : State) : IoErrorsCarryRejected s (sequencerStep s) := by
  rcases sequencerStep_cases s with e | ⟨c, p, n, -, -, -, -, -, e⟩ | ⟨c, p, -, -, hw, e⟩ | ⟨k, hk, e⟩ <;>
    rw [e]
  · exact .of_noIoError (.of_results_eq rfl)
  · exact .of_noIoError (seqWait_noIoError rfl n)
  · exact .of_rejected hw rfl rfl
  · exact .of_noIoError (.of_results_append rfl hk)

theorem agentStep_ioErrorsCarryRejected {a : Agent} (h : agentStep a s = .next t) : IoErrorsCarryRejected s t := by
  cases hen : enabled a s with
  | false => rw [agentStep_disabled hen] at h; cases h; exact .of_noIoError (.of_results_eq rfl)
  | true =>
    rw [agentStep_enabled hen] at h
    cases a with
    | collector => exact .of_noIoError (collectorStep_noIoError h)
    | sequencer => cases h; exact sequencerStep_ioErrorsCarryRejected s
    | clock => cases h; exact .of_noIoError (.of_results_eq rfl)

/-- Whatever a step does, an `IO_ERROR` it delivers carries the packet it had rejected. What happens next and the choice
of who moves touch neither the results nor `TX_LOG`. -/
theorem step_ioErrorsCarryRejected (h : step s = .next t) : IoErrorsCarryRejected s t := by
  rcases step_cases h with ⟨p, bytes, rest, i, -, -, h⟩ | ⟨p, bytes, rest, r, -, -, h⟩ | ⟨rest, -, rfl⟩ |
    ⟨bytes, rest, -, rfl⟩ | ⟨rest, -, rfl⟩ | ⟨n, rest, -, rfl⟩ | ⟨a, d, q, evs, h, -⟩
  · exact exec_ioErrorsCarryRejected (s := { s with events := rest }) h
  · exact .of_noIoError (rejected_noIoError (s := { s with events := rest }) h)
  · exact .of_noIoError (cancel_noIoError { s with events := rest })
  · exact .of_noIoError (.of_results_eq rfl)
  · exact .of_noIoError (.of_results_eq rfl)
  · exact .of_noIoError (.of_results_eq rfl)
  · exact agentStep_ioErrorsCarryRejected (s := { s.atTurn d q with events := evs }) h

end Sys2Proof.Machine

open Sys2Proof Sys2Proof.Machine

/-- Settles O44: the results past the old ones are those the step added. -/
theorem ioErrorCarriesTheRejectedPacket : Obligations.IoErrorCarriesTheRejectedPacket := by
  intro s t x h hx hk
  obtain ⟨added, hr, hlog⟩ := step_ioErrorsCarryRejected h
  rw [hr, List.drop_left] at hx
  exact hlog x hx hk
end

section
/-! PROOF. DISCONNECT releases the handle whatever its power-off write answers; the single-command writes hand over their
packet, those with an int32 operand after its range check (44_controller R280, R283 to R292). -/

namespace Sys2Proof.Machine

variable {s : State} {i : Instr} {op cmd : Byte} {params : List Byte} {h : Handle}

/-! DISCONNECT's three answers (44_controller R283). -/

theorem exec_disconnect_busy (hf : s.fault = none) (hb : s.rdBusy = true ∨ s.seqPhase ≠ .idle) :
    exec .disconnect s = .next { s with fault := some .busyDisconnect } := by
  have hg : (s.rdBusy || s.seqPhase != .idle) = true := by simpa using hb
  rw [exec, execDisconnect, State.unlessFaulted_of_none hf, if_pos hg, State.raise_of_none hf]

theorem exec_disconnect_disconnected (hf : s.fault = none) (hb : s.rdBusy = false) (hs : s.seqPhase = .idle)
    (hc : s.conn = .disconnected) : exec .disconnect s = .next (s.withResult .ok 0x11 []) := by
  simp only [exec, execDisconnect, State.unlessFaulted_of_none hf, hb, hs, hc, State.deliver_eq]
  rfl

theorem exec_disconnect_connected (hf : s.fault = none) (hb : s.rdBusy = false) (hs : s.seqPhase = .idle)
    (hc : s.conn = .connected h) :
    exec .disconnect s = .next (({ txRelease h (s.afterWrite (specPacket 0x00 0x01 s.cfg.powerOffParams)) with
      conn := .disconnected }).withResult .ok 0x11 []) := by
  simp only [exec, execDisconnect, State.unlessFaulted_of_none hf, hb, hs, hc, send_eq, frame_eq_specPacket,
    State.deliver_eq]
  rfl

/-! An instruction that is one command write (44_controller R284, R285, R289 to R291). -/

theorem exec_cmdWrite_disconnected (hi : exec i s = .next (s.unlessFaulted (answer op (cmdWrite cmd params s))))
    (hf : s.fault = none) (hc : s.conn = .disconnected) : exec i s = .next (s.withResult .notConnected op []) := by
  rw [hi, State.unlessFaulted_of_none hf, answer_cmdWrite_disconnected hc]

theorem exec_cmdWrite_connected (hi : exec i s = .next (s.unlessFaulted (answer op (cmdWrite cmd params s))))
    (hf : s.fault = none) (hc : s.conn = .connected h) :
    exec i s = .next (s.writeEnds op (specPacket 0x00 cmd params)) := by
  rw [hi, State.unlessFaulted_of_none hf, answer_cmdWrite_connected hc, frame_eq_specPacket]

/-- A flag's byte in a header or a packet (30_encoding R110, R116). -/
theorem byteOfBool_eq (on : Bool) : byteOfBool on = if on then 0x01 else 0x00 := by cases on <;> rfl

/-! The flag packets, written out (44_controller R289 to R291). -/

theorem specPacket_auto (on : Bool) : specPacket 0x00 0x02 [if on then 0x01 else 0x00] =
    if on then [0xCA, 0x06, 0x00, 0x02, 0x01, 0xD3] else [0xCA, 0x06, 0x00, 0x02, 0x00, 0xD2] := by
  cases on <;> rfl

theorem specPacket_pause (on : Bool) : specPacket 0x00 0x03 [if on then 0x01 else 0x00] =
    if on then [0xCA, 0x06, 0x00, 0x03, 0x01, 0xD4] else [0xCA, 0x06, 0x00, 0x03, 0x00, 0xD3] := by
  cases on <;> rfl

theorem specPacket_direction (forward : Bool) : specPacket 0x00 0x05 [if forward then 0x00 else 0x01] =
    if forward then [0xCA, 0x06, 0x00, 0x05, 0x00, 0xD5] else [0xCA, 0x06, 0x00, 0x05, 0x01, 0xD6] := by
  cases forward <;> rfl

/-! An instruction that is one ranged write (44_controller R280, R286 to R288, R292). -/

section
variable {hi : Int} {bytes : Word → List Byte} {v : Word}
  (hw : exec i s = .next (s.unlessFaulted (rangedWrite op cmd hi bytes v s))) (hf : s.fault = none)
include hw hf

theorem exec_rangedWrite_out (hr : ¬ (0 ≤ v.toInt ∧ v.toInt ≤ hi)) :
    exec i s = .next (s.withResult .preconditionViolation op []) := by
  rw [hw, State.unlessFaulted_of_none hf, rangedWrite_out hr]

theorem exec_rangedWrite_disconnected (hc : s.conn = .disconnected) (hr : 0 ≤ v.toInt ∧ v.toInt ≤ hi) :
    exec i s = .next (s.withResult .notConnected op []) := by
  rw [hw, State.unlessFaulted_of_none hf, rangedWrite_in hr, answer_cmdWrite_disconnected hc]

theorem exec_rangedWrite_connected (hc : s.conn = .connected h) (hr : 0 ≤ v.toInt ∧ v.toInt ≤ hi)
    (hp : bytes v = params) : exec i s = .next (s.writeEnds op (specPacket 0x00 cmd params)) := by
  rw [hw, State.unlessFaulted_of_none hf, rangedWrite_in hr, answer_cmdWrite_connected hc, frame_eq_specPacket, hp]

end

/-! The parameter bytes of an operand in range, by its signed value (30_encoding R110 to R112). -/

theorem oneByte_eq {v : Word} (hv : 0 ≤ v.toInt) : oneByte v = [BitVec.ofInt 8 v.toInt] := by
  rw [oneByte, ofInt_toInt hv]

theorem ledBytes_eq {v : Word} (hv : 0 ≤ v.toInt) :
    ledBytes v = [BitVec.ofInt 8 (v.toInt % 256), BitVec.ofInt 8 (v.toInt / 256)] := by
  rw [toInt_nonneg hv]
  rfl

end Sys2Proof.Machine

open Sys2Proof Sys2Proof.Machine

/-- Settles O24: the write's answer is in `TX_LOG` only, and the release follows it in either case. -/
theorem disconnectAlwaysReleases : Obligations.DisconnectAlwaysReleases :=
  fun _ => ⟨rfl, exec_disconnect_busy, exec_disconnect_disconnected, fun _ => exec_disconnect_connected⟩

/-- Settles O25: each of the five is one command write; a flag's packet is its command's with the flag's byte. -/
theorem plainWritesSendTheirPacket : Obligations.PlainWritesSendTheirPacket := by
  intro s on
  simp only [← byteOfBool_eq, ← specPacket_auto, ← specPacket_pause, ← specPacket_direction]
  refine ⟨⟨rfl, rfl, rfl, rfl, rfl⟩, fun hf hc => ?disconnected, fun h hf hc => ?connected⟩
  case disconnected =>
    refine ⟨?_, ?_, ?_, ?_, ?_⟩ <;> exact exec_cmdWrite_disconnected rfl hf hc
  case connected =>
    refine ⟨?_, ?_, ?_, ?_, ?_⟩ <;> exact exec_cmdWrite_connected rfl hf hc

/-- Settles O26: each of the four is one ranged write: the range is checked first, then the connection. -/
theorem rangedWritesCheckThenSend : Obligations.RangedWritesCheckThenSend := by
  intro s v
  simp only [← bytesOfWord_eq]
  refine ⟨⟨rfl, rfl, rfl, rfl⟩, fun hf => ?outside, fun hf hc => ?disconnected, fun h hf hc => ?connected⟩
  case outside =>
    refine ⟨?_, ?_, ?_, ?_⟩ <;> exact exec_rangedWrite_out rfl hf
  case disconnected =>
    refine ⟨?_, ?_, ?_, ?_⟩ <;> exact exec_rangedWrite_disconnected rfl hf hc
  case connected =>
    exact ⟨fun hr => exec_rangedWrite_connected rfl hf hc hr (oneByte_eq hr.1),
      fun hr => exec_rangedWrite_connected rfl hf hc hr (oneByte_eq hr.1),
      fun hr => exec_rangedWrite_connected rfl hf hc hr (oneByte_eq hr.1),
      fun hr => exec_rangedWrite_connected rfl hf hc hr (ledBytes_eq hr.1)⟩
end

section
/-! PROOF. setColor's two paths, and each turn of its sequencer (44_controller R294, R296, R297, R299). -/

namespace Sys2Proof.Machine

variable {s : State} {h : Handle} {rest : List Event} {r g b : Byte} {hex lum : List Byte} {i : Fin 15} {v : Nat}

/-- SETCOLOR whose checks all pass runs its sequence (44_controller R294). -/
theorem exec_setcolor {l : Luminance} (hf : s.fault = none) (hs : s.seqPhase = .idle) (hc : s.conn = .connected h)
    (hn : NamesColour hex r g b) (hl : parseLuminance lum = some l) :
    exec (.setcolor hex lum) s = .next (colourSequence (r, g, b) l s) := by
  simp only [exec, execSetcolor, State.unlessFaulted_of_none hf, hs, parseHex_eq_some.2 hn, hl, hc]
  rfl

/-! The sequence's two paths, by the selected entry (44_controller R296, R297). -/

theorem colourSequence_off (hc : s.conn = .connected h) :
    colourSequence (r, g, b) .off s = s.writeEnds 0x16 (specPacket 0x00 0x01 s.cfg.powerOffParams) := by
  rw [colourSequence_eq hc, frame_eq_specPacket]

theorem colourSequence_black (hc : s.conn = .connected h) (hi : Nearest s.cfg.palette r g b i)
    (hk : s.cfg.palette[i].code = s.cfg.palette[14].code) :
    colourSequence (r, g, b) (.level v) s = s.writeEnds 0x16 (specPacket 0x00 0x01 s.cfg.powerOffParams) := by
  rw [nearest_unique hi (closest_nearest _ r g b)] at hk
  simp only [colourSequence_eq hc, frame_eq_specPacket, if_pos hk]

theorem colourSequence_on (hc : s.conn = .connected h) (hi : Nearest s.cfg.palette r g b i)
    (hk : s.cfg.palette[i].code ≠ s.cfg.palette[14].code) :
    colourSequence (r, g, b) (.level v) s =
      if s.writeDraw then seqWait .waitOn { s.afterWrite (specPacket 0x00 0x01 s.cfg.powerOnParams) with
        seqCode := s.cfg.palette[i].code, seqLum := BitVec.ofNat 7 v }
      else (s.afterWrite (specPacket 0x00 0x01 s.cfg.powerOnParams)).withResult .ioError 0x16
        (specPacket 0x00 0x01 s.cfg.powerOnParams) := by
  obtain rfl := nearest_unique hi (closest_nearest _ r g b)
  simp only [colourSequence_eq hc, frame_eq_specPacket, if_neg hk]

/-- A cancellation pending at the first wait's entry leaves `SEQ_PHASE` as it was, IDLE (44_controller R297). -/
theorem seqWait_of_pending_idle (hp : s.cancelPend = true) (hs : s.seqPhase = .idle) (ph : SeqPhase) :
    seqWait ph s = ({ s with cancelPend := false }).withResult .interrupted 0x16 [] := by
  rw [seqWait_of_pending hp, ← hs]

/-! A turn of the sequencer, and a write of its sequence (44_controller R297, R299). -/

theorem sequencerDue_iff : sequencerDue s = true ↔ s.seqPhase ≠ .idle ∧ s.seqWake ≤ s.now := by
  unfold sequencerDue
  cases s.seqPhase <;> simp

theorem step_turn_sequencer (hev : s.events = .turn .sequencer :: rest) (hf : s.fault = none)
    (hp : s.seqPhase ≠ .idle) (hw : s.seqWake ≤ s.now) :
    step s = .next (sequencerStep { s with events := rest }) := by
  have hen : enabled .sequencer { s with events := rest } = true := by
    simp [enabled, sequencerDue_iff, hp, hw, hf]
  rw [step_cons hev]
  exact agentStep_enabled hen

/-- The sequencer has nothing due in IDLE, or before `SEQ_WAKE` (44_controller R297). -/
theorem step_turn_sequencer_early (hev : s.events = .turn .sequencer :: rest)
    (hp : s.seqPhase = .idle ∨ s.now < s.seqWake) : step s = .next { s with events := rest } := by
  have hdue : ¬ (s.seqPhase ≠ .idle ∧ s.seqWake ≤ s.now) := fun h => hp.elim h.1 h.2.not_gt
  have hen : enabled .sequencer { s with events := rest } = false := by
    simp [enabled, sequencerDue_iff, -not_and, hdue]
  rw [step_cons hev]
  exact agentStep_disabled hen

theorem seqWrite_disconnected (hc : s.conn = .disconnected) (cmd : Byte) (params : List Byte) (next : SeqPhase) :
    seqWrite cmd params next s = ({ s with seqPhase := .idle }).withResult .notConnected 0x16 [] := by
  rw [seqWrite, cmdWrite_disconnected hc]
  rfl

/-- The write comes before its wait; a rejection or pending cancellation ends the sequence (44_controller R297, R299). -/
theorem seqWrite_connected (hc : s.conn = .connected h) (cmd : Byte) (params : List Byte) (next : SeqPhase) :
    seqWrite cmd params next s =
      if s.writeDraw = false then ({ s.afterWrite (specPacket 0x00 cmd params) with seqPhase := .idle }).withResult
        .ioError 0x16 (specPacket 0x00 cmd params)
      else if s.cancelPend then ({ s.afterWrite (specPacket 0x00 cmd params) with
        seqPhase := .idle, cancelPend := false }).withResult .interrupted 0x16 []
      else { s.afterWrite (specPacket 0x00 cmd params) with seqPhase := next, seqWake := s.now + s.cfg.paceMs } := by
  rw [seqWrite_eq hc, frame_eq_specPacket]
  cases s.writeDraw <;> rfl

/-! A due turn of the sequencer in each phase that waits (44_controller R297). -/

section
variable (hev : s.events = .turn .sequencer :: rest) (hf : s.fault = none) (hw : s.seqWake ≤ s.now)
include hev hf hw

theorem step_turn_waitOn (hp : s.seqPhase = .waitOn) :
    step s = .next (seqWrite 0x04 [s.seqCode] .waitMode { s with events := rest }) := by
  rw [step_turn_sequencer hev hf (by simp [hp]) hw]
  simp only [sequencerStep, hp]

theorem step_turn_waitMode (hp : s.seqPhase = .waitMode) :
    step s = .next (seqWrite 0x08 [s.seqLum.setWidth 8] .waitBright { s with events := rest }) := by
  rw [step_turn_sequencer hev hf (by simp [hp]) hw]
  simp only [sequencerStep, hp, BitVec.ofNat_toNat]

theorem step_turn_waitBright (hp : s.seqPhase = .waitBright) :
    step s = .next (({ s with events := rest, seqPhase := .idle }).withResult .ok 0x16 []) := by
  rw [step_turn_sequencer hev hf (by simp [hp]) hw]
  simp only [sequencerStep, hp, State.deliver_eq]

end

end Sys2Proof.Machine

open Sys2Proof Sys2Proof.Machine

/-- Settles O28: "off" and black's code both end in the one power-off write. -/
theorem setcolorOffPathSendsOnlyPowerOff : Obligations.SetcolorOffPathSendsOnlyPowerOff := by
  rintro s hex lum r g b i h hf hs hc hn hi (rfl | ⟨⟨v, hv⟩, hk⟩)
  · rw [exec_setcolor hf hs hc hn parseLuminance_off, colourSequence_off hc]
  · rw [exec_setcolor hf hs hc hn (parseLuminance_of_names hv), colourSequence_black hc hi hk]

/-- Settles O29: the request sends before the first wait; each due turn then does its phase's write and enters the next
wait, or delivers the result, and a turn that is not due does nothing. -/
theorem setcolorPacesItsWrites : Obligations.SetcolorPacesItsWrites := by
  intro s
  refine ⟨fun hex lum r g b i h v hf hs hc hn hi hv hk => ?request,
    fun rest h hev hf hc hw => ⟨fun hp => ?mode, fun hp => ?brightness⟩,
    fun rest hev hf hw hp => step_turn_waitBright hev hf hw hp,
    fun rest hev hf hc hw hp => ?connectionLost,
    fun rest hev _ hp => step_turn_sequencer_early hev hp⟩
  case request =>
    rw [exec_setcolor hf hs hc hn (parseLuminance_of_names hv), colourSequence_on hc hi hk]
    refine ⟨fun hw => ?rejected, fun hw hp => ?paced, fun hw hp => ?interrupted⟩
    case rejected => rw [if_neg (by simp [hw])]
    case paced =>
      rw [if_pos hw]
      refine congrArg _ (seqWait_of_clear ?_ _)
      exact hp
    case interrupted =>
      rw [if_pos hw]
      refine congrArg _ (seqWait_of_pending_idle ?_ ?_ _)
      · exact hp
      · exact hs
  case mode =>
    rw [step_turn_waitOn hev hf hw hp]
    exact congrArg _ (seqWrite_connected (s := { s with events := rest }) hc _ _ _)
  case brightness =>
    rw [step_turn_waitMode hev hf hw hp]
    exact congrArg _ (seqWrite_connected (s := { s with events := rest }) hc _ _ _)
  case connectionLost =>
    have hlost := seqWrite_disconnected (s := { s with events := rest }) hc
    rcases hp with hp | hp
    · rw [step_turn_waitOn hev hf hw hp, hlost]
    · rw [step_turn_waitMode hev hf hw hp, hlost]
end

section
/-! PROOF. What a set `FAULT` stops and what raises it, what a cancel aborts, and what RDSTAT reports (10_state R50,
60_exceptions R350 to R353, R356, R369). -/

namespace Sys2Proof.Machine

variable {s t : State} {f : FaultCode} {i : Instr} {rest : List Event}

/-! ### A faulted engine (60_exceptions R351, R353) -/

/-- Every instruction but an inbound response stands under the guard of a faulted engine (60_exceptions R353). -/
theorem exec_guarded (hi : i.port ≠ .inbound) (s : State) : ∃ t, exec i s = .next (s.unlessFaulted t) := by
  cases i
  case pktResponse => exact absurd rfl hi
  all_goals exact ⟨_, rfl⟩

theorem exec_of_faulted (hf : s.fault = some f) (hi : i.port ≠ .inbound) : exec i s = .next s := by
  obtain ⟨t, ht⟩ := exec_guarded hi s
  rw [ht, State.unlessFaulted_of_some hf]

theorem cancel_of_faulted (hf : s.fault = some f) : cancel s = s := State.unlessFaulted_of_some hf _

/-- After a fault only the clock still has a step (60_exceptions R351, 70_reset R389). -/
theorem agentStep_faulted (hf : s.fault = some f) (a : Agent) :
    agentStep a s = .next s ∨ agentStep a s = .next { s with now := s.now + 1 } := by
  cases hen : enabled a s with
  | false => exact .inl (agentStep_disabled hen)
  | true =>
    cases a with
    | collector | sequencer => simp [enabled, hf] at hen
    | clock => exact .inr (agentStep_enabled hen)

/-- From `s` to `t` every element of the engine but `now`, `TX_LOG`, the results and the transport calls stand as they
are; time, what happens next, who moves next and the inbound stream may have gone on. -/
def EngineStands (s t : State) : Prop :=
  t = { s with
    now := t.now, events := t.events, sched := t.sched
    tx := { s.tx with inbound := t.tx.inbound, draws := t.tx.draws } } ∧ s.now ≤ t.now

/-- The choice of who moves and the script belong to no element of the engine. -/
theorem engineStands_atTurn (s : State) (d : Nat) (q : Schedule) (evs : List Event) :
    EngineStands s { s.atTurn d q with events := evs } := ⟨rfl, le_rfl⟩

theorem engineStands_events (s : State) (evs : List Event) : EngineStands s { s with events := evs } :=
  engineStands_atTurn s s.tx.draws s.sched evs

theorem EngineStands.arrive (h : EngineStands s t) (bytes : List Byte) : EngineStands s (arrive bytes t) := by
  obtain ⟨ht, hn⟩ := h
  exact ⟨by rw [ht]; rfl, hn⟩

theorem EngineStands.tick (h : EngineStands s t) : EngineStands s { t with now := t.now + 1 } := by
  obtain ⟨ht, hn⟩ := h
  exact ⟨by rw [ht], hn.trans (Nat.le_succ _)⟩

/-- Whatever a step of a faulted engine is, unless it is reset, it is ignored, or bytes arrive, or the clock ticks. -/
theorem step_faulted_engineStands (hf : s.fault = some f) (hr : s.nextEvent ≠ some .reset) (h : step s = .next t) :
    EngineStands s t := by
  rcases step_cases h with ⟨p, bytes, rest, i, -, -, h⟩ | ⟨p, bytes, rest, r, -, -, h⟩ | ⟨rest, -, rfl⟩ |
    ⟨bytes, rest, -, rfl⟩ | ⟨rest, hev, -⟩ | ⟨n, rest, -, rfl⟩ | ⟨a, d, q, evs, h, -⟩
  · have hsame : t = { s with events := rest } ∨ ∃ b, t = arrive b { s with events := rest } := by
      simpa [h] using exec_faulted i { s with events := rest } f hf
    rcases hsame with rfl | ⟨b, rfl⟩
    · exact engineStands_events s rest
    · exact (engineStands_events s rest).arrive b
  · rcases rejected_cases h with rfl | ⟨-, rfl⟩ | ⟨op, hnone, -⟩
    · exact (engineStands_events s rest).arrive bytes
    · exact engineStands_events s rest
    · exact absurd (hf.symm.trans hnone) (by simp)
  · rw [cancel_of_faulted (s := { s with events := rest }) hf]
    exact engineStands_events s rest
  · exact (engineStands_events s rest).arrive bytes
  · exact absurd (by simp [State.nextEvent, hev]) hr
  · exact engineStands_events s rest
  · have hidle := engineStands_atTurn s d q evs
    rcases agentStep_faulted (s := { s.atTurn d q with events := evs }) hf a with e | e <;> cases h.symm.trans e
    · exact hidle
    · exact hidle.tick

/-! ### Raising a fault (60_exceptions R350, R352) -/

theorem faultNumber_le (f : Option FaultCode) : faultNumber f ≤ 3 := by
  rcases f with _ | _ | _ | _ <;> decide

theorem exec_setcolor_busy (hf : s.fault = none) (hs : s.seqPhase ≠ .idle) (hex lum : List Byte) :
    exec (.setcolor hex lum) s = .next { s with fault := some .seqBusy } := by
  have hg : (s.seqPhase != .idle) = true := by simpa using hs
  rw [exec, execSetcolor, State.unlessFaulted_of_none hf, if_pos hg, State.raise_of_none hf]

/-! ### The cancel input: the waits it can find (60_exceptions R356) -/

theorem step_cancel (hev : s.events = .cancel :: rest) : step s = .next (cancel { s with events := rest }) :=
  step_cons hev

section
variable (hf : s.fault = none)
include hf

theorem cancel_collection (hc : s.colPhase = .wait) (ho : s.colOwner ≠ .none) (hs : s.seqPhase = .idle) :
    cancel s = (s.withResult .interrupted s.colOwner.op []).released := by
  simp only [cancel, State.unlessFaulted_of_none hf, hc, if_true, true_or, if_neg (not_not.2 hs),
    collectFinish_interrupted ho]

theorem cancel_collection_and_sequence (hc : s.colPhase = .wait) (ho : s.colOwner ≠ .none) (hs : s.seqPhase ≠ .idle) :
    cancel s = ((({ s with seqPhase := .idle }).withResult .interrupted s.colOwner.op []).withResult
      .interrupted 0x16 []).released := by
  simp only [cancel, State.unlessFaulted_of_none hf, hc, if_true, true_or, if_pos hs, collectFinish_interrupted ho]
  rfl

theorem cancel_sequence (hc : s.colPhase ≠ .wait) (hs : s.seqPhase ≠ .idle) :
    cancel s = ({ s with seqPhase := .idle }).withResult .interrupted 0x16 [] := by
  simp [cancel, State.unlessFaulted_of_none hf, hc, hs, State.deliver_eq]

theorem cancel_held (hc : s.colPhase ≠ .wait) (hs : s.seqPhase = .idle) : cancel s = { s with cancelPend := true } := by
  simp [cancel, State.unlessFaulted_of_none hf, hc, hs]

end

/-! ### The STATUS word (10_state R50) -/

theorem exec_rdstat (hf : s.fault = none) : exec .rdstat s = .next (s.withResult .ok 0x20 (leBytes (statusWord s))) := by
  rw [exec, execRdstat, unlessFaulted_answer hf, bytesOfWord_eq]

theorem ColPhase.toNat_le (p : ColPhase) : p.toNat ≤ 2 := by cases p <;> decide

theorem SeqPhase.toNat_le (p : SeqPhase) : p.toNat ≤ 3 := by cases p <;> decide

/-- Each field of the STATUS word but `COL_COUNT` and `FAULT` fits its width, whatever the state. -/
theorem statusFields_fit (s : State) : s.handle?.isSome.toNat < 2 ∧ s.rdBusy.toNat < 2 ∧ s.colPhase.toNat ≤ 2 ∧
    s.cancelPend.toNat < 2 ∧ s.seqPhase.toNat ≤ 3 :=
  ⟨Bool.toNat_lt _, Bool.toNat_lt _, s.colPhase.toNat_le, Bool.toNat_lt _, s.seqPhase.toNat_le⟩

theorem State.handle?_isSome_iff : s.handle?.isSome = true ↔ s.conn ≠ .disconnected := by
  unfold State.handle?
  cases s.conn <;> simp

/-- The STATUS word as a number: each field times the weight of its lowest bit, every field within its width. -/
theorem statusWord_toNat (hf : s.fault = none) (hc : s.colCount ≤ 7) :
    (statusWord s).toNat = s.handle?.isSome.toNat + 2 * s.rdBusy.toNat + 4 * s.colPhase.toNat + 16 * s.colCount +
      128 * s.cancelPend.toNat + 256 * s.seqPhase.toNat := by
  obtain ⟨hconn, hbusy, hcol, hcancel, hseq⟩ := statusFields_fit s
  have hfault : faultNumber s.fault = 0 := by rw [hf]; rfl
  rw [statusWord, BitVec.toNat_ofNat]
  omega

/-- A field of a word, by division. -/
theorem toNat_field (w : Word) (start len : Nat) :
    (w.extractLsb' start len).toNat = w.toNat / 2 ^ start % 2 ^ len := by
  rw [BitVec.extractLsb'_toNat, Nat.shiftRight_eq_div_pow]

/-- A bit of a word that is a flag's number. -/
theorem getLsbD_eq_of_div_mod {w : Word} {k : Nat} {b : Bool} (h : w.toNat / 2 ^ k % 2 = b.toNat) :
    w.getLsbD k = b := by
  rw [BitVec.getLsbD, Nat.testBit_eq_decide_div_mod_eq, h]
  cases b <;> rfl

end Sys2Proof.Machine

open Sys2Proof Sys2Proof.Machine

/-- Settles O34: the word delivered is a sum of fields each within its width, so division reads every field back. -/
theorem rdstatReadsEveryField : Obligations.RdstatReadsEveryField := by
  refine fun s => ⟨rfl, fun hf hc => ⟨statusWord s, exec_rdstat hf, ?_⟩⟩
  have hw := statusWord_toNat hf hc
  obtain ⟨hconn, hbusy, hcol, hcancel, hseq⟩ := statusFields_fit s
  refine ⟨?connected, ?busy, ?colPhase, ?colCount, ?cancelPend, ?seqPhase, ?rest⟩
  case connected =>
    rw [← State.handle?_isSome_iff, getLsbD_eq_of_div_mod (b := s.handle?.isSome)]
    omega
  case busy => exact getLsbD_eq_of_div_mod (by omega)
  case colPhase =>
    have hfield : ((statusWord s).extractLsb' 2 2).toNat = s.colPhase.toNat := by rw [toNat_field]; omega
    exact hfield
  case colCount => rw [toNat_field]; omega
  case cancelPend => exact getLsbD_eq_of_div_mod (by omega)
  case seqPhase =>
    have hfield : ((statusWord s).extractLsb' 8 3).toNat = s.seqPhase.toNat := by rw [toNat_field]; omega
    exact hfield
  case rest =>
    have hfield : ((statusWord s).extractLsb' 11 21).toNat = 0 := by rw [toNat_field]; omega
    exact BitVec.eq_of_toNat_eq hfield

/-- Settles O35: each misuse is the first thing its operation tests, and a faulted engine runs none of them. -/
theorem misuseRaisesItsFault : Obligations.MisuseRaisesItsFault := by
  refine ⟨⟨rfl, rfl, rfl, rfl, faultNumber_le⟩, fun s cmd hex lum =>
    ⟨fun hf hb => ⟨exec_collect_busy hf hb, ?rdcmd, ?getfw⟩, fun hf hs => exec_setcolor_busy hf hs hex lum,
      exec_disconnect_busy, fun hf => ?faulted⟩⟩
  case rdcmd => rw [exec_rdcmd hf, readTransaction_busy _ _ _ hf hb]
  case getfw => rw [exec_getfw hf, readTransaction_busy _ _ _ hf hb]
  case faulted =>
    obtain ⟨f, hf⟩ := Option.ne_none_iff_exists'.1 hf
    refine ⟨?_, ?_, ?_, ?_, ?_⟩ <;> exact exec_of_faulted hf (by simp [Instr.port])

/-- Settles O36: of all that a step can be, a faulted engine ignores requests, cancels and its own agents. -/
theorem faultedEngineStaysStuck : Obligations.FaultedEngineStaysStuck :=
  fun _ _ _ hf hr h => step_faulted_engineStands hf hr h

/-- Settles O37: by whether a collection waits and whether a setColor does. -/
theorem cancelAbortsEveryWait : Obligations.CancelAbortsEveryWait := by
  intro s rest hev hf
  rw [step_cancel hev]
  exact ⟨fun hc ho hs => congrArg _ (cancel_collection (s := { s with events := rest }) hf hc ho hs),
    fun hc ho hs => congrArg _ (cancel_collection_and_sequence (s := { s with events := rest }) hf hc ho hs),
    fun hc hs => congrArg _ (cancel_sequence (s := { s with events := rest }) hf hc hs),
    fun hc hs => congrArg _ (cancel_held (s := { s with events := rest }) hf hc hs)⟩
end

section
/-! PROOF. No step writes the configuration (10_state R34, 70_reset R382). -/

namespace Sys2Proof.Machine

variable {s t : State}

theorem rejected_cfg {r : Reject} {p : Port} {bytes : List Byte} (h : rejected r p bytes s = .next t) : t.cfg = s.cfg := by
  rcases rejected_cases h with rfl | ⟨-, rfl⟩ | ⟨op, -, rfl⟩ <;> rfl

/-- Instructions, rejected bytes, a cancel and the agents keep the configuration by their frames; reset takes every other
element of the engine back to its first value but copies this one (70_reset R380, R382). -/
theorem step_cfg (h : step s = .next t) : t.cfg = s.cfg := by
  rcases step_cases h with ⟨p, bytes, rest, i, -, -, hexec⟩ | ⟨p, bytes, rest, r, -, -, hrej⟩ | ⟨rest, -, rfl⟩ |
    ⟨bytes, rest, -, rfl⟩ | ⟨rest, -, rfl⟩ | ⟨n, rest, -, rfl⟩ | ⟨a, d, q, evs, hagent, -⟩
  · exact (exec_frame hexec).1
  · exact rejected_cfg (s := { s with events := rest }) hrej
  · exact (cancel_frame { s with events := rest }).1
  · exact arrive_cfg _ bytes
  · rfl
  · rfl
  · exact (agent_frame hagent).1

end Sys2Proof.Machine

open Sys2Proof Sys2Proof.Machine

/-- Settles O41, by what the step was: whatever it is, it hands the configuration on. -/
theorem configurationNeverChanges : Obligations.ConfigurationNeverChanges :=
  fun _ _ h => step_cfg h
end

section
/-! PROOF. The decoder and the encoder of 30_encoding agree: what is encoded decodes to itself, what decodes is the
encoding of what it decodes to, and every legal header with its data decodes. -/

namespace Sys2Proof.Machine

variable {op c n : Byte} {data : List Byte} {i j : Instr}

/-! ### Encoded requests decode (30_encoding R113, R116) -/

theorem withData_countByte (h : data.length ≤ 255) (i : Instr) : withData (countByte data).toNat data i = .ok i :=
  withData_ok.2 ⟨(count_toNat h).symm, rfl⟩

theorem decodeOp_connect {path : List Byte} (h : path.length ≤ 255) (baud : Word) :
    decodeOp OP_CONNECT 0 (countByte path) (bytesOfWord baud ++ path) = .ok (.connect baud path) :=
  (withData_countByte h _).trans (congrArg (fun w => Except.ok (Instr.connect w path)) (word_roundtrip baud))

theorem decodeOp_setcolor {hex lum : List Byte} (hh : hex.length ≤ 255) (hl : lum.length ≤ 255) :
    decodeOp OP_SETCOLOR (countByte hex) (countByte lum) (hex ++ lum) = .ok (.setcolor hex lum) := by
  change withData _ _ _ = _
  rw [count_toNat hh, count_toNat hl, List.take_left, List.drop_left]
  exact withData_ok.2 ⟨List.length_append, rfl⟩

theorem decode_encode_request (hw : i.wf = true) (hp : i.port = .request) : decode .request i.encode = .ok i := by
  cases i with
  | cksum | encf | encw | decr | qhex | wrcmd => exact withData_countByte (of_decide_eq_true hw) _
  | encr | collect | qrgb | rdcmd | disconnect | turnon | turnoff | getfw | rdstat => rfl
  | connect baud path => exact decodeOp_connect (of_decide_eq_true hw) baud
  | setmode v | setbright v | setspeed v | setleds v => exact word_decode v _
  | setcolor hex lum =>
    obtain ⟨hh, hl⟩ : hex.length ≤ 255 ∧ lum.length ≤ 255 := by simpa [Instr.wf] using hw
    exact decodeOp_setcolor hh hl
  | setauto on | setpause on | setdir on => exact withFlag_ok.2 ⟨on, rfl, rfl, rfl, rfl⟩
  | _ => cases hp

/-! ### Encoded packets decode (30_encoding R100, R110, R121) -/

theorem decode_encodePacket (len st cmd : Byte) (params : List Byte) (sum : Byte) :
    decode .outbound (encodePacket len st cmd params sum) = decodeOutboundFields len st cmd params sum := by
  simp [decode, decodeOutbound, encodePacket]

theorem flagValue_of_not_flag {v : Byte} (h : isFlagByte v = false) : flagValue v = none := by
  simp only [isFlagByte, Bool.or_eq_false_iff, beq_eq_false_iff_ne] at h
  simp only [flagValue, beq_iff_eq, if_neg h.1, if_neg h.2]

/-- The generic write row takes what no named row takes (log entry 9). -/
theorem decodeWrite_generic {len cmd : Byte} {params : List Byte} (h : genericWrite len cmd params = true)
    (sum : Byte) : decodeWrite len cmd params sum = .pktWrite len cmd params sum := by
  match params with
  | [] | _ :: _ :: _ :: _ => simp_all [genericWrite, decodeWrite]
  | [lo, hi] => simp_all [genericWrite, decodeWrite, imp_iff_not_or]
  | [v] =>
    by_cases hl : len = 0x06
    · subst hl
      cases hv : isFlagByte v with
      | true => simp_all [genericWrite, decodeWrite]
      | false => simp_all [genericWrite, decodeWrite, flagPacket, flagValue_of_not_flag]
    · simp_all [genericWrite, decodeWrite]

theorem decode_encode_packet (hw : i.wf = true) (hp : i.port ≠ .request) : decode i.port i.encode = .ok i := by
  cases i with
  | pktPower | pktMode | pktSpeed | pktRgborder | pktBrightness | pktLedcount | pktFwread =>
    exact decode_encodePacket ..
  | pktAuto on | pktPause on | pktDirection on =>
    refine (decode_encodePacket ..).trans ?_
    cases on <;> rfl
  | pktReadreq cmd sum =>
    refine (decode_encodePacket ..).trans ?_
    obtain ⟨⟨-, hfw⟩, hrgb⟩ : (packetFieldsOk 0x05 STATUS_READ cmd [] sum = true ∧ cmd ≠ 10#8) ∧ cmd ≠ 7#8 := by
      simpa [Instr.wf] using hw
    simp [decodeOutboundFields, hfw, hrgb]
  | pktWrite len cmd params sum =>
    refine (decode_encodePacket ..).trans ?_
    obtain ⟨-, hg⟩ := Bool.and_eq_true_iff.1 hw
    have hcmd : cmd ≠ 7#8 := by rintro rfl; simp [genericWrite] at hg
    simp [decodeOutboundFields, hcmd, decodeWrite_generic hg]
  | pktResponse => rfl
  | _ => exact absurd rfl hp

/-! ### What decodes is an encoding (30_encoding R113, R116, R118) -/

/-- The request with this header and data is the encoding of `i`, which is well formed. -/
def RequestReads (op c n : Byte) (data : List Byte) (i : Instr) : Prop :=
  i.encode = encodeRequest op c n data ∧ i.port = .request ∧ i.wf = true

/-! One lemma per kind of operand layout (30_encoding R116). -/

theorem reads_of_empty (h : withData 0 data j = .ok i) (hj : RequestReads op c n [] j) :
    RequestReads op c n data i := by
  obtain ⟨hl, rfl⟩ := withData_ok.1 h
  rwa [List.length_eq_zero_iff.1 hl]

theorem reads_of_counted (h : withData n.toNat data j = .ok i)
    (hj : data.length ≤ 255 → RequestReads op c (countByte data) data j) : RequestReads op c n data i := by
  obtain ⟨hl, rfl⟩ := withData_ok.1 h
  obtain ⟨hn, hle⟩ := count_of hl
  exact hn ▸ hj hle

theorem reads_of_word {f : Word → Instr} (h : mustHold op (c == 0 && n == 4) (withInt32 data f) = .ok i)
    (hf : ∀ v, RequestReads op 0 4 (bytesOfWord v) (f v)) : RequestReads op c n data i := by
  obtain ⟨hl, hi⟩ := mustHold_ok.1 h
  obtain ⟨b0, b1, b2, b3, rfl, rfl⟩ := withInt32_ok.1 hi
  obtain ⟨rfl, rfl⟩ : c = 0 ∧ n = 4 := by simpa using hl
  exact bytes_word b0 b1 b2 b3 ▸ hf _

theorem reads_of_flag {f : Bool → Instr} (h : withFlag op c n data f = .ok i)
    (hf : ∀ b, RequestReads op (byteOfBool b) 0 [] (f b)) : RequestReads op c n data i := by
  obtain ⟨b, rfl, rfl, rfl, rfl⟩ := withFlag_ok.1 h
  exact hf b

theorem reads_of_bare (h : mustHold op (c == 0 && n == 0) (withData 0 data j) = .ok i)
    (hj : RequestReads op 0 0 [] j) : RequestReads op c n data i := by
  obtain ⟨hl, hi⟩ := mustHold_ok.1 h
  obtain ⟨rfl, rfl⟩ : c = 0 ∧ n = 0 := by simpa using hl
  exact reads_of_empty hi hj

theorem reads_of_command (h : mustHold op (n == 0) (withData 0 data j) = .ok i)
    (hj : RequestReads op c 0 [] j) : RequestReads op c n data i := by
  obtain ⟨hl, hi⟩ := mustHold_ok.1 h
  obtain rfl : n = 0 := by simpa using hl
  exact reads_of_empty hi hj

theorem reads_of_bytes (h : mustHold op (c == 0) (withData n.toNat data j) = .ok i)
    (hj : data.length ≤ 255 → RequestReads op 0 (countByte data) data j) : RequestReads op c n data i := by
  obtain ⟨hl, hi⟩ := mustHold_ok.1 h
  obtain rfl : c = 0 := by simpa using hl
  exact reads_of_counted hi hj

theorem encf_reads (h : decodeOp OP_ENCF c n data = .ok i) : RequestReads OP_ENCF c n data i := by
  cases data with
  | nil => cases h
  | cons st params =>
    obtain ⟨hl, rfl⟩ := withData_ok.1 h
    obtain ⟨hn, hle⟩ := count_of hl
    exact ⟨congrArg (encodeRequest OP_ENCF c · (st :: params)) hn, rfl, decide_eq_true hle⟩

theorem qrgb_reads (h : decodeOp OP_QRGB c n data = .ok i) : RequestReads OP_QRGB c n data i := by
  obtain ⟨hl, hi⟩ := mustHold_ok.1 h
  obtain ⟨rfl, rfl⟩ : c = 0 ∧ n = 3 := by simpa using hl
  split at hi
  · cases hi; exact ⟨rfl, rfl, rfl⟩
  · cases hi

theorem connect_reads (h : decodeOp OP_CONNECT c n data = .ok i) : RequestReads OP_CONNECT c n data i := by
  obtain ⟨hl, hi⟩ := mustHold_ok.1 h
  obtain rfl : c = 0 := by simpa using hl
  split at hi
  · rename_i b0 b1 b2 b3 path
    obtain ⟨hlen, rfl⟩ := withData_ok.1 hi
    obtain ⟨rfl, hle⟩ := count_of hlen
    refine ⟨?_, rfl, decide_eq_true hle⟩
    change encodeRequest _ _ _ (bytesOfWord _ ++ path) = _
    rw [bytes_word]; rfl
  · cases hi

theorem setcolor_reads (h : decodeOp OP_SETCOLOR c n data = .ok i) : RequestReads OP_SETCOLOR c n data i := by
  obtain ⟨hlen, rfl⟩ := withData_ok.1 h
  have hc : (data.take c.toNat).length = c.toNat := by simp [hlen]
  have hn : (data.drop c.toNat).length = n.toNat := by simp [hlen]
  obtain ⟨hc', hcl⟩ := count_of hc
  obtain ⟨hn', hnl⟩ := count_of hn
  refine ⟨?_, rfl, ?_⟩
  · simp only [Instr.encode, hc', hn', List.take_append_drop]
  · exact Bool.and_eq_true_iff.2 ⟨decide_eq_true hcl, decide_eq_true hnl⟩

/-- Every request that decodes is the encoding of a well-formed request: a case per operation, in the order of
`operationCodes`. -/
theorem decodeOp_reads (h : decodeOp op c n data = .ok i) : RequestReads op c n data i := by
  by_cases hop : op ∈ operationCodes
  · fin_cases hop
    · exact reads_of_counted h fun hl => ⟨rfl, rfl, decide_eq_true hl⟩
    · exact encf_reads h
    · exact reads_of_counted h fun hl => ⟨rfl, rfl, decide_eq_true hl⟩
    · exact reads_of_command h ⟨rfl, rfl, rfl⟩
    · exact reads_of_bytes h fun hl => ⟨rfl, rfl, decide_eq_true hl⟩
    · exact reads_of_bare h ⟨rfl, rfl, rfl⟩
    · exact qrgb_reads h
    · exact reads_of_bytes h fun hl => ⟨rfl, rfl, decide_eq_true hl⟩
    · exact reads_of_counted h fun hl => ⟨rfl, rfl, decide_eq_true hl⟩
    · exact reads_of_command h ⟨rfl, rfl, rfl⟩
    · exact reads_of_bare h ⟨rfl, rfl, rfl⟩
    · exact connect_reads h
    · exact reads_of_bare h ⟨rfl, rfl, rfl⟩
    · exact reads_of_bare h ⟨rfl, rfl, rfl⟩
    · exact reads_of_bare h ⟨rfl, rfl, rfl⟩
    · exact reads_of_word h fun _ => ⟨rfl, rfl, rfl⟩
    · exact reads_of_word h fun _ => ⟨rfl, rfl, rfl⟩
    · exact setcolor_reads h
    · exact reads_of_word h fun _ => ⟨rfl, rfl, rfl⟩
    · exact reads_of_flag h fun _ => ⟨rfl, rfl, rfl⟩
    · exact reads_of_flag h fun _ => ⟨rfl, rfl, rfl⟩
    · exact reads_of_flag h fun _ => ⟨rfl, rfl, rfl⟩
    · exact reads_of_word h fun _ => ⟨rfl, rfl, rfl⟩
    · exact reads_of_bare h ⟨rfl, rfl, rfl⟩
  · rw [decodeOp_unknown hop] at h
    cases h

theorem decodeRequest_reads {bytes : List Byte} (h : decodeRequest bytes = .ok i) :
    i.encode = bytes ∧ i.port = .request ∧ i.wf = true := by
  unfold decodeRequest at h
  split at h
  · obtain ⟨hrsv, hi⟩ := mustHold_ok.1 h
    obtain rfl := beq_iff_eq.1 hrsv
    exact decodeOp_reads hi
  · cases h

/-! The link's bytes (30_encoding R100, R104, R110, R121). -/

/-- The packet with these fields is the encoding of `i`, which travels outbound. -/
def PacketReads (len st cmd : Byte) (params : List Byte) (sum : Byte) (i : Instr) : Prop :=
  i.encode = encodePacket len st cmd params sum ∧ i.port = .outbound

theorem flagPacket_reads {cmd : Byte} {f : Bool → Byte → Instr}
    (hf : ∀ b sum, PacketReads 0x06 STATUS_WRITE cmd [byteOfBool b] sum (f b sum)) (v sum : Byte) :
    PacketReads 0x06 STATUS_WRITE cmd [v] sum (flagPacket 0x06 cmd v sum f) := by
  unfold flagPacket flagValue
  split_ifs with h0 h1
  · rw [beq_iff_eq.1 h0]; exact hf false sum
  · rw [beq_iff_eq.1 h1]; exact hf true sum
  · exact ⟨rfl, rfl⟩

/-- Whichever write row takes the bytes, its encoding is those bytes. -/
theorem decodeWrite_reads (len cmd : Byte) (params : List Byte) (sum : Byte) :
    PacketReads len STATUS_WRITE cmd params sum (decodeWrite len cmd params sum) := by
  unfold decodeWrite
  by_cases hp : cmd = 0x01
  · subst hp
    exact ⟨rfl, rfl⟩
  rw [if_neg (by simpa using hp)]
  match params with
  | [] | _ :: _ :: _ :: _ => exact ⟨rfl, rfl⟩
  | [lo, hi] =>
    simp only []
    split_ifs with h
    · obtain ⟨rfl, rfl⟩ : len = 0x07 ∧ cmd = 0x09 := by simpa using h
      exact ⟨rfl, rfl⟩
    · exact ⟨rfl, rfl⟩
  | [v] =>
    simp only []
    by_cases hl : len = 0x06
    · subst hl
      simp only [beq_iff_eq]
      split_ifs with h1 h2 h3 h4 h5 h6 h7
      · exact ⟨rfl, rfl⟩
      · subst h2; exact flagPacket_reads (fun _ _ => ⟨rfl, rfl⟩) v sum
      · subst h3; exact flagPacket_reads (fun _ _ => ⟨rfl, rfl⟩) v sum
      · subst h4; exact ⟨rfl, rfl⟩
      · subst h5; exact flagPacket_reads (fun _ _ => ⟨rfl, rfl⟩) v sum
      · subst h6; exact ⟨rfl, rfl⟩
      · subst h7; exact ⟨rfl, rfl⟩
      · exact ⟨rfl, rfl⟩
    · rw [if_pos (by simpa using hl)]
      exact ⟨rfl, rfl⟩

theorem decodeOutboundFields_reads {len st cmd : Byte} {params : List Byte} {sum : Byte}
    (h : decodeOutboundFields len st cmd params sum = .ok i) : PacketReads len st cmd params sum i := by
  unfold decodeOutboundFields at h
  split_ifs at h with hrgb hw hr hfw
  · obtain rfl := beq_iff_eq.1 hrgb
    cases h
    exact ⟨rfl, rfl⟩
  · obtain rfl := beq_iff_eq.1 hw
    cases h
    exact decodeWrite_reads ..
  all_goals obtain ⟨⟨rfl, rfl⟩, rfl⟩ : (st = STATUS_READ ∧ len = 0x05) ∧ params = [] := by simpa using hr
  · obtain rfl := beq_iff_eq.1 hfw
    cases h
    exact ⟨rfl, rfl⟩
  · cases h
    exact ⟨rfl, rfl⟩

theorem decodeOutbound_reads {bytes : List Byte} (h : decodeOutbound bytes = .ok i) :
    i.encode = bytes ∧ i.port = .outbound := by
  unfold decodeOutbound at h
  split at h
  · rename_i hd len st cmd rest
    split at h
    · rename_i sum hsum
      split_ifs at h with hh
      obtain rfl := beq_iff_eq.1 hh
      have hrest : rest.dropLast ++ [sum] = rest := List.dropLast_append_getLast? sum hsum
      obtain ⟨he, hp⟩ := decodeOutboundFields_reads h
      refine ⟨?_, hp⟩
      rw [he]
      exact congrArg (HEADER :: len :: st :: cmd :: ·) hrest
    · cases h
  · cases h

theorem decodeInbound_reads {bytes : List Byte} (h : decodeInbound bytes = .ok i) :
    i.encode = bytes ∧ i.port = .inbound := by
  unfold decodeInbound at h
  split at h
  · split_ifs at h with hh
    obtain ⟨rfl, rfl⟩ := by simpa using hh
    cases h
    exact ⟨rfl, rfl⟩
  · cases h

theorem decode_port {p : Port} {bytes : List Byte} (h : decode p bytes = .ok i) : i.port = p := by
  cases p with
  | request => exact (decodeRequest_reads h).2.1
  | outbound => exact (decodeOutbound_reads h).2
  | inbound => exact (decodeInbound_reads h).2

/-! ### Legal requests decode (30_encoding R113, R116, R118) -/

/-- The "must"s of the operand layouts, which a legal header obeys (30_encoding R116, R118). -/
theorem legalHeader_musts (h : ¬ IllegalHeader op c n 0) :
    op ∈ operationCodes ∧ (op ∈ [OP_ENCR, OP_RDCMD] → n = 0) ∧ (op ∈ [OP_DECR, OP_QHEX, OP_CONNECT] → c = 0) ∧
      (op ∈ [OP_COLLECT, OP_RDSTAT, OP_DISCONNECT, OP_TURNON, OP_TURNOFF, OP_GETFW] → c = 0 ∧ n = 0) ∧
      (op = OP_QRGB → c = 0 ∧ n = 3) ∧
      (op ∈ [OP_SETMODE, OP_SETBRIGHT, OP_SETSPEED, OP_SETLEDS] → c = 0 ∧ n = 4) ∧
      (op ∈ [OP_SETAUTO, OP_SETPAUSE, OP_SETDIR] → c.toNat ≤ 1 ∧ n = 0) := by
  unfold IllegalHeader at h
  push Not at h
  tauto

theorem decodes_of_counted (h : data.length = n.toNat) (j : Instr) : ∃ i, withData n.toNat data j = .ok i :=
  ⟨j, withData_ok.2 ⟨h, rfl⟩⟩

theorem decodes_of_must {legal : Bool} {r : Except Reject Instr} (hm : legal = true) (hr : ∃ i, r = .ok i) :
    ∃ i, mustHold op legal r = .ok i := by
  obtain ⟨i, hi⟩ := hr
  exact ⟨i, mustHold_ok.2 ⟨hm, hi⟩⟩

theorem decodes_of_command (hn : n = 0) (h : data.length = n.toNat) (j : Instr) :
    ∃ i, mustHold op (n == 0) (withData 0 data j) = .ok i :=
  decodes_of_must (beq_iff_eq.2 hn) ⟨j, withData_ok.2 ⟨by rw [h, hn]; rfl, rfl⟩⟩

theorem decodes_of_bytes (hc : c = 0) (h : data.length = n.toNat) (j : Instr) :
    ∃ i, mustHold op (c == 0) (withData n.toNat data j) = .ok i :=
  decodes_of_must (beq_iff_eq.2 hc) (decodes_of_counted h j)

theorem decodes_of_bare (hm : c = 0 ∧ n = 0) (h : data.length = n.toNat) (j : Instr) :
    ∃ i, mustHold op (c == 0 && n == 0) (withData 0 data j) = .ok i :=
  decodes_of_must (by simp [hm]) ⟨j, withData_ok.2 ⟨by rw [h, hm.2]; rfl, rfl⟩⟩

theorem decodes_of_word (hm : c = 0 ∧ n = 4) (h : data.length = n.toNat) (f : Word → Instr) :
    ∃ i, mustHold op (c == 0 && n == 4) (withInt32 data f) = .ok i := by
  rw [hm.2] at h
  match data, h with
  | [b0, b1, b2, b3], _ => exact decodes_of_must (by simp [hm]) ⟨_, rfl⟩

theorem decodes_of_flag (hm : c.toNat ≤ 1 ∧ n = 0) (h : data.length = n.toNat) (f : Bool → Instr) :
    ∃ i, withFlag op c n data f = .ok i := by
  obtain ⟨hc, rfl⟩ := hm
  have hdata : data = [] := List.length_eq_zero_iff.1 h
  obtain rfl | rfl : c = 0x00 ∨ c = 0x01 := by bv_omega
  · exact ⟨_, withFlag_ok.2 ⟨false, rfl, rfl, hdata, rfl⟩⟩
  · exact ⟨_, withFlag_ok.2 ⟨true, rfl, rfl, hdata, rfl⟩⟩

theorem decodes_encf (h : data.length = n.toNat + 1) : ∃ i, decodeOp OP_ENCF c n data = .ok i := by
  match data, h with
  | st :: params, h => exact decodes_of_counted (Nat.succ_injective h) _

theorem decodes_qrgb (hm : c = 0 ∧ n = 3) (h : data.length = n.toNat) : ∃ i, decodeOp OP_QRGB c n data = .ok i := by
  rw [hm.2] at h
  match data, h with
  | [r, g, b], _ => exact decodes_of_must (by simp [hm]) ⟨_, rfl⟩

theorem decodes_connect (hc : c = 0) (h : data.length = 4 + n.toNat) : ∃ i, decodeOp OP_CONNECT c n data = .ok i := by
  rcases data with _ | ⟨b0, _ | ⟨b1, _ | ⟨b2, _ | ⟨b3, path⟩⟩⟩⟩ <;> simp only [List.length_cons, List.length_nil] at h
  case cons.cons.cons.cons => exact decodes_of_must (beq_iff_eq.2 hc) (decodes_of_counted (by omega) _)
  all_goals omega

/-- A legal header with its data decodes: a case per operation, in the order of `operationCodes`. -/
theorem decodeOp_legal (hlegal : ¬ IllegalHeader op c n 0) (h : data.length = dataLength op c n) :
    ∃ i, decodeOp op c n data = .ok i := by
  obtain ⟨hop, hn, hc, hcn, h3, h4, hflag⟩ := legalHeader_musts hlegal
  fin_cases hop
  · exact decodes_of_counted h _
  · exact decodes_encf h
  · exact decodes_of_counted h _
  · exact decodes_of_command (hn (by decide)) h _
  · exact decodes_of_bytes (hc (by decide)) h _
  · exact decodes_of_bare (hcn (by decide)) h _
  · exact decodes_qrgb (h3 rfl) h
  · exact decodes_of_bytes (hc (by decide)) h _
  · exact decodes_of_counted h _
  · exact decodes_of_command (hn (by decide)) h _
  · exact decodes_of_bare (hcn (by decide)) h _
  · exact decodes_connect (hc (by decide)) h
  · exact decodes_of_bare (hcn (by decide)) h _
  · exact decodes_of_bare (hcn (by decide)) h _
  · exact decodes_of_bare (hcn (by decide)) h _
  · exact decodes_of_word (h4 (by decide)) h _
  · exact decodes_of_word (h4 (by decide)) h _
  · exact ⟨_, withData_ok.2 ⟨h, rfl⟩⟩
  · exact decodes_of_word (h4 (by decide)) h _
  · exact decodes_of_flag (hflag (by decide)) h _
  · exact decodes_of_flag (hflag (by decide)) h _
  · exact decodes_of_flag (hflag (by decide)) h _
  · exact decodes_of_word (h4 (by decide)) h _
  · exact decodes_of_bare (hcn (by decide)) h _

/-! ### Packet rows are packets (30_encoding R100, R101) -/

/-- The length byte and the checksum of a packet's fields are those of its own packet. -/
theorem encodePacket_eq_specPacket {len st cmd : Byte} {params : List Byte} {sum : Byte}
    (h : packetFieldsOk len st cmd params sum = true) :
    encodePacket len st cmd params sum = specPacket st cmd params ∧ params.length ≤ 250 := by
  obtain ⟨⟨hle, hlen⟩, rfl⟩ :
      (params.length ≤ 250 ∧ len.toNat = 5 + params.length) ∧ sum = packetSum len st cmd params := by
    simpa [packetFieldsOk] using h
  obtain rfl : len = BitVec.ofNat 8 (5 + params.length) := by rw [← hlen]; simp
  have htake : ([HEADER, BitVec.ofNat 8 (5 + params.length), st, cmd] ++ params).take (4 + params.length) = _ :=
    List.take_of_length_le (by simp; omega)
  refine ⟨?_, hle⟩
  rw [← frame_eq_specPacket, frame, checksum, htake]
  rfl

theorem encodePacket_wellFormed {len st cmd : Byte} {params : List Byte} {sum : Byte}
    (h : packetFieldsOk len st cmd params sum = true) : WellFormedPacket (encodePacket len st cmd params sum) := by
  obtain ⟨he, hle⟩ := encodePacket_eq_specPacket h
  exact he ▸ specPacket_wellFormed hle

theorem encode_wellFormedPacket (hp : i.port ≠ .request) (hw : i.wf = true) : WellFormedPacket i.encode := by
  cases i with
  | pktPower | pktSpeed | pktRgborder | pktFwread | pktResponse => exact encodePacket_wellFormed hw
  | pktAuto on | pktPause on | pktDirection on => exact encodePacket_wellFormed (byteOfBool_eq on ▸ hw)
  | pktMode | pktBrightness | pktLedcount | pktWrite => exact encodePacket_wellFormed (Bool.and_eq_true_iff.1 hw).1
  | pktReadreq =>
    exact encodePacket_wellFormed (Bool.and_eq_true_iff.1 (Bool.and_eq_true_iff.1 hw).1).1
  | _ => exact absurd rfl hp

end Sys2Proof.Machine

open Sys2Proof Sys2Proof.Machine

/-- Settles O2: the count bytes read back the data's length, the four bytes of a word the word. -/
theorem requestDecodeOfEncode : Obligations.RequestDecodeOfEncode :=
  fun _ hw hp => decode_encode_request hw hp

/-- Settles O3: well-formedness sends a packet's bytes to its own row. -/
theorem packetDecodeOfEncode : Obligations.PacketDecodeOfEncode :=
  fun _ hw hp => decode_encode_packet hw hp

/-- Settles O4: by port, and for a request by its operation code. -/
theorem decodedBytesAreTheEncoding : Obligations.DecodedBytesAreTheEncoding := by
  intro p bytes i h
  cases p with
  | request =>
    obtain ⟨he, hp, hw⟩ := decodeRequest_reads h
    exact ⟨he, hp, fun _ => hw⟩
  | outbound =>
    obtain ⟨he, hp⟩ := decodeOutbound_reads h
    exact ⟨he, hp, nofun⟩
  | inbound =>
    obtain ⟨he, hp⟩ := decodeInbound_reads h
    exact ⟨he, hp, nofun⟩

/-- Settles O5: the header's musts hold, and the data are as long as the layout asks. -/
theorem legalRequestsDecode : Obligations.LegalRequestsDecode :=
  fun _ _ _ _ hlegal hlen => decodeOp_legal hlegal hlen

/-- Settles O31: a well-formed row's packet is the packet with its fields. -/
theorem packetRowsAreWellFormedPackets : Obligations.PacketRowsAreWellFormedPackets :=
  fun _ hp hw => encode_wellFormedPacket hp hw

/-- Settles O1: the decoder evaluated on the eight words. -/
theorem writtenOutWordsDecode : Obligations.WrittenOutWordsDecode :=
  ⟨rfl, rfl, rfl, rfl, rfl, rfl, rfl, rfl⟩
end

section
/-! PROOF. A framed packet meets the wire's invariant, and DECR tells every corrupted byte of a framed response by its
own error (40_framer R146, R148, R150). -/

namespace Sys2Proof.Machine

variable {s : State}

/-- A framed response, byte by byte (30_encoding R104). -/
theorem frame_response (st cmd p0 p1 : Byte) : ∃ sum : Byte,
    frame st cmd [p0, p1] = [0xCA, 0x07, st, cmd, p0, p1, sum] ∧
      sum.toNat = (0xCA + 0x07 + st.toNat + cmd.toNat + p0.toNat + p1.toNat) % 256 := by
  refine ⟨_, frame_eq_specPacket st cmd [p0, p1], ?_⟩
  simp
  omega

theorem verdictPayload_of_failed {b : List Byte} (h : verdict b ≠ .ok) : verdictPayload b = [] := if_neg h

theorem verdict_checksumMismatch {b2 b3 b4 b5 b6 : Byte}
    (h : b6.toNat ≠ (0xCA + 0x07 + b2.toNat + b3.toNat + b4.toNat + b5.toNat) % 256) :
    verdict [0xCA, 0x07, b2, b3, b4, b5, b6] = .checksumMismatch := by
  simpa [verdict] using h

/-- The verdict on a valid response with one byte changed, by the byte's offset (40_framer R150). -/
theorem verdict_corrupted {st cmd p0 p1 sum x : Byte}
    (hsum : sum.toNat = (0xCA + 0x07 + st.toNat + cmd.toNat + p0.toNat + p1.toNat) % 256) (i : Fin 7)
    (hx : [0xCA, 0x07, st, cmd, p0, p1, sum][i.val]? ≠ some x) :
    verdict ([0xCA, 0x07, st, cmd, p0, p1, sum].set i.val x) =
      if i = 0 then .invalidHeader else if i = 1 then .lengthMismatch else .checksumMismatch := by
  have changed {b : Byte} (h : some b ≠ some x) : x.toNat ≠ b.toNat :=
    fun e => h (congrArg some (BitVec.eq_of_toNat_eq e.symm))
  match i with
  | 0 => exact if_pos fun e => hx (congrArg some e.symm)
  | 1 => exact if_pos fun e => hx (congrArg some e.symm)
  | 2 | 3 | 4 | 5 | 6 =>
    have hb := changed hx
    exact verdict_checksumMismatch (by omega)

/-- DECR of seven bytes delivers the verdict on them (40_framer R146). -/
theorem exec_decr_response (hf : s.fault = none) {b : List Byte} (h : b.length = 7) :
    exec (.decr b) s = .next (s.withResult (verdict b) 0x05 (verdictPayload b)) := by
  rw [exec_decr hf, if_pos h]

end Sys2Proof.Machine

open Sys2Proof Sys2Proof.Machine

/-- Settles O10: the frame is the packet with its fields. -/
theorem framedPacketsAreWellFormed : Obligations.FramedPacketsAreWellFormed := by
  intro st cmd params hle
  have hwf := specPacket_wellFormed (st := st) (cmd := cmd) hle
  have hlen := specPacket_length st cmd params
  rw [frame_eq_specPacket]
  exact ⟨hwf, hlen, (packetOk_iff _).2 ⟨hwf, by omega⟩⟩

/-- Settles O12: the first check that fails is the changed byte's, and a failed check delivers no byte. -/
theorem corruptedByteGivesItsOwnError : Obligations.CorruptedByteGivesItsOwnError := by
  intro s st cmd p0 p1 x i hf
  obtain ⟨sum, hframe, hsum⟩ := frame_response st cmd p0 p1
  refine ⟨frame_eq_specPacket .., ?_⟩
  rw [hframe]
  refine ⟨rfl, ?_, fun hx => ?_⟩
  · have hok : verdict [0xCA, 0x07, st, cmd, p0, p1, sum] = .ok := by simp [verdict, hsum]
    rw [exec_decr_response hf rfl, verdictPayload, if_pos hok, hok]
  · have hv := verdict_corrupted hsum i hx
    rw [exec_decr_response hf (by simp), verdictPayload_of_failed (by rw [hv]; split_ifs <;> simp), hv]
end

section
/-! PROOF. The source's three colours, for every palette that meets K1 to K6 (42_quantizer R221, R225). -/

namespace Sys2Proof.Machine

variable {p : Palette}

/-- `closest` is the one entry that is nearest, the earliest on a tie (42_quantizer R225). -/
theorem closest_eq {r g b : Byte} {i : Fin 15} (h : Nearest p r g b i) : closest p r g b = i :=
  nearest_unique (closest_nearest p r g b) h

theorem squaredDistance_nonneg (p : Palette) (r g b : Byte) (i : Fin 15) : 0 ≤ squaredDistance p r g b i := by
  unfold squaredDistance
  positivity

/-- Only an entry of the colour itself is at distance 0. -/
theorem squaredDistance_eq_zero {r g b : Byte} {i : Fin 15} (h : squaredDistance p r g b i = 0) :
    p[i].r = r ∧ p[i].g = g ∧ p[i].b = b := by
  have hzero : ∀ x y : Byte, ((x.toNat : Int) - y.toNat) ^ 2 = 0 → y = x := fun x y e =>
    BitVec.eq_of_toNat_eq (by have := pow_eq_zero_iff (two_ne_zero) |>.1 e; omega)
  unfold squaredDistance at h
  have hr := sq_nonneg ((r.toNat : Int) - p[i].r.toNat)
  have hg := sq_nonneg ((g.toNat : Int) - p[i].g.toNat)
  have hb := sq_nonneg ((b.toNat : Int) - p[i].b.toNat)
  exact ⟨hzero _ _ (by omega), hzero _ _ (by omega), hzero _ _ (by omega)⟩

/-- From black the distance is K3's squared length. -/
theorem squaredDistance_black (p : Palette) (i : Fin 15) : squaredDistance p 0 0 0 i = p[i].normSq := by
  simp [squaredDistance, PaletteEntry.normSq, sq]

/-- The first entry is selected where none is nearer. -/
theorem nearest_first {r g b : Byte} (h : ∀ j, squaredDistance p r g b 0 ≤ squaredDistance p r g b j) :
    Nearest p r g b 0 :=
  ⟨h, fun j hj => absurd hj (Fin.not_lt_zero j)⟩

/-- QHEX of a colour whose selected entry is known (42_quantizer R227). -/
theorem exec_qhex_selects {s : State} {str : List Byte} {r g b code : Byte} {i : Fin 15} (hf : s.fault = none)
    (hn : parseHex str = some (r, g, b)) (hi : closest s.cfg.palette r g b = i) (hcode : s.cfg.palette[i].code = code) :
    exec (.qhex str) s = .next (s.withResult .ok 0x08 [code, BitVec.ofNat 8 i.val]) := by
  subst hi hcode
  exact exec_qhex_colour hf (parseHex_eq_some.1 hn)

variable (hp : p.ok = true)
include hp

/-- K1: red's entry is 0x80, 0, 0. -/
theorem closest_red : closest p 0x80 0x00 0x00 = 0 := by
  obtain ⟨h0, -⟩ := Palette.ok_parts hp
  have hd : squaredDistance p 0x80 0x00 0x00 0 = 0 := by simp [squaredDistance, h0]
  exact closest_eq (nearest_first fun j => hd ▸ squaredDistance_nonneg p _ _ _ j)

/-- K4: red's entry is at distance 1 from 0x7F, 0, 0, and no entry is that colour. -/
theorem closest_darkRed : closest p 0x7F 0x00 0x00 = 0 := by
  obtain ⟨h0, -, -, h4, -⟩ := Palette.ok_parts hp
  have hd : squaredDistance p 0x7F 0x00 0x00 0 = 1 := by simp [squaredDistance, h0]
  refine closest_eq (nearest_first fun j => ?_)
  rw [hd]
  by_cases hj : j = 0
  · rw [hj, hd]
  · exact lt_of_le_of_ne (squaredDistance_nonneg p _ _ _ j) fun e => h4 j hj (squaredDistance_eq_zero e.symm)

/-- K3: black's entry is the one nearest to 0, 0, 0. -/
theorem closest_black : closest p 0x00 0x00 0x00 = 14 := by
  obtain ⟨-, -, h3, -⟩ := Palette.ok_parts hp
  have hlt : ∀ j : Fin 15, j < 14 → squaredDistance p 0 0 0 14 < squaredDistance p 0 0 0 j := by
    intro j hj
    rw [squaredDistance_black, squaredDistance_black]
    exact_mod_cast h3 ⟨j.val, hj⟩
  refine closest_eq ⟨fun j => ?_, hlt⟩
  rcases lt_or_eq_of_le (Fin.le_last j) with hj | rfl
  · exact (hlt j hj).le
  · exact le_rfl

end Sys2Proof.Machine

open Sys2Proof Sys2Proof.Machine

/-- Settles O20: K1, K3 and K4 fix the three selections. -/
theorem sourceColoursHoldForEveryPalette : Obligations.SourceColoursHoldForEveryPalette := by
  intro s hf hp
  obtain ⟨h0, h14, -⟩ := Palette.ok_parts hp
  have hred : s.cfg.palette[0].code = 0x00 := congrArg PaletteEntry.code h0
  exact ⟨exec_qhex_selects hf rfl (closest_red hp) hred, exec_qhex_selects hf rfl (closest_black hp) h14,
    exec_qhex_selects hf rfl (closest_darkRed hp) hred⟩
end

section
/-! PROOF. CONNECT's answers, SETCOLOR's checks, and the packet rows (44_controller R281, R294; 43_dispatcher R249). -/

namespace Sys2Proof.Machine

variable {s : State} {i : Instr} {p : Packet} {h : Handle}

/-! ### CONNECT (44_controller R281) -/

theorem exec_connect_connected (hf : s.fault = none) (hc : s.conn = .connected h) (baud : Word) (path : List Byte) :
    exec (.connect baud path) s = .next (s.withResult .ok 0x10 []) := by
  simp only [exec, execConnect, State.unlessFaulted_of_none hf, hc, State.deliver_eq]

theorem exec_connect_refused (hf : s.fault = none) (hc : s.conn = .disconnected) (hd : s.openDraw = false) (baud : Word)
    (path : List Byte) :
    exec (.connect baud path) s =
      .next ((txOpen path (effectiveBaud baud s) s).2.withResult .connectError 0x10 []) := by
  have hopen : (txOpen path (effectiveBaud baud s) s).1 = none := by simp [txOpen, hd]
  simp only [exec, execConnect, State.unlessFaulted_of_none hf, hc, hopen, State.deliver_eq]

theorem exec_connect_opened (hf : s.fault = none) (hc : s.conn = .disconnected) (hd : s.openDraw = true) (baud : Word)
    (path : List Byte) :
    exec (.connect baud path) s = .next (({ (txOpen path (effectiveBaud baud s) s).2 with
      conn := .connected s.tx.issued }).withResult .ok 0x10 []) := by
  have hopen : (txOpen path (effectiveBaud baud s) s).1 = some s.tx.issued := by simp [txOpen, hd]
  simp only [exec, execConnect, State.unlessFaulted_of_none hf, hc, hopen, State.deliver_eq]

/-! ### SETCOLOR's checks (44_controller R294, R295) -/

section
variable {hex lum : List Byte} (hf : s.fault = none) (hs : s.seqPhase = .idle)
include hf hs

theorem exec_setcolor_noColour (hx : parseHex hex = none) :
    exec (.setcolor hex lum) s = .next (s.withResult .preconditionViolation 0x16 []) := by
  simp only [exec, execSetcolor, State.unlessFaulted_of_none hf, hs, hx, State.deliver_eq]
  rfl

theorem exec_setcolor_noLuminance (hl : parseLuminance lum = none) :
    exec (.setcolor hex lum) s = .next (s.withResult .preconditionViolation 0x16 []) := by
  cases hx : parseHex hex with
  | none => exact exec_setcolor_noColour hf hs hx
  | some rgb =>
    simp only [exec, execSetcolor, State.unlessFaulted_of_none hf, hs, hx, hl, State.deliver_eq]
    rfl

theorem exec_setcolor_disconnected {rgb : Byte × Byte × Byte} {l : Luminance} (hc : s.conn = .disconnected)
    (hx : parseHex hex = some rgb) (hl : parseLuminance lum = some l) :
    exec (.setcolor hex lum) s = .next (s.withResult .notConnected 0x16 []) := by
  simp only [exec, execSetcolor, State.unlessFaulted_of_none hf, hs, hx, hl, hc, State.deliver_eq]
  rfl

end

/-- "off" and every brightness are read (44_controller R294, R295). -/
theorem parseLuminance_isSome {lum : List Byte} (hl : lum = [0x6F, 0x66, 0x66] ∨ ∃ v, NamesBrightness lum v) :
    ∃ l, parseLuminance lum = some l := by
  rcases hl with rfl | ⟨v, hv⟩
  · exact ⟨_, parseLuminance_off⟩
  · exact ⟨_, parseLuminance_of_names hv⟩

/-! ### The outbound packet rows (43_dispatcher R249; log entries 8, 14) -/

theorem exec_outbound (hp : i.port = .outbound) (s : State) : exec i s = transmit i.encode s := by
  cases i
  case pktPower | pktAuto | pktPause | pktMode | pktDirection | pktSpeed | pktRgborder | pktBrightness | pktLedcount |
    pktFwread | pktReadreq | pktWrite => rfl
  all_goals cases hp

theorem encode_outbound_length (hp : i.port = .outbound) : 5 ≤ i.encode.length := by
  have hlen (len st cmd : Byte) (params : List Byte) (sum : Byte) :
      5 ≤ (encodePacket len st cmd params sum).length := by simp [encodePacket]
  cases i
  case pktPower | pktAuto | pktPause | pktMode | pktDirection | pktSpeed | pktRgborder | pktBrightness | pktLedcount |
    pktFwread | pktReadreq | pktWrite => exact hlen ..
  all_goals cases hp

/-- Every row but PKT.RGBORDER fixes its status, and a read request's length (30_encoding R102, R103). -/
theorem encode_writeOrRead (hp : i.port = .outbound) (hr : ∀ len st params sum, i ≠ .pktRgborder len st params sum) :
    WriteOrRead i.encode := by
  cases i
  case pktPower | pktAuto | pktPause | pktMode | pktDirection | pktSpeed | pktBrightness | pktLedcount | pktWrite =>
    exact .inl rfl
  case pktFwread | pktReadreq => exact .inr ⟨rfl, rfl⟩
  case pktRgborder => exact absurd rfl (hr _ _ _ _)
  all_goals cases hp

theorem transmit_disconnected (hf : s.fault = none) (hc : s.conn = .disconnected) : transmit p s = .next s := by
  simp only [transmit, State.unlessFaulted_of_none hf, hc]

theorem transmit_not_emitted (hf : s.fault = none) (he : ¬ emitted p = true) : transmit p s = .next s := by
  cases hc : s.conn with
  | disconnected => exact transmit_disconnected hf hc
  | connected h => simp only [transmit, State.unlessFaulted_of_none hf, hc, if_neg he]

theorem transmit_emitted (hf : s.fault = none) (hc : s.conn = .connected h) (he : emitted p = true) :
    transmit p s = .next (s.afterWrite p) := by
  simp only [transmit, State.unlessFaulted_of_none hf, hc, if_pos he, send_eq]

end Sys2Proof.Machine

open Sys2Proof Sys2Proof.Machine

/-- Settles O23: connected nothing is opened; else the draw answers `TxOpen`. -/
theorem connectOpensOnce : Obligations.ConnectOpensOnce := by
  intro s baud path
  refine ⟨?_, fun h hf hc => exec_connect_connected hf hc baud path, fun hf hc hd => ?_, fun hf hc hd => ?_⟩
  · rw [← bytesOfWord_eq]
    rfl
  · rw [exec_connect_refused hf hc hd]
    simp only [txOpen, hd]
    rfl
  · rw [exec_connect_opened hf hc hd]
    simp only [txOpen, hd]
    rfl

/-- Settles O27: the busy fault, the two operands and the connection are tested in this order, before any write. -/
theorem setcolorChecksBeforeSending : Obligations.SetcolorChecksBeforeSending := by
  refine fun s hex lum => ⟨rfl, fun hf hs => exec_setcolor_busy hf hs hex lum,
    fun hf hs hn => exec_setcolor_noColour hf hs (parseHex_eq_none hn),
    fun hf hs hoff hv => exec_setcolor_noLuminance hf hs (parseLuminance_eq_none hoff hv),
    fun r g b hf hs hc hn hl => ?_⟩
  obtain ⟨l, hl⟩ := parseLuminance_isSome hl
  exact exec_setcolor_disconnected hf hs hc (parseHex_eq_some.2 hn) hl

/-- Settles O32: a row transmits its encoding, which is sent exactly if the engine can emit it. -/
theorem outboundPacketsAreHandedOver : Obligations.OutboundPacketsAreHandedOver := by
  intro s i hp hf
  rw [exec_outbound hp]
  refine ⟨?_, fun h hc hw hk => transmit_emitted hf hc ((emitted_iff _).2 ⟨⟨hw, encode_outbound_length hp⟩, hk⟩),
    encode_writeOrRead hp⟩
  rintro (hc | hw | hk)
  · exact transmit_disconnected hf hc
  · exact transmit_not_emitted hf fun he => hw ((emitted_iff _).1 he).1.1
  · exact transmit_not_emitted hf fun he => hk ((emitted_iff _).1 he).2

/-- Settles O33: the row's meaning is the arrival of its encoding. -/
theorem responseBytesArrive : Obligations.ResponseBytesArrive := fun _ _ _ _ _ _ => rfl
end

section
/-! PROOF. What every step keeps: time but for the clock, `CONN` but for CONNECT, DISCONNECT and reset, and `TX_LOG` but
for one packet the engine may emit (10_state R35, R40; 30_encoding R101, R105; 43_dispatcher R249). -/

namespace Sys2Proof.Machine

variable {s t : State} {i : Instr} {p : Packet} {a : Agent}

/-! ### One event, one meaning (log entry 7) -/

theorem nextEvent_cons {e : Event} {rest : List Event} (hev : s.events = e :: rest) : s.nextEvent = some e := by
  rw [State.nextEvent, hev, List.head?_cons]

theorem step_instr {port : Port} {bytes : List Byte} {rest : List Event} (hev : s.events = .instr port bytes :: rest)
    (hd : decode port bytes = .ok i) : step s = exec i { s with events := rest } := by
  simp only [step_cons hev, handle, present, hd]

theorem step_reset {rest : List Event} (hev : s.events = .reset :: rest) :
    step s = .next (resetEngine { s with events := rest }) := step_cons hev

theorem step_turn_event {rest : List Event} (hev : s.events = .turn a :: rest) :
    step s = agentStep a { s with events := rest } := step_cons hev

/-! ### The clock and the collector's wake (70_reset R389, 41_collector R187) -/

theorem collectorDue_iff :
    collectorDue s = true ↔ s.colPhase = .poll ∨ (s.colPhase = .wait ∧ s.colWake ≤ s.now) := by
  unfold collectorDue
  cases s.colPhase <;> simp

/-- Where waits must be exact, a due step holds the clock (70_reset R389). -/
theorem tickEnabled_iff : tickEnabled s = true ↔ ¬ (s.cfg.exactWait = true ∧ (s.colPhase = .poll ∨
    (s.colPhase = .wait ∧ s.colWake ≤ s.now) ∨ (s.seqPhase ≠ .idle ∧ s.seqWake ≤ s.now))) := by
  rw [← or_assoc, ← collectorDue_iff, ← sequencerDue_iff]
  cases hc : collectorDue s <;> cases hs : sequencerDue s <;> cases hx : s.cfg.exactWait <;> simp [tickEnabled, *]

theorem agentStep_clock (h : tickEnabled s = true) : agentStep .clock s = .next { s with now := s.now + 1 } :=
  agentStep_enabled (a := .clock) h

theorem agentStep_clock_held (h : ¬ tickEnabled s = true) : agentStep .clock s = .next s :=
  agentStep_disabled (a := .clock) (Bool.eq_false_iff.2 h)

/-- The wake makes the poll due at `COL_WAKE`, and changes nothing before it (41_collector R187). -/
theorem agentStep_wake (hf : s.fault = none) (hp : s.colPhase = .wait) :
    agentStep .collector s = .next (if s.colWake ≤ s.now then { s with colPhase := .poll } else s) := by
  by_cases hw : s.colWake ≤ s.now
  · have hen : enabled .collector s = true := by simp [enabled, collectorDue_iff, hp, hw, hf]
    rw [agentStep_enabled hen, if_pos hw]
    simp only [collectorStep, hp, if_pos hw]
  · have hen : enabled .collector s = false := by
      simp only [enabled, collectorDue, hp, hw, decide_false, Bool.false_and]
    rw [agentStep_disabled hen, if_neg hw]

theorem agentStep_idle (hp : s.colPhase = .idle) : agentStep .collector s = .next s :=
  agentStep_disabled (by simp [enabled, collectorDue, hp])

/-! ### What an instruction and a step can be -/

/-- A faulted engine's instruction changes nothing or its bytes arrive; any other has its effect (60_exceptions R353). -/
theorem exec_cases (h : exec i s = .next t) : t = s ∨ (∃ bytes, t = arrive bytes s) ∨ Effect s i t := by
  cases hf : s.fault with
  | some f =>
    rcases exec_faulted i s f hf with e | ⟨bytes, e⟩ <;> cases h.symm.trans e
    · exact .inl rfl
    · exact .inr (.inl ⟨bytes, rfl⟩)
  | none =>
    obtain ⟨t', ht, e⟩ := exec_effect i s hf
    cases h.symm.trans ht
    exact .inr (.inr e)

/-- What makes a property of states hold along every run: each thing a step can be keeps it. -/
structure KeptByEveryPart (P : State → Prop) : Prop where
  records {s : State} (d : Nat) (q : Schedule) (evs : List Event) : P s → P { s.atTurn d q with events := evs }
  arrives {s : State} (bytes : List Byte) : P s → P (arrive bytes s)
  answered {s : State} (k : ResultKind) (op : Byte) : P s → P (s.withResult k op [])
  effect {s t : State} {i : Instr} : Effect s i t → P s → P t
  cancelled {s : State} : P s → P (cancel s)
  reset {s : State} : P s → P (resetEngine s)
  collector {s t : State} : P s → collectorStep s = .next t → P t
  sequencer {s : State} : P s → P (sequencerStep s)
  tick {s : State} : P s → tickEnabled s = true → P { s with now := s.now + 1 }

theorem KeptByEveryPart.agentStep {P : State → Prop} (k : KeptByEveryPart P) (hs : P s) (h : agentStep a s = .next t) :
    P t := by
  cases hen : enabled a s with
  | false => cases (agentStep_disabled hen).symm.trans h; exact hs
  | true =>
    rw [agentStep_enabled hen] at h
    cases a with
    | collector => exact k.collector hs h
    | sequencer => cases h; exact k.sequencer hs
    | clock => cases h; exact k.tick hs hen

/-- The induction step of every invariant, over all that a step can be. -/
theorem KeptByEveryPart.step {P : State → Prop} (k : KeptByEveryPart P) (hs : P s) (h : step s = .next t) : P t := by
  have hevs (rest : List Event) : P { s with events := rest } := k.records s.tx.draws s.sched rest hs
  rcases step_cases h with ⟨port, bytes, rest, i, -, -, hexec⟩ | ⟨port, bytes, rest, r, -, -, hrej⟩ | ⟨rest, -, rfl⟩ |
    ⟨bytes, rest, -, rfl⟩ | ⟨rest, -, rfl⟩ | ⟨n, rest, -, rfl⟩ | ⟨a, d, q, evs, hagent, -⟩
  · rcases exec_cases hexec with rfl | ⟨b, rfl⟩ | e
    · exact hevs rest
    · exact k.arrives b (hevs rest)
    · exact k.effect e (hevs rest)
  · rcases rejected_cases hrej with rfl | ⟨-, rfl⟩ | ⟨op, -, rfl⟩
    · exact k.arrives bytes (hevs rest)
    · exact hevs rest
    · exact k.answered .illegalRequest op (hevs rest)
  · exact k.cancelled (hevs rest)
  · exact k.arrives bytes (hevs rest)
  · exact k.reset (hevs rest)
  · exact hevs rest
  · exact k.agentStep (k.records d q evs hs) hagent

/-! ### Time and the connection (10_state R35, R40) -/

theorem rejected_frame {r : Reject} {port : Port} {bytes : List Byte} (h : rejected r port bytes s = .next t) :
    t.now = s.now ∧ t.conn = s.conn ∧ t.txLog = s.txLog := by
  rcases rejected_cases h with rfl | ⟨-, rfl⟩ | ⟨op, -, rfl⟩ <;> exact ⟨rfl, rfl, rfl⟩

/-- Time stands, or the clock has ticked, or the engine was reset. -/
theorem step_now (h : step s = .next t) (hr : s.nextEvent ≠ some .reset) :
    t.now = s.now ∨ t = { s with
      now := s.now + 1, events := t.events, sched := t.sched, tx := { s.tx with draws := t.tx.draws } } := by
  rcases step_cases h with ⟨port, bytes, rest, i, -, -, hexec⟩ | ⟨port, bytes, rest, r, -, -, hrej⟩ | ⟨rest, -, rfl⟩ |
    ⟨bytes, rest, -, rfl⟩ | ⟨rest, hev, -⟩ | ⟨n, rest, -, rfl⟩ | ⟨a, d, q, evs, hagent, -⟩
  · exact .inl (exec_frame hexec).2.1
  · exact .inl (rejected_frame (s := { s with events := rest }) hrej).1
  · exact .inl (cancel_frame { s with events := rest }).2.2.1
  · exact .inl rfl
  · exact absurd (nextEvent_cons hev) hr
  · exact .inl rfl
  · obtain ⟨-, -, -, -, hnow | rfl⟩ := agent_frame hagent
    · exact .inl hnow
    · exact .inr rfl

/-- `CONN` stands but for reset, CONNECT and DISCONNECT; the last two are requests, as the port they decode at tells. -/
theorem step_conn (h : step s = .next t) (hc : t.conn ≠ s.conn) :
    s.nextEvent = some .reset ∨
    ∃ bytes i, s.nextEvent = some (.instr .request bytes) ∧ decode .request bytes = .ok i ∧
      (i = .disconnect ∨ ∃ baud path, i = .connect baud path) := by
  rcases step_cases h with ⟨port, bytes, rest, i, hev, hd, hexec⟩ | ⟨port, bytes, rest, r, -, -, hrej⟩ |
    ⟨rest, -, rfl⟩ | ⟨bytes, rest, -, rfl⟩ | ⟨rest, hev, -⟩ | ⟨n, rest, -, rfl⟩ | ⟨a, d, q, evs, hagent, -⟩
  · obtain ⟨-, -, -, -, hconn⟩ := exec_frame hexec
    have hi := hconn.resolve_left hc
    obtain rfl : port = .request := by
      rw [← decode_port hd]
      rcases hi with rfl | ⟨baud, path, rfl⟩ <;> rfl
    exact .inr ⟨bytes, i, nextEvent_cons hev, hd, hi⟩
  · exact absurd (rejected_frame (s := { s with events := rest }) hrej).2.1 hc
  · exact absurd (cancel_frame { s with events := rest }).2.1 hc
  · exact absurd rfl hc
  · exact .inl (nextEvent_cons hev)
  · exact absurd rfl hc
  · exact absurd (agent_frame hagent).2.1 hc

/-! ### `TX_LOG` (43_dispatcher R249, 30_encoding R101, R105) -/

/-- A packet the engine may hand to the transport: well formed where the configuration is legal, and a write packet or a
read request. -/
def Sendable (c : Config) (p : Packet) : Prop := (c.ok = true → WellFormedPacket p) ∧ WriteOrRead p

/-- From `s` to `t` `TX_LOG` stands or has grown by one packet the engine may send. -/
def LogGrows (s t : State) : Prop :=
  t.txLog = s.txLog ∨ ∃ p ok, t.txLog = s.txLog ++ [(p, ok)] ∧ Sendable s.cfg p

theorem Framed.sendable (h : Framed s p) : Sendable s.cfg p := by
  obtain ⟨st, cmd, params, rfl, hfit, hkind⟩ := h
  refine ⟨fun hok => ?_, hkind⟩
  rw [frame_eq_specPacket]
  exact specPacket_wellFormed (hfit hok)

theorem sendable_of_emitted (c : Config) (h : emitted p = true) : Sendable c p := by
  obtain ⟨⟨hw, -⟩, hk⟩ := (emitted_iff p).1 h
  exact ⟨fun _ => hw, hk⟩

theorem LogGrows.of_write (hp : Sendable s.cfg p) (h : t.txLog = (s.afterWrite p).txLog) : LogGrows s t :=
  .inr ⟨p, s.writeDraw, h, hp⟩

theorem writeEnds_txLog (s : State) (op : Byte) (p : Packet) : (s.writeEnds op p).txLog = (s.afterWrite p).txLog := by
  unfold State.writeEnds
  split <;> rfl

theorem seqWait_txLog (ph : SeqPhase) (s : State) : (seqWait ph s).txLog = s.txLog := by
  unfold seqWait
  split <;> rfl

theorem Effect.logGrows (e : Effect s i t) : LogGrows s t := by
  cases e with
  | same | arrives | faults | result | noOpen | opens | collects => exact .inl rfl
  | writes op p c hp => exact .of_write hp.sendable (writeEnds_txLog s op p)
  | sends p c hp => exact .of_write (sendable_of_emitted s.cfg hp) rfl
  | closes c p hp | paceFails hex lum c p hp => exact .of_write hp.sendable rfl
  | reads c op p owner hp | readFails c op p hp => exact .of_write hp.sendable rfl
  | paces hex lum c p code v hp => exact .of_write hp.sendable (seqWait_txLog _ _)

theorem exec_logGrows (h : exec i s = .next t) : LogGrows s t := by
  rcases exec_cases h with rfl | ⟨b, rfl⟩ | e
  · exact .inl rfl
  · exact .inl rfl
  · exact e.logGrows

theorem agentStep_logGrows (h : agentStep a s = .next t) : LogGrows s t := by
  cases hen : enabled a s with
  | false => cases (agentStep_disabled hen).symm.trans h; exact .inl rfl
  | true =>
    rw [agentStep_enabled hen] at h
    cases a with
    | collector => exact .inl (collectorStep_frame h).2.2.2.1
    | clock => cases h; exact .inl rfl
    | sequencer =>
      cases h
      rcases sequencerStep_cases s with e | ⟨c, p, n, hp, -, -, -, -, e⟩ | ⟨c, p, hp, -, -, e⟩ | ⟨k, -, e⟩ <;> rw [e]
      · exact .inl rfl
      · exact .of_write hp.sendable (seqWait_txLog _ _)
      · exact .of_write hp.sendable rfl
      · exact .inl rfl

theorem step_logGrows (h : step s = .next t) (hr : s.nextEvent ≠ some .reset) : LogGrows s t := by
  rcases step_cases h with ⟨port, bytes, rest, i, -, -, hexec⟩ | ⟨port, bytes, rest, r, -, -, hrej⟩ | ⟨rest, -, rfl⟩ |
    ⟨bytes, rest, -, rfl⟩ | ⟨rest, hev, -⟩ | ⟨n, rest, -, rfl⟩ | ⟨a, d, q, evs, hagent, -⟩
  · exact exec_logGrows (s := { s with events := rest }) hexec
  · exact .inl (rejected_frame (s := { s with events := rest }) hrej).2.2
  · exact .inl (cancel_frame { s with events := rest }).2.2.2.1
  · exact .inl rfl
  · exact absurd (nextEvent_cons hev) hr
  · exact .inl rfl
  · exact agentStep_logGrows (s := { s.atTurn d q with events := evs }) hagent

/-- What holds of every packet the engine may send, and of every packet of `TX_LOG`, still does after a step. -/
theorem step_txLog_forall {Q : Packet → Prop} (hQ : ∀ p, Sendable s.cfg p → Q p) (hs : ∀ e ∈ s.txLog, Q e.1)
    (h : step s = .next t) : ∀ e ∈ t.txLog, Q e.1 := by
  by_cases hr : s.nextEvent = some .reset
  · obtain ⟨rest, hev⟩ : ∃ rest, s.events = .reset :: rest := List.head?_eq_some_iff.1 hr
    cases (step_reset hev).symm.trans h
    exact fun e he => absurd he List.not_mem_nil
  · rcases step_logGrows h hr with e | ⟨p, ok, e, hp⟩ <;> rw [e]
    · exact hs
    · exact List.forall_mem_append.2 ⟨hs, List.forall_mem_singleton.2 (hQ p hp)⟩

end Sys2Proof.Machine

open Sys2Proof Sys2Proof.Machine

/-- Settles O50: what is sent is framed by the engine or checked before it is handed over. -/
theorem everyStepKeepsLogFramed : Obligations.EveryStepKeepsLogFramed :=
  fun _ _ hs h => ⟨(step_cfg h).symm ▸ hs.cfg_ok, step_txLog_forall (fun _ hp => hp.1 hs.cfg_ok) hs.framed h⟩

/-- Settles O58: every packet the engine sends has one of the two statuses. -/
theorem everyStepSendsWritesOrReads : Obligations.EveryStepSendsWritesOrReads :=
  fun _ _ hs h => ⟨step_txLog_forall (fun _ hp => hp.2) hs.sent h⟩

/-- Settles O45: `TX_LOG` grows by one packet or stands. -/
theorem atMostOnePacketPerStep : Obligations.AtMostOnePacketPerStep :=
  fun _ _ h hr => (step_logGrows h hr).imp_right fun ⟨p, ok, e, _⟩ => ⟨p, ok, e⟩

/-- Settles O40: of all that a step can be, only the clock's moves time. -/
theorem timeAdvancesOnlyByTheClock : Obligations.TimeAdvancesOnlyByTheClock :=
  fun _ _ h hr hn => (step_now h hr).resolve_left hn

/-- Settles O42: of all instructions only CONNECT and DISCONNECT write it. -/
theorem onlyConnectDisconnectResetWriteConn : Obligations.OnlyConnectDisconnectResetWriteConn :=
  fun _ _ h hc => step_conn h hc

/-- Settles O7: presenting bytes that decode is running what they decode to. -/
theorem stepRunsTheDecodedInstruction : Obligations.StepRunsTheDecodedInstruction :=
  fun _ _ _ _ _ hev hd => step_instr hev hd

/-- Settles O17: a wake that is due makes the poll due; before it, and in IDLE, nothing is enabled. -/
theorem wakeMakesAPollDue : Obligations.WakeMakesAPollDue := by
  intro s rest hev hf
  rw [step_turn_event hev]
  exact ⟨fun hp => agentStep_wake (s := { s with events := rest }) hf hp,
    fun hp => agentStep_idle (s := { s with events := rest }) hp⟩

/-- Settles O38: the reset state, with the configuration and the model's records handed on. -/
theorem resetSetsEveryElement : Obligations.ResetSetsEveryElement :=
  fun _ _ hev => step_reset hev

/-- Settles O39: the clock's turn ticks exactly when the tick is enabled. -/
theorem tickWaitsForDueSteps : Obligations.TickWaitsForDueSteps := by
  intro s rest hev
  rw [step_turn_event hev]
  exact ⟨fun hdue => agentStep_clock_held (s := { s with events := rest }) fun h => tickEnabled_iff.1 h hdue,
    fun hdue => agentStep_clock (s := { s with events := rest }) (tickEnabled_iff.2 hdue)⟩
end

section
/-! PROOF. How a request ends: with one result, with a fault, or going on as a collection or a setColor; and a
precondition violation is its result alone (60_exceptions R340, R341). -/

namespace Sys2Proof.Machine

variable {s t : State} {i : Instr} {x y : Result}

/-! ### The results a state adds to another's -/

theorem not_mem_new_results (h : t.results = s.results) : x ∉ t.results.drop s.results.length := by
  rw [h, List.drop_length]
  exact List.not_mem_nil

theorem new_result_eq (h : t.results = s.results ++ [y]) (hx : x ∈ t.results.drop s.results.length) : x = y := by
  rw [h, List.drop_left] at hx
  exact List.mem_singleton.1 hx

/-- The result of a write as an operation's last act (43_dispatcher R249 to R251). -/
theorem writeEnds_results (s : State) (op : Byte) (p : Packet) :
    ∃ k payload, (s.writeEnds op p).results = s.results ++ [⟨k, op, payload, s.now⟩] ∧ k ≠ .preconditionViolation := by
  unfold State.writeEnds
  split
  · exact ⟨_, _, rfl, nofun⟩
  · exact ⟨_, _, rfl, nofun⟩

/-! ### A precondition violation (60_exceptions R341) -/

/-- No other way an instruction ends delivers a precondition violation. -/
theorem Effect.preconditionViolation (e : Effect s i t) (hx : x ∈ t.results.drop s.results.length)
    (hk : x.kind = .preconditionViolation) : t = s.withResult .preconditionViolation x.op [] := by
  cases e with
  | same | arrives | faults | sends | collects | reads => exact absurd hx (not_mem_new_results rfl)
  | result k op payload h hpay =>
    obtain rfl := new_result_eq rfl hx
    obtain rfl : k = .preconditionViolation := hk
    rw [hpay.1 rfl]
  | writes op p =>
    obtain ⟨k, payload, hr, hne⟩ := writeEnds_results s op p
    obtain rfl := new_result_eq hr hx
    exact absurd hk hne
  | noOpen | opens | closes | readFails | paceFails =>
    obtain rfl := new_result_eq rfl hx
    cases hk
  | paces hex lum c p code v =>
    unfold seqWait at hx
    split at hx
    · obtain rfl := new_result_eq rfl hx
      cases hk
    · exact absurd hx (not_mem_new_results rfl)

theorem exec_preconditionViolation (h : exec i s = .next t) (hx : x ∈ t.results.drop s.results.length)
    (hk : x.kind = .preconditionViolation) : t = s.withResult .preconditionViolation x.op [] := by
  rcases exec_cases h with rfl | ⟨b, rfl⟩ | e
  · exact absurd hx (not_mem_new_results rfl)
  · exact absurd hx (not_mem_new_results rfl)
  · exact e.preconditionViolation hx hk

/-! ### Every request's end (60_exceptions R340) -/

/-- How a request may leave the engine: answered once, faulted, or going on as a collection or a paced setColor. -/
def Ends (s : State) (i : Instr) (t : State) : Prop :=
  (∃ x, t.results = s.results ++ [x] ∧ x.time = s.now ∧ some x.op = i.encode.head?) ∨
    (t.results = s.results ∧ t.fault ≠ none) ∨
    (t.results = s.results ∧ s.rdBusy = false ∧ t.rdBusy = true ∧ t.colPhase = .poll) ∨
    (t.results = s.results ∧ s.seqPhase = .idle ∧ t.seqPhase = .waitOn)

theorem Ends.of_result {k : ResultKind} {op : Byte} {payload : List Byte}
    (hr : t.results = s.results ++ [⟨k, op, payload, s.now⟩]) (hop : i.encode.head? = some op) : Ends s i t :=
  .inl ⟨_, hr, rfl, hop.symm⟩

theorem Effect.ends (e : Effect s i t) (hp : i.port = .request) : Ends s i t := by
  cases e with
  | same h | arrives _ h | sends _ _ _ _ h => exact absurd hp h
  | faults f => exact .inr (.inl ⟨rfl, nofun⟩)
  | result k op payload h => exact .of_result rfl h
  | writes op p c hf hc h =>
    obtain ⟨k, payload, hr, -⟩ := writeEnds_results s op p
    exact .of_result hr h
  | readFails c op p hf hc hb h => exact .of_result rfl h
  | noOpen | opens | closes | paceFails => exact .of_result rfl rfl
  | collects c hc hb => exact .inr (.inr (.inl ⟨rfl, hb, rfl, rfl⟩))
  | reads c op p owner hf hc hb => exact .inr (.inr (.inl ⟨rfl, hb, rfl, rfl⟩))
  | paces hex lum c p code v hf hc hs =>
    unfold seqWait
    split
    · exact .of_result rfl rfl
    · exact .inr (.inr (.inr ⟨rfl, hs, rfl⟩))

end Sys2Proof.Machine

open Sys2Proof Sys2Proof.Machine

/-- Settles O43: only a bare result has that kind, and then no payload. -/
theorem preconditionViolationSendsNothing : Obligations.PreconditionViolationSendsNothing :=
  fun _ _ _ _ h hx _ hk => exec_preconditionViolation h hx hk

/-- Settles O46: by what the request's meaning does to an unfaulted engine. -/
theorem everyRequestIsAnsweredOnce : Obligations.EveryRequestIsAnsweredOnce := by
  intro i s hp hf
  obtain ⟨t, ht, e⟩ := exec_effect i s hf
  exact ⟨t, ht, e.ends hp⟩
end

section
/-! PROOF. The engine's invariant: the reset state meets it and every step keeps it, so that no poll reads an unwritten
byte and an unfaulted engine always has a step (10_state R36 to R39, 41_collector R182 to R190, 70_reset R389). -/

namespace Sys2Proof.Machine

variable {s t : State} {i : Instr}

/-! ### The buffer (10_state R38, R39) -/

/-- Exactly the first `n` bytes of the buffer are written. -/
def Filled (buf : Vector (Option Byte) 7) (n : Nat) : Prop := n ≤ 7 ∧ ∀ i : Fin 7, buf[i].isSome = true ↔ i.val < n

theorem EngineInv.filled (h : EngineInv s) : Filled s.colBuf s.colCount := ⟨h.count_le, h.written_iff⟩

theorem unwrittenBuf_filled : Filled unwrittenBuf 0 := ⟨Nat.zero_le 7, by decide⟩

theorem storeBytes_filled {buf : Vector (Option Byte) 7} {n : Nat} {bs : List Byte} (h : Filled buf n)
    (hl : n + bs.length ≤ 7) : Filled (storeBytes buf n bs) (n + bs.length) := by
  refine ⟨hl, fun i => ?_⟩
  rw [storeBytes_get]
  split
  case isTrue hi =>
    have hlt : i.val - n < bs.length := by omega
    simp [List.getElem?_eq_getElem hlt, hi.2]
  case isFalse hi =>
    rw [h.2 i]
    omega

/-! ### What touches no element of the invariant, or ends or starts what is in flight -/

theorem EngineInv.atTurn (h : EngineInv s) (d : Nat) (q : Schedule) (evs : List Event) :
    EngineInv { s.atTurn d q with events := evs } := { h with }

theorem EngineInv.atEvents (h : EngineInv s) (evs : List Event) : EngineInv { s with events := evs } := { h with }

theorem EngineInv.withResult (h : EngineInv s) (k : ResultKind) (op : Byte) (payload : List Byte) :
    EngineInv (s.withResult k op payload) := { h with }

theorem EngineInv.afterWrite (h : EngineInv s) (p : Packet) : EngineInv (s.afterWrite p) := { h with }

theorem EngineInv.writeEnds (h : EngineInv s) (op : Byte) (p : Packet) : EngineInv (s.writeEnds op p) := by
  unfold State.writeEnds
  split <;> exact (h.afterWrite p).withResult ..

/-- A released lock leaves no collection in flight (41_collector R188). -/
theorem EngineInv.released (h : EngineInv s) {buf : Vector (Option Byte) 7} {n : Nat} {pend : Bool} (hb : Filled buf n)
    (hpend : pend = true → s.seqPhase = .idle) :
    EngineInv { s.released with colBuf := buf, colCount := n, cancelPend := pend } :=
  { h with
    count_le := hb.1
    written_iff := hb.2
    busy_iff := by simp
    owner_iff := by simp
    incomplete := by simp
    connected := by simpa using fun hs => h.connected (.inr hs)
    cancel_free := fun hp => ⟨by simp, hpend hp⟩ }

theorem EngineInv.sequenceEnds (h : EngineInv s) : EngineInv { s with seqPhase := .idle } :=
  { h with
    connected := fun hb => h.connected (.inl (hb.resolve_right (by simp)))
    cancel_free := fun hp => ⟨(h.cancel_free hp).1, rfl⟩ }

/-- A pacing wait is entered with a connection and without a pending cancellation (44_controller R297). -/
theorem EngineInv.seqWait (h : EngineInv s) (hc : s.conn ≠ .disconnected) (ph : SeqPhase) :
    EngineInv (seqWait ph s) := by
  cases hp : s.cancelPend with
  | true =>
    rw [seqWait_of_pending hp]
    exact { h.sequenceEnds with cancel_free := nofun }
  | false =>
    rw [seqWait_of_clear hp]
    exact { h with connected := fun _ => hc, cancel_free := by simp [hp] }

/-- A collection starts with its lock, its owner, its connection and an empty buffer (41_collector R180). -/
theorem EngineInv.collectStart (h : EngineInv s) {owner : Owner} (ho : owner ≠ .none) (hc : s.conn ≠ .disconnected) :
    EngineInv (collectStart owner { s with rdBusy := true }) :=
  { h with
    count_le := Nat.zero_le 7
    written_iff := unwrittenBuf_filled.2
    busy_iff := by simp
    owner_iff := by simp [ho]
    incomplete := by simp
    connected := fun _ => hc
    cancel_free := fun hp => ⟨by simp, (h.cancel_free hp).2⟩ }

/-- Between its polls and waits a collection keeps its buffer filled in order (41_collector R183, R186, R187). -/
theorem EngineInv.collecting (h : EngineInv s) (hp : s.colPhase ≠ .idle) {ph : ColPhase} {buf : Vector (Option Byte) 7}
    {n wake : Nat} (hph : ph ≠ .idle) (hpend : s.cancelPend = true → ph ≠ .wait) (hb : Filled buf n) (hn : n < 7) :
    EngineInv { s with colPhase := ph, colBuf := buf, colCount := n, colWake := wake } :=
  { h with
    count_le := hb.1
    written_iff := hb.2
    busy_iff := by simp [hph, h.busy_iff, hp]
    incomplete := fun _ => hn
    cancel_free := fun hc => ⟨hpend hc, (h.cancel_free hc).2⟩ }

theorem EngineInv.owner_ne_none (h : EngineInv s) (hp : s.colPhase ≠ .idle) : s.colOwner ≠ .none :=
  h.owner_iff.1 (h.busy_iff.2 hp)

/-! ### The cancel input (60_exceptions R356) -/

theorem EngineInv.cancel (h : EngineInv s) : EngineInv (cancel s) := by
  cases hf : s.fault with
  | some f => rwa [cancel_of_faulted hf]
  | none =>
    by_cases hc : s.colPhase = .wait
    · have ho := h.owner_ne_none (by simp [hc])
      have hpend : s.cancelPend = true → s.seqPhase = .idle := fun hp => (h.cancel_free hp).2
      by_cases hs : s.seqPhase = .idle
      · rw [cancel_collection hf hc ho hs]
        exact (h.withResult ..).released h.filled hpend
      · rw [cancel_collection_and_sequence hf hc ho hs]
        exact ((h.sequenceEnds.withResult ..).withResult ..).released h.filled fun _ => rfl
    · by_cases hs : s.seqPhase = .idle
      · rw [cancel_held hf hc hs]
        exact { h with cancel_free := fun _ => ⟨hc, hs⟩ }
      · rw [cancel_sequence hf hc hs]
        exact h.sequenceEnds.withResult ..

/-! ### Instructions -/

theorem Effect.engineInv (e : Effect s i t) (h : EngineInv s) : EngineInv t := by
  have connected {c : Handle} (hc : s.conn = .connected c) : s.conn ≠ .disconnected := by simp [hc]
  cases e with
  | same => exact h
  | arrives | faults => exact { h with }
  | result => exact h.withResult ..
  | writes op p => exact h.writeEnds op p
  | sends p => exact h.afterWrite p
  | noOpen => exact { h with }
  | opens => exact { h with connected := nofun }
  | closes c p hp hc hb hs =>
    exact { h with connected := fun hin => absurd hin (by simp [txRelease, hb, hs]) }
  | collects c hc => exact h.collectStart (by simp) (connected hc)
  | reads c op p owner hp hc hb ho => exact (h.afterWrite p).collectStart ho (connected hc)
  | readFails c op p hp hc hb =>
    have h' : EngineInv { s with rdBusy := false } := by rw [← hb]; exact h
    exact (h'.afterWrite p).withResult ..
  | paceFails hex lum c p => exact (h.afterWrite p).withResult ..
  | paces hex lum c p code v hp hc hs hv =>
    obtain ⟨hpal, -⟩ := Config.ok_parts h.cfg_ok
    obtain ⟨-, -, -, -, -, hcode⟩ := Palette.ok_parts hpal
    have hlum : (BitVec.ofNat 7 v).toNat ≤ 100 := by rw [BitVec.toNat_ofNat]; omega
    have h' : EngineInv { s.afterWrite p with seqCode := s.cfg.palette[code].code, seqLum := BitVec.ofNat 7 v } :=
      { h.afterWrite p with lum_le := hlum, code_le := hcode code }
    exact h'.seqWait (connected hc) .waitOn

/-! ### The collector (41_collector R182 to R190) -/

/-- The state after a poll that ended its collection: one result for its owner, and the lock released. -/
def PollEnds (s t : State) : Prop :=
  ∃ k payload buf n pend, Filled buf n ∧ (pend = true → s.cancelPend = true) ∧
    t = { (s.afterRead.withResult k s.colOwner.op payload).released with
      colBuf := buf, colCount := n, cancelPend := pend }

/-- The state after a poll that left the buffer short before the deadline, with no cancellation pending. -/
def PollWaits (s t : State) : Prop :=
  s.colCount + s.nextChunk.length < 7 ∧ s.now < s.colDeadline ∧ s.cancelPend = false ∧
    t = { shortRead s with colWake := s.now + s.cfg.pollMs, colPhase := .wait }

theorem collected_eq (ho : s.colOwner ≠ .none) (b : List Byte) :
    ∃ k payload, s.collected b = s.withResult k s.colOwner.op payload := by
  unfold State.collected
  cases h : s.colOwner with
  | none => exact absurd h ho
  | collect | rdcmd | getfw => exact ⟨_, _, rfl⟩

theorem collectPoll_complete (h : EngineInv s) (ho : s.colOwner ≠ .none) (h7 : 7 ≤ s.colCount + s.nextChunk.length) :
    ∃ t, collectPoll s = .next t ∧ PollEnds s t := by
  obtain ⟨b, hb, hlen, -⟩ := poll_buffer h.written_iff h.count_le h7
  obtain ⟨k, payload, hcol⟩ := collected_eq (s := s.afterRead) ho b
  have hcount := h.count_le
  have htake : s.colCount + (s.nextChunk.take (7 - s.colCount)).length = 7 := by rw [List.length_take]; omega
  have hfill := storeBytes_filled h.filled htake.le
  rw [htake] at hfill
  refine ⟨_, poll_complete h.count_le h7 ho hb hlen, k, payload, _, 7, s.cancelPend, hfill, id, ?_⟩
  rw [hcol]
  rfl

theorem collectPoll_short (h : EngineInv s) (ho : s.colOwner ≠ .none) (hs : s.colCount + s.nextChunk.length < 7) :
    ∃ t, collectPoll s = .next t ∧ (PollWaits s t ∨ PollEnds s t) := by
  have hfill := storeBytes_filled h.filled hs.le
  refine ⟨_, poll_short hs, ?_⟩
  split
  case isTrue hd =>
    cases hp : s.cancelPend with
    | false => exact .inl ⟨hs, hd, hp, collectorWait_of_clear (s := shortRead s) hp⟩
    | true =>
      refine .inr ⟨.interrupted, [], _, _, false, hfill, nofun, ?_⟩
      exact collectorWait_of_pending (s := shortRead s) hp ho
  case isFalse =>
    refine .inr ⟨.timeout, [], _, _, s.cancelPend, hfill, id, ?_⟩
    exact collectFinish_timeout (s := shortRead s) ho

/-- Everything a poll can do within the invariant: it waits on, or it ends its collection. -/
theorem collectPoll_cases (h : EngineInv s) (hp : s.colPhase = .poll) :
    ∃ t, collectPoll s = .next t ∧ (PollWaits s t ∨ PollEnds s t) := by
  have ho := h.owner_ne_none (by simp [hp])
  by_cases h7 : 7 ≤ s.colCount + s.nextChunk.length
  · obtain ⟨t, ht, he⟩ := collectPoll_complete h ho h7
    exact ⟨t, ht, .inr he⟩
  · exact collectPoll_short h ho (by omega)

theorem PollEnds.engineInv (h : EngineInv s) (e : PollEnds s t) : EngineInv t := by
  obtain ⟨k, payload, buf, n, pend, hfill, hpend, rfl⟩ := e
  have h' : EngineInv (s.afterRead.withResult k s.colOwner.op payload) := { h with }
  exact h'.released hfill fun hp => (h.cancel_free (hpend hp)).2

theorem PollWaits.engineInv (h : EngineInv s) (hp : s.colPhase = .poll) (e : PollWaits s t) : EngineInv t := by
  obtain ⟨hs, -, hpend, rfl⟩ := e
  have h' : EngineInv s.afterRead := { h with }
  exact h'.collecting (by simp [hp]) (by simp) (by simp [hpend]) (storeBytes_filled h.filled hs.le) hs

/-- Within the invariant a poll answers a next state, which meets it too. -/
theorem collectPoll_engineInv (h : EngineInv s) (hp : s.colPhase = .poll) :
    ∃ t, collectPoll s = .next t ∧ EngineInv t := by
  obtain ⟨t, ht, e⟩ := collectPoll_cases h hp
  exact ⟨t, ht, e.elim (fun e => e.engineInv h hp) (fun e => e.engineInv h)⟩

theorem collectorStep_engineInv (h : EngineInv s) : ∃ t, collectorStep s = .next t ∧ EngineInv t := by
  unfold collectorStep
  split
  case h_1 => exact ⟨s, rfl, h⟩
  case h_2 hp => exact collectPoll_engineInv h hp
  case h_3 hp =>
    split
    · exact ⟨_, rfl, h.collecting (by simp [hp]) (by simp) (by simp) h.filled (h.incomplete (by simp [hp]))⟩
    · exact ⟨s, rfl, h⟩

/-! ### The agents and the step -/

theorem sequencerStep_engineInv (h : EngineInv s) : EngineInv (sequencerStep s) := by
  rcases sequencerStep_cases s with e | ⟨c, p, n, -, hc, -, -, -, e⟩ | ⟨c, p, -, -, -, e⟩ | ⟨k, -, e⟩ <;> rw [e]
  · exact h
  · exact (h.afterWrite p).seqWait (by simp [hc]) n
  · exact (h.afterWrite p).sequenceEnds.withResult ..
  · exact h.sequenceEnds.withResult ..

/-- Within the invariant every agent's turn answers a next state, which meets it too. -/
theorem agentStep_engineInv (h : EngineInv s) (a : Agent) : ∃ t, agentStep a s = .next t ∧ EngineInv t := by
  cases hen : enabled a s with
  | false => exact ⟨s, agentStep_disabled hen, h⟩
  | true =>
    rw [agentStep_enabled hen]
    cases a with
    | collector => exact collectorStep_engineInv h
    | sequencer => exact ⟨_, rfl, sequencerStep_engineInv h⟩
    | clock => exact ⟨_, rfl, { h with }⟩

theorem resetEngine_engineInv (hok : s.cfg.ok = true) : EngineInv (resetEngine s) where
  cfg_ok := hok
  count_le := Nat.zero_le 7
  written_iff := unwrittenBuf_filled.2
  busy_iff := ⟨nofun, fun h => absurd rfl h⟩
  owner_iff := ⟨nofun, fun h => absurd rfl h⟩
  incomplete := fun h => absurd rfl h
  connected := fun h => h.elim nofun fun h => absurd rfl h
  lum_le := Nat.zero_le 100
  code_le := Nat.zero_le 219
  cancel_free := nofun

theorem engineInv_kept : KeptByEveryPart EngineInv where
  records d q evs h := h.atTurn d q evs
  arrives _ h := { h with }
  answered k op h := h.withResult k op []
  effect e h := e.engineInv h
  cancelled h := h.cancel
  reset h := resetEngine_engineInv h.cfg_ok
  collector h he := by
    obtain ⟨t', ht, h'⟩ := collectorStep_engineInv h
    cases he.symm.trans ht
    exact h'
  sequencer h := sequencerStep_engineInv h
  tick h _ := { h with }

/-! ### No unwritten byte, no stuck engine (10_state R39, 70_reset R389) -/

theorem oneOf_next (h : EngineInv s) {agents : List Agent} (hne : agents ≠ []) : ∃ t, oneOf agents s = .next t := by
  obtain ⟨a, -, d, q, -, -, e⟩ := oneOf_eq hne s
  obtain ⟨t, ht, -⟩ := agentStep_engineInv (h.atTurn d q s.events) a
  exact ⟨t, e.trans ht⟩

theorem rejected_ne_fault (r : Reject) (p : Port) (bytes : List Byte) (s : State) (f : Fault) :
    rejected r p bytes s ≠ .fault f := by
  unfold rejected
  split
  · nofun
  · split
    · nofun
    all_goals split <;> nofun

/-- Within the invariant an event never ends in a fault of the machine. -/
theorem handle_ne_fault (h : EngineInv s) (e : Event) (f : Fault) : handle e s ≠ .fault f := by
  have next_ne {x : Answer} (hx : ∃ t, x = .next t) : x ≠ .fault f := by
    obtain ⟨t, rfl⟩ := hx
    nofun
  cases e with
  | instr p bytes =>
    simp only [handle, present]
    split
    · exact next_ne (exec_next _ _)
    · exact rejected_ne_fault _ _ _ _ f
  | cancel | device | reset => nofun
  | turn a =>
    obtain ⟨t, ht, -⟩ := agentStep_engineInv h a
    exact next_ne ⟨t, ht⟩
  | tickTo n =>
    simp only [handle]
    split
    · nofun
    · rename_i hne
      exact next_ne (oneOf_next (h.atEvents _) hne)

/-- Where nothing is due the tick is enabled; where something is, and no fault is set, its agent is (70_reset R389). -/
theorem movableAgents_ne_nil (hf : s.fault = none) : movableAgents s ≠ [] := by
  cases hc : collectorDue s with
  | true => exact List.ne_nil_of_mem (mem_movableAgents (a := .collector).2 (by simp [enabled, hc, hf]))
  | false =>
    cases hs : sequencerDue s with
    | true => exact List.ne_nil_of_mem (mem_movableAgents (a := .sequencer).2 (by simp [enabled, hs, hf]))
    | false => exact List.ne_nil_of_mem (mem_movableAgents (a := .clock).2 (by simp [enabled, tickEnabled, hc, hs]))

/-- With no event left and someone able to move, a step is the move of one of those (60_exceptions R348). -/
theorem step_agents (hev : s.events = []) (hne : movableAgents s ≠ []) : step s = oneOf (movableAgents s) s := by
  rw [step_nil hev]
  split
  · exact absurd ‹_› hne
  · rfl

theorem step_next (h : EngineInv s) (hf : s.fault = none) (hev : s.events = []) : ∃ t, step s = .next t := by
  rw [step_agents hev (movableAgents_ne_nil hf)]
  exact oneOf_next h (movableAgents_ne_nil hf)

theorem step_ne_unwrittenByte (h : EngineInv s) : step s ≠ .fault .unwrittenByte := by
  cases hev : s.events with
  | cons e rest =>
    rw [step_cons hev]
    exact handle_ne_fault (h.atEvents rest) e _
  | nil =>
    by_cases hne : movableAgents s = []
    · rw [step_nil hev, hne]
      nofun
    · obtain ⟨t, ht⟩ := oneOf_next h hne
      rw [step_agents hev hne, ht]
      nofun

/-! ### What a poll consumes (20_memory R77, 60_exceptions R363) -/

theorem nextChunk_eq (s : State) : s.nextChunk = s.tx.inbound.take (min s.readDraw s.cfg.maxChunk) := rfl

theorem nextChunk_length (s : State) :
    s.nextChunk.length = min (min s.readDraw s.cfg.maxChunk) s.tx.inbound.length := by
  rw [nextChunk_eq, List.length_take]

/-- The chunk, then what is left of the stream after it, is the stream. -/
theorem nextChunk_append (s : State) : s.nextChunk ++ s.afterRead.tx.inbound = s.tx.inbound := by
  obtain ⟨more, hmore⟩ : s.nextChunk <+: s.tx.inbound := List.take_prefix ..
  calc s.nextChunk ++ s.tx.inbound.drop s.nextChunk.length
      = s.nextChunk ++ (s.nextChunk ++ more).drop s.nextChunk.length := by rw [hmore]
    _ = s.tx.inbound := by rw [List.drop_left, hmore]

/-- A poll leaves the transport as one `TxRead` does. -/
theorem step_poll_tx (h : EngineInv s) {rest : List Event} (hev : s.events = .turn .collector :: rest)
    (hf : s.fault = none) (hp : s.colPhase = .poll) : ∃ t, step s = .next t ∧ t.tx = s.afterRead.tx := by
  obtain ⟨t, ht, -⟩ := collectPoll_engineInv (h.atTurn s.tx.draws s.sched rest) hp
  exact ⟨t, (step_turn_collector hev hf hp).trans ht, (collectPoll_leaves ht).1⟩

/-! ### The reset state (10_state R51) -/

theorem testPalette_ok : testPalette.ok = true := by decide +kernel

/-- The hardware's configuration is legal, whatever its free values are (70_reset R383). -/
theorem hardware_ok : Config.hardware.ok = true := by
  have hpal : Config.hardware.palette.ok = true := by
    simp only [Config.hardware]
    split
    · assumption
    · exact testPalette_ok
  rw [Config.ok, hpal]
  simp [Config.hardware]

end Sys2Proof.Machine

open Sys2Proof Sys2Proof.Machine

/-- Settles O49: the event's meaning, or the agent's turn, keeps the invariant. -/
theorem everyStepKeepsEngineInv : Obligations.EveryStepKeepsEngineInv :=
  fun _ _ h hst => engineInv_kept.step h hst

/-- Settles O47: some agent can move, and every agent's move answers a next state. -/
theorem unfaultedEngineIsNeverStuck : Obligations.UnfaultedEngineIsNeverStuck :=
  fun _ h hf hev => step_next h hf hev

/-- Settles O48: a buffer that is full is written. -/
theorem noUnwrittenByteIsRead : Obligations.NoUnwrittenByteIsRead :=
  fun _ h => step_ne_unwrittenByte h

/-- Settles O55: the chunk is the stream's first bytes, as many as draw, `MAX_CHUNK` and stream allow, and a poll is one
`TxRead`. -/
theorem txReadTakesTheNextBytes : Obligations.TxReadTakesTheNextBytes := by
  intro s
  have hlen := nextChunk_length s
  refine ⟨List.take_prefix .., by omega, fun k more hk => ?_, fun rest h hev hf hp => ?_⟩
  · rw [hlen, State.readDraw, hk]
  · obtain ⟨t, ht, htx⟩ := step_poll_tx h hev hf hp
    refine ⟨t, ht, ?_, by rw [htx]; rfl⟩
    rw [htx]
    exact (nextChunk_append s).symm
end

section
/-! PROOF. Polls, wakes and pacing waits stay on their schedule (41_collector R192, 70_reset R389). -/

namespace Sys2Proof.Machine

variable {s t : State} {i : Instr}

/-- A step that leaves the configuration and time keeps the schedule if it leaves each wait as it was, or ends it. -/
theorem TimeInv.of_unchanged (h : TimeInv s) (hcfg : t.cfg = s.cfg) (hnow : t.now = s.now)
    (hcol : (t.colPhase = s.colPhase ∨ t.colPhase = .idle) ∧ t.colWake = s.colWake ∧ t.colDeadline = s.colDeadline)
    (hseq : (t.seqPhase = s.seqPhase ∨ t.seqPhase = .idle) ∧ t.seqWake = s.seqWake) : TimeInv t := by
  obtain ⟨hcp, hcw, hcd⟩ := hcol
  obtain ⟨hsp, hsw⟩ := hseq
  have hpoll : t.colPhase = .poll → s.colPhase = .poll := fun hp => (hcp.resolve_right (by simp [hp])) ▸ hp
  have hwait : t.colPhase = .wait → s.colPhase = .wait := fun hp => (hcp.resolve_right (by simp [hp])) ▸ hp
  have hpace : t.seqPhase ≠ .idle → s.seqPhase ≠ .idle := fun hp => (hsp.resolve_right hp) ▸ hp
  constructor <;> simp only [hcfg, hnow, hcw, hcd, hsw]
  · exact h.exact_wait
  · exact h.timeout_ms
  · exact h.poll_ms
  · exact h.pace_ms
  · exact fun hp => h.poll_time (hpoll hp)
  · exact fun hp => h.wait_time (hwait hp)
  · exact fun hp => h.seq_time (hpace hp)

theorem TimeInv.withResult (h : TimeInv s) (k : ResultKind) (op : Byte) (payload : List Byte) :
    TimeInv (s.withResult k op payload) := { h with }

theorem TimeInv.afterWrite (h : TimeInv s) (p : Packet) : TimeInv (s.afterWrite p) := { h with }

theorem TimeInv.writeEnds (h : TimeInv s) (op : Byte) (p : Packet) : TimeInv (s.writeEnds op p) := by
  unfold State.writeEnds
  split <;> exact (h.afterWrite p).withResult ..

theorem TimeInv.sequenceEnds (h : TimeInv s) : TimeInv { s with seqPhase := .idle } :=
  { h with seq_time := fun hp => absurd rfl hp }

/-- The first poll is due at once, 500 ms before the deadline (41_collector R180). -/
theorem TimeInv.collectStart (h : TimeInv s) (owner : Owner) : TimeInv (collectStart owner { s with rdBusy := true }) :=
  { h with
    poll_time := fun _ => by
      simp only [collectStart_now, collectStart_colDeadline, h.timeout_ms]
      omega
    wait_time := nofun }

/-- A pacing wait lasts 100 ms (44_controller R297). -/
theorem TimeInv.seqWait (h : TimeInv s) (ph : SeqPhase) : TimeInv (seqWait ph s) := by
  cases hp : s.cancelPend with
  | true => rw [seqWait_of_pending hp]; exact { h.sequenceEnds with }
  | false =>
    rw [seqWait_of_clear hp]
    exact { h with seq_time := fun _ => by simp only [h.pace_ms]; omega }

theorem TimeInv.cancel (h : TimeInv s) : TimeInv (cancel s) := by
  obtain ⟨hcfg, -, hnow, -, -, -, -, hsw, hcw, hcd, hcp, hsp⟩ := cancel_frame s
  exact h.of_unchanged hcfg hnow ⟨hcp, hcw, hcd⟩ ⟨hsp, hsw⟩

/-! ### Instructions -/

theorem Effect.timeInv (e : Effect s i t) (h : TimeInv s) : TimeInv t := by
  cases e with
  | same => exact h
  | arrives | faults | noOpen | opens | closes => exact { h with }
  | result => exact h.withResult ..
  | writes op p => exact h.writeEnds op p
  | sends p => exact h.afterWrite p
  | collects => exact h.collectStart .collect
  | reads c op p owner => exact (h.afterWrite p).collectStart owner
  | readFails c op p => exact { h.afterWrite p with }
  | paceFails hex lum c p => exact (h.afterWrite p).withResult ..
  | paces hex lum c p code v =>
    have h' : TimeInv { s.afterWrite p with seqCode := s.cfg.palette[code].code, seqLum := BitVec.ofNat 7 v } :=
      { h.afterWrite p with }
    exact h'.seqWait .waitOn

/-! ### Agents -/

/-- A poll leaves the deadline, and waits only before it (41_collector R185, R186). -/
theorem collectPoll_deadline (h : collectPoll s = .next t) :
    t.colDeadline = s.colDeadline ∧ (t.colPhase = .wait → s.now < s.colDeadline) := by
  have finished (r : CollectEnd) (u : State) (hu : u.colDeadline = s.colDeadline) (hp : u.colPhase = .idle) :
      (collectFinish r u).colDeadline = s.colDeadline ∧
        ((collectFinish r u).colPhase = .wait → s.now < s.colDeadline) := by
    obtain ⟨res, rd, ow, e, -⟩ := collectFinish_fields r u
    rw [e]
    exact ⟨hu, fun hw => by simp [hp] at hw⟩
  simp only [collectPoll] at h
  split at h
  case isTrue =>
    split at h <;> cases h
    exact finished _ _ rfl rfl
  case isFalse =>
    split at h <;> cases h
    case isTrue hd =>
      unfold collectorWait
      split
      · exact finished _ _ rfl rfl
      · exact ⟨rfl, fun _ => hd⟩
    case isFalse => exact finished _ _ rfl rfl

/-- A poll that waits sets its wake 20 ms ahead, not past the deadline, which is a multiple of 20 ms away. -/
theorem collectPoll_timeInv (h : TimeInv s) (hp : s.colPhase = .poll) (he : collectPoll s = .next t) : TimeInv t := by
  have hstep : collectorStep s = .next t := by simpa only [collectorStep, hp] using he
  obtain ⟨hcfg, -, hnow, -, -, hsp, hsw, -⟩ := collectorStep_frame hstep
  obtain ⟨-, hpoll, hwake, -⟩ := collectPoll_leaves he
  obtain ⟨hdl, hbefore⟩ := collectPoll_deadline he
  obtain ⟨hle, h500, hdvd⟩ := h.poll_time hp
  constructor <;> simp only [hcfg, hnow, hdl, hsp, hsw]
  · exact h.exact_wait
  · exact h.timeout_ms
  · exact h.poll_ms
  · exact h.pace_ms
  · exact fun hp' => absurd hp' hpoll
  · intro hw
    have hlt := hbefore hw
    have hwk := hwake hw
    rw [h.poll_ms] at hwk
    omega
  · exact h.seq_time

theorem collectorStep_timeInv (h : TimeInv s) (he : collectorStep s = .next t) : TimeInv t := by
  cases hp : s.colPhase <;> simp only [collectorStep, hp] at he
  case idle => cases he; exact h
  case poll => exact collectPoll_timeInv h hp he
  case wait =>
    split at he <;> cases he
    · have hw := h.wait_time hp
      exact { h with poll_time := fun _ => by simp only; omega, wait_time := nofun }
    · exact h

/-- The tick comes only when no step is due, so it passes no wake (70_reset R389). -/
theorem tick_timeInv (h : TimeInv s) (hen : tickEnabled s = true) : TimeInv { s with now := s.now + 1 } := by
  have hdue := tickEnabled_iff.1 hen
  simp only [h.exact_wait, true_and, not_or, not_and, not_le] at hdue
  obtain ⟨hpoll, hwait, hseq⟩ := hdue
  exact { h with
    poll_time := fun hp => absurd hp hpoll
    wait_time := fun hp => by have := h.wait_time hp; have := hwait hp; simp only; omega
    seq_time := fun hp => by have := h.seq_time hp; have := hseq hp; simp only; omega }

theorem sequencerStep_timeInv (h : TimeInv s) : TimeInv (sequencerStep s) := by
  rcases sequencerStep_cases s with e | ⟨c, p, n, -, -, -, -, -, e⟩ | ⟨c, p, -, -, -, e⟩ | ⟨k, -, e⟩ <;> rw [e]
  · exact h
  · exact (h.afterWrite p).seqWait n
  · exact (h.afterWrite p).sequenceEnds.withResult ..
  · exact h.sequenceEnds.withResult ..

theorem timeInv_kept : KeptByEveryPart TimeInv where
  records _ _ _ h := { h with }
  arrives _ h := { h with }
  answered k op h := h.withResult k op []
  effect e h := e.timeInv h
  cancelled h := h.cancel
  reset h := { h with poll_time := nofun, wait_time := nofun, seq_time := fun hp => absurd rfl hp }
  collector h he := collectorStep_timeInv h he
  sequencer h := sequencerStep_timeInv h
  tick h hen := tick_timeInv h hen

end Sys2Proof.Machine

open Sys2Proof Sys2Proof.Machine

/-- Settles O51: a wait begins on the schedule, and the clock never passes its end. -/
theorem everyStepKeepsTheSchedule : Obligations.EveryStepKeepsTheSchedule :=
  fun _ _ h hst => timeInv_kept.step h hst
end

section
/-! PROOF. Handles are fresh and a released one is not used again (60_exceptions R361, R364); and the reset state meets
every invariant (10_state R51). -/

namespace Sys2Proof.Machine

variable {s t : State} {i : Instr}

/-! ### Calls after a release -/

/-- `b`, made after `a`, does not use the handle that `a` released. -/
def KeepsReleased (a b : TxCall) : Prop := ∀ h, a = .released h → b.via ≠ some h

/-- No call of the history uses a handle after its release: of any two calls the later leaves the earlier's alone. -/
theorem unused_iff_pairwise (calls : List TxCall) :
    (∀ before after h, calls = before ++ .released h :: after → ∀ c ∈ after, c.via ≠ some h) ↔
      calls.Pairwise KeepsReleased := by
  constructor
  · intro h
    induction calls with
    | nil => exact .nil
    | cons a rest ih =>
      refine .cons (fun c hc x hx => ?_) (ih fun before after x e => ?_)
      · exact h [] rest x (by rw [hx]; rfl) c hc
      · exact h (a :: before) after x (by rw [e]; rfl)
  · rintro h before after x rfl c hc
    exact (List.pairwise_cons.1 (List.pairwise_append.1 h).2.1).1 c hc x rfl

theorem handle?_eq_some {x : Handle} : s.handle? = some x ↔ s.conn = .connected x := by
  unfold State.handle?
  cases s.conn <;> simp

/-- What a step may do to handles: new calls use the handle in `CONN` if any, and `CONN` afterwards holds the same handle
or the next fresh one, unless the new calls release it. -/
theorem HandleInv.of_calls (h : HandleInv s) {new : List TxCall} (hcalls : t.tx.calls = s.tx.calls ++ new)
    (hnew : new.Pairwise KeepsReleased) (hvia : ∀ c ∈ new, ∀ x, c.via = some x → s.conn = .connected x)
    (hissued : s.tx.issued ≤ t.tx.issued)
    (hconn : ∀ x, t.conn = .connected x →
      x < t.tx.issued ∧ (s.conn = .connected x ∨ x = s.tx.issued) ∧ .released x ∉ new) : HandleInv t := by
  have holds : ∀ x, .released x ∈ new → s.conn = .connected x := fun x hx => hvia _ hx x rfl
  refine ⟨fun x hx => (hconn x hx).1, fun x hx => ?known, fun x hx hc => ?gone, ?unused⟩
  case known =>
    rw [hcalls, List.mem_append] at hx
    exact lt_of_lt_of_le (hx.elim (h.known x) fun hx => h.fresh x (holds x hx)) hissued
  case gone =>
    obtain ⟨-, hold, hnot⟩ := hconn x hc
    rw [hcalls, List.mem_append] at hx
    have hx := hx.resolve_right hnot
    exact hold.elim (h.gone x hx) (h.known x hx).ne
  case unused =>
    rw [unused_iff_pairwise, hcalls, List.pairwise_append]
    refine ⟨(unused_iff_pairwise _).1 h.unused, hnew, ?_⟩
    rintro a ha c hc x rfl hx
    exact h.gone x ha (hvia c hc x hx)

/-- One call through the handle in `CONN`, which stays as it is. -/
theorem HandleInv.of_call (h : HandleInv s) {c : TxCall} (hcalls : t.tx.calls = s.tx.calls ++ [c])
    (hrel : ∀ x, c ≠ .released x) (hvia : ∀ x, c.via = some x → s.conn = .connected x)
    (hissued : t.tx.issued = s.tx.issued) (hconn : t.conn = s.conn) : HandleInv t := by
  refine h.of_calls hcalls (List.pairwise_singleton _ _) (by simpa using hvia) hissued.ge fun x hx => ?_
  rw [hconn] at hx
  exact ⟨hissued ▸ h.fresh x hx, .inl hx, by simpa using (hrel x).symm⟩

theorem HandleInv.afterWrite (h : HandleInv s) (p : Packet) : HandleInv (s.afterWrite p) :=
  h.of_call (State.afterWrite_calls s p) nofun (fun _ hx => handle?_eq_some.1 hx) rfl rfl

theorem HandleInv.afterRead (h : HandleInv s) : HandleInv s.afterRead :=
  h.of_call (State.afterRead_calls s) nofun (fun _ hx => handle?_eq_some.1 hx) rfl rfl

theorem HandleInv.disconnected (h : HandleInv s) (htx : t.tx = s.tx) (hc : t.conn = .disconnected) : HandleInv t :=
  h.of_calls (new := []) (by simp [htx]) .nil nofun (by rw [htx]) (fun x hx => absurd (hc.symm.trans hx) nofun)

theorem HandleInv.of_unchanged (h : HandleInv s) (htx : t.tx = s.tx) (hc : t.conn = s.conn) : HandleInv t := by
  obtain ⟨hfresh, hknown, hgone, hunused⟩ := h
  constructor <;> simpa only [htx, hc]

theorem HandleInv.writeEnds (h : HandleInv s) (op : Byte) (p : Packet) : HandleInv (s.writeEnds op p) := by
  unfold State.writeEnds
  split <;> exact { h.afterWrite p with }

theorem HandleInv.seqWait (h : HandleInv s) (ph : SeqPhase) : HandleInv (seqWait ph s) := by
  unfold Machine.seqWait
  split <;> exact { h with }

/-! ### What a step can be -/

theorem Effect.handleInv (e : Effect s i t) (h : HandleInv s) : HandleInv t := by
  cases e with
  | same => exact h
  | arrives | faults | result | collects => exact { h with }
  | writes op p => exact h.writeEnds op p
  | sends p => exact h.afterWrite p
  | reads c op p | readFails c op p => exact { h.afterWrite p with }
  | paceFails hex lum c p => exact { h.afterWrite p with }
  | paces hex lum c p code v =>
    have h' : HandleInv { s.afterWrite p with seqCode := s.cfg.palette[code].code, seqLum := BitVec.ofNat 7 v } :=
      { h.afterWrite p with }
    exact h'.seqWait .waitOn
  | noOpen path baud hc hd =>
    refine h.of_call (c := .opened path (effectiveBaud baud s) none) ?_ nofun nofun ?_ rfl
    · simp [txOpen, hd]
    · simp [txOpen, hd]
  | opens path baud hc hd =>
    refine h.of_calls (new := [.opened path (effectiveBaud baud s) (some s.tx.issued)]) ?_ (List.pairwise_singleton _ _)
      ?_ ?_ ?_
    · simp [txOpen, hd]
    · simp [TxCall.via]
    · simp [txOpen, hd]
    · rintro x ⟨⟩
      exact ⟨by simp [txOpen, hd], .inr rfl, by simp⟩
  | closes c p hp hc =>
    refine h.of_calls (new := [.wrote s.handle? p s.writeDraw, .released c]) ?_ ?_ ?_ le_rfl nofun
    · simp
    · exact .cons (fun _ _ _ hx => nomatch hx) (List.pairwise_singleton _ _)
    · simp [TxCall.via, handle?_eq_some, hc]

theorem collectorStep_handleInv (h : HandleInv s) (he : collectorStep s = .next t) : HandleInv t := by
  obtain ⟨-, hc, -, -, -, -, -, -, -, -, htx | htx⟩ := collectorStep_frame he
  · exact h.of_unchanged htx hc
  · exact h.afterRead.of_unchanged htx hc

theorem sequencerStep_handleInv (h : HandleInv s) : HandleInv (sequencerStep s) := by
  rcases sequencerStep_cases s with e | ⟨c, p, n, -, -, -, -, -, e⟩ | ⟨c, p, -, -, -, e⟩ | ⟨k, -, e⟩ <;> rw [e]
  · exact h
  · exact (h.afterWrite p).seqWait n
  · exact { h.afterWrite p with }
  · exact { h with }

theorem HandleInv.cancel (h : HandleInv s) : HandleInv (cancel s) := by
  obtain ⟨-, hc, -, -, htx, -⟩ := cancel_frame s
  exact h.of_unchanged htx hc

theorem handleInv_kept : KeptByEveryPart HandleInv where
  records _ _ _ h := { h with }
  arrives _ h := { h with }
  answered _ _ h := { h with }
  effect e h := e.handleInv h
  cancelled h := h.cancel
  reset h := h.disconnected rfl rfl
  collector h he := collectorStep_handleInv h he
  sequencer h := sequencerStep_handleInv h
  tick h _ := { h with }

/-! ### The reset state (10_state R51) -/

theorem reset_logInv : LogInv State.reset := ⟨hardware_ok, nofun⟩

theorem reset_timeInv : TimeInv State.reset :=
  ⟨rfl, rfl, rfl, rfl, nofun, nofun, fun hp => absurd rfl hp⟩

theorem reset_handleInv : HandleInv State.reset :=
  ⟨nofun, nofun, nofun, (unused_iff_pairwise []).2 .nil⟩

end Sys2Proof.Machine

open Sys2Proof Sys2Proof.Machine

/-- Settles O52: every new call goes through the handle in `CONN`, and a release empties `CONN`. -/
theorem noHandleIsUsedAfterRelease : Obligations.NoHandleIsUsedAfterRelease :=
  fun _ _ h hst => handleInv_kept.step h hst

/-- Settles O53: at reset nothing is in flight, sent or called, and the hardware's configuration is legal. -/
theorem resetMeetsEveryInvariant : Obligations.ResetMeetsEveryInvariant :=
  ⟨resetEngine_engineInv (s := State.reset) hardware_ok, reset_logInv, ⟨nofun⟩, reset_timeInv, reset_handleInv⟩
end

section
/-! PROOF. What happens in the end when no event is left: due steps are taken and time passes (70_reset R389), and a
collection left alone ends by its deadline (41_collector R192). -/

namespace Sys2Proof.Machine

variable {s t u : State} {a b : Agent} {n : Nat}

theorem Reaches.one (h : step s = .next t) : Reaches 1 s t := .there h (.here t)

/-! ### An engine that runs by itself -/

/-- Within the invariant, without a fault, with no event left. -/
structure Running (s : State) : Prop where
  inv : EngineInv s
  unfaulted : s.fault = none
  alone : s.events = []

/-- One enabled agent's move of an engine that runs by itself. -/
theorem Running.move (h : Running s) (hen : enabled a s = true) (d : Nat) (q : Schedule) :
    ∃ t, agentStep a (s.atTurn d q) = .next t ∧ Running t ∧ t.sched = q ∧ t.cfg = s.cfg ∧
      (a ≠ .clock → t.now = s.now) ∧ (a = .clock → t.now = s.now + 1) ∧
      (a ≠ .collector → t.colPhase = s.colPhase ∧ t.colWake = s.colWake) ∧
      (a ≠ .sequencer → t.seqPhase = s.seqPhase ∧ t.seqWake = s.seqWake) := by
  obtain ⟨t, ht, hinv⟩ := agentStep_engineInv (h.inv.atTurn d q s.events) a
  obtain ⟨hev, hf, hq, hcfg, hnow, htick, hcol, hseq⟩ := agentStep_leaves ((enabled_atTurn a s d q).trans hen) ht
  exact ⟨t, ht, ⟨hinv, hf.trans h.unfaulted, hev.trans h.alone⟩, hq, hcfg, hnow, htick, hcol, hseq⟩

/-- Its step is the move of an enabled agent. -/
theorem Running.step_eq (h : Running s) :
    ∃ a d q, enabled a s = true ∧ step s = agentStep a (s.atTurn d q) := by
  have hne := movableAgents_ne_nil h.unfaulted
  obtain ⟨a, ha, d, q, -, -, e⟩ := oneOf_eq hne s
  exact ⟨a, d, q, mem_movableAgents.1 ha, (step_agents h.alone hne).trans e⟩

theorem agentStep_poll (h : Running s) (hp : s.colPhase = .poll) (d : Nat) (q : Schedule) :
    agentStep .collector (s.atTurn d q) = collectPoll (s.atTurn d q) := by
  have hen : enabled .collector (s.atTurn d q) = true := by simp [enabled, collectorDue, hp, h.unfaulted]
  rw [agentStep_enabled hen]
  simp only [collectorStep, hp]

theorem agentStep_sequence (h : Running s) (hdue : sequencerDue s = true) (d : Nat) (q : Schedule) :
    agentStep .sequencer (s.atTurn d q) = .next (sequencerStep (s.atTurn d q)) :=
  agentStep_enabled (by rw [enabled_atTurn]; simp [enabled, hdue, h.unfaulted])

/-! ### Due steps are taken in the end (70_reset R389) -/

/-- What makes an agent's step due lasts while time goes on and the agent's own elements stand, so its turn comes. -/
theorem Running.turn_comes {Q : State → Prop} (hen : ∀ s, Running s → Q s → enabled a s = true)
    (hkeep : ∀ s t, Q s → s.now ≤ t.now → (a = .collector → t.colPhase = s.colPhase ∧ t.colWake = s.colWake) →
      (a = .sequencer → t.seqPhase = s.seqPhase ∧ t.seqWake = s.seqWake) → Q t) (h : Running s) (hs : Q s) :
    ∃ n u d q, Reaches n s u ∧ Running u ∧ Q u ∧ step u = agentStep a (u.atTurn d q) := by
  obtain ⟨n, u, d, q, hr, ⟨hu, hqu⟩, hst⟩ := Machine.turn_comes (P := fun s => Running s ∧ Q s) (fun s hs => hs.1.alone)
    (fun s hs => hen s hs.1 hs.2) (fun s b d q hs hb hbe => by
      obtain ⟨t, ht, hrun, hq, -, hnow, htick, hcol, hseq⟩ := hs.1.move hbe d q
      have hle : s.now ≤ t.now := by
        by_cases hc : b = .clock
        · rw [htick hc]; omega
        · rw [hnow hc]
      refine ⟨t, ht, ⟨hrun, hkeep s t hs.2 hle (fun ha => hcol ?_) (fun ha => hseq ?_)⟩, hq⟩
      · exact ha ▸ hb
      · exact ha ▸ hb) s ⟨h, hs⟩
  exact ⟨n, u, d, q, hr, hu, hqu, hst⟩

theorem poll_taken (h : Running s) (hp : s.colPhase = .poll) : ∃ n t, Reaches n s t ∧ t.colPhase ≠ .poll := by
  obtain ⟨n, u, d, q, hr, hu, hpu, hst⟩ := h.turn_comes (Q := fun s => s.colPhase = .poll) (a := .collector)
    (fun s hs hp => by simp [enabled, collectorDue, hp, hs.unfaulted])
    (fun s t hp _ hcol _ => (hcol rfl).1.trans hp) hp
  obtain ⟨t, ht, -⟩ := collectPoll_engineInv (hu.inv.atTurn d q u.events) hpu
  rw [agentStep_poll hu hpu, ht] at hst
  exact ⟨_, t, hr.trans (.one hst), (collectPoll_leaves ht).2.1⟩

theorem wake_taken (h : Running s) (hp : s.colPhase = .wait) (hw : s.colWake ≤ s.now) :
    ∃ n t, Reaches n s t ∧ t.colPhase = .poll := by
  obtain ⟨n, u, d, q, hr, hu, ⟨hpu, hwu⟩, hst⟩ :=
    h.turn_comes (Q := fun s => s.colPhase = .wait ∧ s.colWake ≤ s.now) (a := .collector)
      (fun s hs hq => by simp [enabled, collectorDue, hq, hs.unfaulted])
      (fun s t hq hle hcol _ => ⟨(hcol rfl).1.trans hq.1, (hcol rfl).2.trans_le (hq.2.trans hle)⟩) ⟨hp, hw⟩
  rw [agentStep_wake (s := u.atTurn d q) hu.unfaulted hpu, if_pos hwu] at hst
  exact ⟨_, _, hr.trans (.one hst), rfl⟩

theorem sequence_taken (h : Running s) (hp : s.seqPhase ≠ .idle) (hw : s.seqWake ≤ s.now) :
    ∃ n t, Reaches n s t ∧ t.seqPhase ≠ s.seqPhase := by
  obtain ⟨n, u, d, q, hr, hu, ⟨hpu, hwu⟩, hst⟩ :=
    h.turn_comes (Q := fun u => u.seqPhase = s.seqPhase ∧ u.seqWake ≤ u.now) (a := .sequencer)
      (fun u hu hq => by simp [enabled, sequencerDue_iff, hq, hp, hu.unfaulted])
      (fun u t hq hle _ hseq => ⟨(hseq rfl).1.trans hq.1, (hseq rfl).2.trans_le (hq.2.trans hle)⟩) ⟨rfl, hw⟩
  have hpu' : u.seqPhase ≠ .idle := hpu ▸ hp
  rw [agentStep_sequence hu (sequencerDue_iff.2 ⟨hpu', hwu⟩)] at hst
  obtain ⟨ph, w, c, res, log, tx, e, hne, -⟩ := sequencerStep_leaves (s := u.atTurn d q) hpu'
  refine ⟨_, _, hr.trans (.one hst), ?_⟩
  rw [e]
  exact hpu ▸ hne

/-! ### Time passes in the end (70_reset R389) -/

/-- How many steps of the collector are due at this `now`: a wake makes one more poll due. -/
def collectorSteps (s : State) : Nat :=
  match s.colPhase with
  | .idle => 0
  | .poll => 1
  | .wait => if s.colWake ≤ s.now then 2 else 0

/-- How many steps of the sequencer are due at this `now`. -/
def sequencerSteps (s : State) : Nat := (sequencerDue s).toNat

theorem collectorSteps_congr (hp : t.colPhase = s.colPhase) (hw : t.colWake = s.colWake) (hn : t.now = s.now) :
    collectorSteps t = collectorSteps s := by
  simp only [collectorSteps, hp, hw, hn]

theorem sequencerSteps_congr (hp : t.seqPhase = s.seqPhase) (hw : t.seqWake = s.seqWake) (hn : t.now = s.now) :
    sequencerSteps t = sequencerSteps s := by
  simp only [sequencerSteps, sequencerDue, hp, hw, hn]

theorem collectorSteps_eq_zero (h : ¬ collectorDue s = true) : collectorSteps s = 0 := by
  rw [collectorDue_iff, not_or, not_and] at h
  cases hp : s.colPhase <;> simp [collectorSteps, hp]
  case poll => exact h.1 hp
  case wait => exact not_le.1 (h.2 hp)

/-- A poll leaves nothing due at its `now`, a wake one poll. -/
theorem collectorSteps_decrease (h : Running s) (hms : 1 ≤ s.cfg.pollMs) (hen : enabled .collector s = true) {d : Nat}
    {q : Schedule} (ht : agentStep .collector (s.atTurn d q) = .next t) (hn : t.now = s.now) :
    collectorSteps t < collectorSteps s := by
  have hdue : collectorDue s = true := (Bool.and_eq_true_iff.1 hen).1
  rcases collectorDue_iff.1 hdue with hp | ⟨hp, hw⟩
  · rw [agentStep_poll h hp] at ht
    obtain ⟨-, hpoll, hwake, -⟩ := collectPoll_leaves ht
    have hnot : ¬ collectorDue t = true := by
      rw [collectorDue_iff]
      rintro (hp' | ⟨hp', hw⟩)
      · exact hpoll hp'
      · have hle : s.now + s.cfg.pollMs ≤ s.now := (hwake hp').symm.trans_le (hw.trans hn.le)
        omega
    rw [collectorSteps_eq_zero hnot]
    simp [collectorSteps, hp]
  · rw [agentStep_wake (s := s.atTurn d q) h.unfaulted hp, if_pos hw] at ht
    cases ht
    simp [collectorSteps, hp, hw]

/-- A step of the sequencer leaves nothing of it due at its `now`. -/
theorem sequencerSteps_decrease (h : Running s) (hms : 1 ≤ s.cfg.paceMs) (hen : enabled .sequencer s = true) {d : Nat}
    {q : Schedule} (ht : agentStep .sequencer (s.atTurn d q) = .next t) : sequencerSteps t < sequencerSteps s := by
  have hdue : sequencerDue s = true := (Bool.and_eq_true_iff.1 hen).1
  rw [agentStep_sequence h hdue] at ht
  cases ht
  obtain ⟨ph, w, c, res, log, tx, e, -, hleft⟩ := sequencerStep_leaves (s := s.atTurn d q) (sequencerDue_iff.1 hdue).1
  have hnot : ¬ sequencerDue (sequencerStep (s.atTurn d q)) = true := by
    rw [sequencerDue_iff, e]
    rintro ⟨hne, hle⟩
    have hw := hleft.resolve_left hne
    simp only [hw] at hle
    omega
  simp [sequencerSteps, hdue, hnot]

/-- At each `now` only so many steps are due; once they are taken, or before, the clock ticks. -/
theorem time_passes (k : Nat) : ∀ s, collectorSteps s + sequencerSteps s = k → Running s → 1 ≤ s.cfg.pollMs →
    1 ≤ s.cfg.paceMs → ∃ n t, Reaches n s t ∧ t.now = s.now + 1 := by
  induction k using Nat.strong_induction_on with
  | _ k ih =>
    intro s hk h hpoll hpace
    obtain ⟨a, d, q, hen, hst⟩ := h.step_eq
    obtain ⟨t, ht, hrun, -, hcfg, hnow, htick, hcol, hseq⟩ := h.move hen d q
    rw [ht] at hst
    by_cases ha : a = .clock
    · exact ⟨1, t, .one hst, htick ha⟩
    have hn := hnow ha
    have hless : collectorSteps t + sequencerSteps t < k := by
      rw [← hk]
      cases a with
      | clock => exact absurd rfl ha
      | collector =>
        obtain ⟨hp, hw⟩ := hseq (by simp)
        have hdec := collectorSteps_decrease h hpoll hen ht hn
        rw [sequencerSteps_congr hp hw hn]
        omega
      | sequencer =>
        obtain ⟨hp, hw⟩ := hcol (by simp)
        have hdec := sequencerSteps_decrease h hpace hen ht
        rw [collectorSteps_congr hp hw hn]
        omega
    obtain ⟨n, u, hr, hu⟩ := ih _ hless t rfl hrun (hcfg ▸ hpoll) (hcfg ▸ hpace)
    exact ⟨n + 1, u, .there hst hr, hn ▸ hu⟩

end Sys2Proof.Machine

open Sys2Proof Sys2Proof.Machine

/-- Settles O56: what makes each step due is kept by the other agents' steps, so its agent's turn comes. -/
theorem dueStepsAreTakenInTheEnd : Obligations.DueStepsAreTakenInTheEnd :=
  fun _ h hf hev => ⟨poll_taken ⟨h, hf, hev⟩, wake_taken ⟨h, hf, hev⟩, sequence_taken ⟨h, hf, hev⟩⟩

/-- Settles O57: every step but a tick leaves fewer steps due at this `now`. -/
theorem timePassesInTheEnd : Obligations.TimePassesInTheEnd :=
  fun s h hf hev hpoll hpace => time_passes _ s rfl ⟨h, hf, hev⟩ hpoll hpace
end

section
/-! PROOF. Left alone with exact waits, a collection ends by its deadline (41_collector R192) and a paced setColor
completes 300 ms after its request (44_controller R301). -/

namespace Sys2Proof.Machine

variable {s t u : State} {n : Nat}

/-! ### The only agent that can move (70_reset R389) -/

/-- Nothing is due: the clock ticks. -/
theorem step_tick (hev : s.events = []) (hc : collectorDue s = false) (hs : sequencerDue s = false) :
    step s = .next { s with now := s.now + 1 } := by
  have hm : movableAgents s = [.clock] := by simp [movableAgents, enabled, tickEnabled, hc, hs]
  have hen : tickEnabled s = true := by simp [tickEnabled, hc, hs]
  rw [step_agents hev (by simp [hm]), hm, oneOf_singleton, agentStep_clock hen]

/-- Only the collector is due, and the clock waits for it. -/
theorem step_collector_alone (hev : s.events = []) (hf : s.fault = none) (hx : s.cfg.exactWait = true)
    (hc : collectorDue s = true) (hs : sequencerDue s = false) : step s = collectorStep s := by
  have hm : movableAgents s = [.collector] := by simp [movableAgents, enabled, tickEnabled, hc, hs, hf, hx]
  have hen : enabled .collector s = true := by simp [enabled, hc, hf]
  rw [step_agents hev (by simp [hm]), hm, oneOf_singleton, agentStep_enabled hen]

/-- Only the sequencer is due, and the clock waits for it. -/
theorem step_sequencer_alone (hev : s.events = []) (hf : s.fault = none) (hx : s.cfg.exactWait = true)
    (hc : collectorDue s = false) (hs : sequencerDue s = true) : step s = .next (sequencerStep s) := by
  have hm : movableAgents s = [.sequencer] := by simp [movableAgents, enabled, tickEnabled, hc, hs, hf, hx]
  have hen : enabled .sequencer s = true := by simp [enabled, hs, hf]
  rw [step_agents hev (by simp [hm]), hm, oneOf_singleton, agentStep_enabled hen]

/-- The state `k` ms later, all else as it is. -/
def State.later (s : State) (k : Nat) : State := { s with now := s.now + k }

/-- While nothing is due only time goes on. -/
theorem reaches_later (hev : s.events = []) (n : Nat)
    (hidle : ∀ k < n, collectorDue (s.later k) = false ∧ sequencerDue (s.later k) = false) :
    Reaches n s (s.later n) := by
  induction n with
  | zero => exact .here s
  | succ n ih =>
    obtain ⟨hc, hs⟩ := hidle n n.lt_succ_self
    exact (ih fun k hk => hidle k (hk.trans n.lt_succ_self)).trans (.one (step_tick hev hc hs))

/-! ### A collection left alone (41_collector R192) -/

/-- A collection left alone, on its schedule. -/
structure Collecting (s : State) : Prop extends Running s, TimeInv s where
  no_sequence : s.seqPhase = .idle
  busy : s.rdBusy = true

/-- From `s` some number of steps ends the collection, with one result for its owner, by its deadline. -/
def CollectionEnds (s : State) : Prop :=
  ∃ (n : Nat) (t : State) (x : Result), Reaches n s t ∧ t.rdBusy = false ∧ t.colPhase = .idle ∧
    t.now ≤ s.colDeadline ∧ t.results = s.results ++ [x] ∧ x.op = s.colOwner.op ∧ x.time ≤ s.colDeadline

/-- Steps that leave the deadline, the owner and the results lead to the same end. -/
theorem CollectionEnds.before (h : CollectionEnds t) (hr : Reaches n s t) (hd : t.colDeadline = s.colDeadline)
    (ho : t.colOwner = s.colOwner) (hres : t.results = s.results) : CollectionEnds s := by
  obtain ⟨m, u, x, hu, hb, hp, hn, hx, hop, htime⟩ := h
  rw [hd] at hn htime
  exact ⟨n + m, u, x, hr.trans hu, hb, hp, hn, hres ▸ hx, ho ▸ hop, htime⟩

/-- What every step keeps holds at the end of a run. -/
theorem Reaches.keeps {P : State → Prop} (hP : ∀ s t, P s → step s = .next t → P t) (h : Reaches n s t) (hs : P s) :
    P t := by
  induction h with
  | here => exact hs
  | there hst _ ih => exact ih (hP _ _ hs hst)

/-- A run keeps the invariants; the rest is said of its end. -/
theorem Collecting.of_reaches (h : Collecting s) (hr : Reaches n s t) (hf : t.fault = none) (hev : t.events = [])
    (hs : t.seqPhase = .idle) (hb : t.rdBusy = true) : Collecting t where
  inv := hr.keeps (fun _ _ => engineInv_kept.step) h.inv
  unfaulted := hf
  alone := hev
  toTimeInv := hr.keeps (fun _ _ => timeInv_kept.step) h.toTimeInv
  no_sequence := hs
  busy := hb

theorem Collecting.sequencerDue_later (h : Collecting s) (k : Nat) : sequencerDue (s.later k) = false := by
  simp [sequencerDue, State.later, h.no_sequence]

/-- A wait comes to its wake, and the wake to its poll (41_collector R187). -/
theorem Collecting.wait_ends (h : Collecting s) (hp : s.colPhase = .wait) :
    ∃ n, Reaches n s { s with now := s.colWake, colPhase := .poll } := by
  obtain ⟨hle, -⟩ := h.wait_time hp
  have hwake : s.now + (s.colWake - s.now) = s.colWake := by omega
  have hticks := reaches_later h.alone (s.colWake - s.now) fun k hk =>
    ⟨by simp [collectorDue, State.later, hp]; omega, h.sequencerDue_later k⟩
  have hdue : collectorDue (s.later (s.colWake - s.now)) = true := by simp [collectorDue, State.later, hp, hwake]
  have hstep := step_collector_alone (s := s.later (s.colWake - s.now)) h.alone h.unfaulted h.exact_wait hdue
    (h.sequencerDue_later _)
  refine ⟨_, hticks.trans (.one (hstep.trans ?_))⟩
  simp [collectorStep, State.later, hp, hwake]

/-- A wait's collection ends if the poll its wake makes due ends it. -/
theorem Collecting.ends_of_wait (h : Collecting s) (hp : s.colPhase = .wait)
    (hnext : Collecting { s with now := s.colWake, colPhase := .poll } →
      CollectionEnds { s with now := s.colWake, colPhase := .poll }) : CollectionEnds s := by
  obtain ⟨n, hr⟩ := h.wait_ends hp
  exact (hnext (h.of_reaches hr h.unfaulted h.alone h.no_sequence h.busy)).before hr rfl rfl rfl

/-- A poll ends the collection, or waits for one that is less far from the deadline. -/
theorem collecting_ends_of_poll (k : Nat) : ∀ s, s.colDeadline - s.now = k → Collecting s → s.colPhase = .poll →
    CollectionEnds s := by
  induction k using Nat.strong_induction_on with
  | _ k ih =>
    intro s hk h hp
    obtain ⟨hle, -, -⟩ := h.poll_time hp
    have hdue : collectorDue s = true := by simp [collectorDue, hp]
    have hstep := step_collector_alone h.alone h.unfaulted h.exact_wait hdue (h.sequencerDue_later 0)
    obtain ⟨t, ht, hend⟩ := collectPoll_cases h.inv hp
    simp only [collectorStep, hp, ht] at hstep
    rcases hend with ⟨-, hlt, -, rfl⟩ | ⟨r, payload, buf, n, pend, -, -, rfl⟩
    · have hless : s.colDeadline - (s.now + s.cfg.pollMs) < k := by rw [h.poll_ms]; omega
      have hwaits := h.of_reaches (.one hstep) h.unfaulted h.alone h.no_sequence h.busy
      exact (hwaits.ends_of_wait rfl fun hpolls => ih _ hless _ rfl hpolls rfl).before (.one hstep) rfl rfl rfl
    · exact ⟨1, _, _, .one hstep, rfl, rfl, hle, rfl, rfl, hle⟩

theorem Collecting.ends (h : Collecting s) : CollectionEnds s := by
  cases hp : s.colPhase with
  | idle => exact absurd hp (h.inv.busy_iff.1 h.busy)
  | poll => exact collecting_ends_of_poll _ s rfl h hp
  | wait => exact h.ends_of_wait hp fun hpolls => collecting_ends_of_poll _ _ rfl hpolls rfl

/-! ### A paced setColor left alone (44_controller R301) -/

/-- A sequence left alone, its wait just begun. -/
structure Pacing (s : State) (ph : SeqPhase) : Prop where
  alone : s.events = []
  unfaulted : s.fault = none
  exact_wait : s.cfg.exactWait = true
  pace_ms : s.cfg.paceMs = 100
  no_collection : s.colPhase = .idle
  not_cancelled : s.cancelPend = false
  connected : ∃ h, s.conn = .connected h
  phase : s.seqPhase = ph
  waiting : ph ≠ .idle
  wake : s.seqWake = s.now + 100

/-- 100 ticks, then the sequencer's step. -/
theorem Pacing.wait_ends {ph : SeqPhase} (h : Pacing s ph) : Reaches 101 s (sequencerStep (s.later 100)) := by
  have hcol (k : Nat) : collectorDue (s.later k) = false := by simp [collectorDue, State.later, h.no_collection]
  have hseq (k : Nat) : sequencerDue (s.later k) = true ↔ 100 ≤ k := by
    rw [sequencerDue_iff]
    simp [State.later, h.phase, h.waiting, h.wake]
  have hticks := reaches_later h.alone 100 fun k hk =>
    ⟨hcol k, Bool.eq_false_iff.2 fun hdue => absurd ((hseq k).1 hdue) hk.not_ge⟩
  exact hticks.trans (.one (step_sequencer_alone h.alone h.unfaulted h.exact_wait (hcol 100) ((hseq 100).2 le_rfl)))

/-- A write of the sequence that is accepted, and the wait before it: the next wait begins 100 ms later. -/
theorem Pacing.write {ph next : SeqPhase} {cmd : Byte} {params : List Byte} {more : List Bool} (h : Pacing s ph)
    (hwrite : sequencerStep (s.later 100) = seqWrite cmd params next (s.later 100)) (hnext : next ≠ .idle)
    (hans : s.tx.writeAnswers = true :: more) :
    ∃ t, Reaches 101 s t ∧ Pacing t next ∧ t.now = s.now + 100 ∧
      t.txLog = s.txLog ++ [(specPacket 0x00 cmd params, true)] ∧ t.tx.writeAnswers = more ∧ t.results = s.results ∧
      t.seqLum = s.seqLum := by
  obtain ⟨c, hc⟩ := h.connected
  have hdraw : (s.later 100).writeDraw = true := by simp [State.writeDraw, State.later, hans]
  have hpend : (s.later 100).cancelPend = false := h.not_cancelled
  have hr := h.wait_ends
  rw [hwrite, seqWrite_connected (s := s.later 100) hc, hdraw, hpend] at hr
  refine ⟨_, hr, ⟨h.alone, h.unfaulted, h.exact_wait, h.pace_ms, h.no_collection, h.not_cancelled, ⟨c, hc⟩, rfl, hnext,
    ?_⟩, rfl, ?_, ?_, rfl, rfl⟩
  · exact congrArg ((s.later 100).now + ·) h.pace_ms
  · exact congrArg (fun ok => s.txLog ++ [(specPacket 0x00 cmd params, ok)]) hdraw
  · exact congrArg List.tail hans

theorem brightness_param {v : Nat} (hv : v ≤ 100) : BitVec.ofNat 8 (BitVec.ofNat 7 v).toNat = BitVec.ofNat 8 v := by
  rw [BitVec.toNat_ofNat, Nat.mod_eq_of_lt (by omega)]

/-- The three waits of a sequence whose writes are accepted: mode, brightness, and the result 300 ms after its start. -/
theorem Pacing.completes {v : Nat} {more : List Bool} (h : Pacing s .waitOn) (hv : v ≤ 100)
    (hlum : s.seqLum = BitVec.ofNat 7 v) (hans : s.tx.writeAnswers = true :: true :: more) :
    ∃ u, Reaches 303 s u ∧ u.now = s.now + 300 ∧ u.seqPhase = .idle ∧
      u.txLog = s.txLog ++ [(specPacket 0x00 0x04 [s.seqCode], true),
        (specPacket 0x00 0x08 [BitVec.ofNat 8 v], true)] ∧
      u.results = s.results ++ [{ kind := .ok, op := 0x16, payload := [], time := s.now + 300 }] := by
  obtain ⟨t1, hr1, h1, hn1, hlog1, hans1, hres1, hlum1⟩ :=
    h.write (cmd := 0x04) (params := [s.seqCode]) (next := .waitMode) (by simp [sequencerStep, State.later, h.phase])
      (by simp) hans
  have hstep2 : sequencerStep (t1.later 100) = seqWrite 0x08 [BitVec.ofNat 8 v] .waitBright (t1.later 100) := by
    rw [← brightness_param hv, ← hlum, ← hlum1]
    simp [sequencerStep, State.later, h1.phase]
  obtain ⟨t2, hr2, h2, hn2, hlog2, -, hres2, -⟩ := h1.write hstep2 (by simp) hans1
  have hr3 := h2.wait_ends
  have hstep3 : sequencerStep (t2.later 100) = ({ t2.later 100 with seqPhase := .idle }).withResult .ok 0x16 [] := by
    simp [sequencerStep, State.later, h2.phase, State.deliver_eq]
  rw [hstep3] at hr3
  refine ⟨_, (hr1.trans hr2).trans hr3, ?_, rfl, ?_, ?_⟩
  · simp [State.later, hn1, hn2]
  · simp [State.later, hlog1, hlog2]
  · simp [State.later, hn1, hn2, hres1, hres2]

end Sys2Proof.Machine

open Sys2Proof Sys2Proof.Machine

/-- Settles O54: with exact waits the collector is alone, and its last poll is at the deadline. -/
theorem collectionEndsByItsDeadline : Obligations.CollectionEndsByItsDeadline :=
  fun _ hinv htime hf hev hs hb =>
    Collecting.ends { inv := hinv, unfaulted := hf, alone := hev, toTimeInv := htime, no_sequence := hs, busy := hb }

/-- Settles O30: the request sends power-on and begins the first of three waits. -/
theorem setcolorRunsItsWholeSequence : Obligations.SetcolorRunsItsWholeSequence := by
  intro s hex lum r g b i h v more hf hx hms hs hcol hpend hc hev hans hn hi hv hk
  have hdraw : s.writeDraw = true := by simp [State.writeDraw, hans]
  obtain ⟨-, hpaced, -⟩ := (setcolorPacesItsWrites s).1 hex lum r g b i h v hf hs hc hn hi hv hk
  have ht := hpaced hdraw hpend
  have hpacing : Pacing { s.afterWrite (specPacket 0x00 0x01 s.cfg.powerOnParams) with
      seqCode := s.cfg.palette[i].code, seqLum := BitVec.ofNat 7 v, seqPhase := .waitOn
      seqWake := s.now + s.cfg.paceMs } .waitOn :=
    ⟨hev, hf, hx, hms, hcol, hpend, ⟨h, hc⟩, rfl, by simp, by rw [hms]; rfl⟩
  obtain ⟨u, hr, hnow, hidle, hlog, hres⟩ := hpacing.completes hv.2.2.2 rfl (congrArg List.tail hans)
  refine ⟨_, u, ht, hr, hnow, hidle, ?_, hres⟩
  rw [hlog, State.afterWrite_txLog, hdraw, List.append_assoc]
  rfl
end
